-- ==== Sys2Proof/Word.lean ====
section
/-! DEFINITION. The word types of the CORE: 32-bit registers, hashes and counts, and the bytes of keys
(00_scope.md R7, R19). -/

namespace Sys2Proof

/-- A 32-bit value: every host register, the hash, a bucket's count (00_scope.md R7). -/
abbrev Word := BitVec 32

/-- A key byte, opaque in `0x00 .. 0xFF` (00_scope.md R19). -/
abbrev Byte := BitVec 8

end Sys2Proof
end

