-- ==== Sys2Proof/Machine/Bits.lean ====
section
/-! DEFINITION. Extensions, byte order and the packed 128-byte buffers (00_scope.md R12, 20_memory.md R64). -/

namespace Sys2Proof.Machine

/-- `zext_32` of a byte (00_scope.md R12). -/
def zext32 (x : Byte) : Word := x.setWidth 32

/-- `sext_32` of a byte: bit 7 copied into bits 31..8 (00_scope.md R12). -/
def sext32 (x : Byte) : Word := x.signExtend 32

/-- `LE16(x, y)`: the 16-bit value whose low byte is `x`, zero-extended (00_scope.md R12). -/
def le16 (x y : Byte) : Word := zext32 x + (zext32 y <<< 8)

/-- `zext_32` of a bucket index or a small number (00_scope.md R12). -/
def indexWord (b : Nat) : Word := BitVec.ofNat 32 b

/-- Word `j` of a register array; a position outside the array reads 0. -/
def wordAt {n : Nat} (v : Vector Word n) (j : Nat) : Word := v[j]?.getD 0

/-- Byte `j` of a packed buffer: word `j >> 2`, bits `[8*(j AND 3)+7 : 8*(j AND 3)]` (20_memory.md R64). -/
def bufByte (buf : Vector Word 32) (j : Nat) : Byte := (wordAt buf (j / 4)).extractLsb' (8 * (j % 4)) 8

/-- The little-endian word of four bytes, `b0` lowest (20_memory.md R64). -/
def packWord (b0 b1 b2 b3 : Byte) : Word := b3 ++ b2 ++ b1 ++ b0

/-- The packed buffer whose byte `j` is `f j` (20_memory.md R64). -/
def packBytes (f : Nat → Byte) : Vector Word 32 :=
  Vector.ofFn fun w => packWord (f (4 * w.val)) (f (4 * w.val + 1)) (f (4 * w.val + 2)) (f (4 * w.val + 3))

end Sys2Proof.Machine
end

