-- ==== Sys2Proof/Syntax.lean ====
section
/-! DEFINITION. The commands of HMC-1, one constructor per row of spec/opcode_table.json
(30_encoding.md R89). -/

namespace Sys2Proof

/-- A command. Forms K and I carry the zero-extended operand `OPND = w[31:8]` (30_encoding.md R87, R88): a key
length in bytes or a bucket index, both plain numbers the spec never masks. -/
inductive Instr where
  /-- `NOP`: complete without effect (44_interface.md R170). -/
  | nop
  /-- `HASH n`: hash and home index of the key in KEYBUF (40_hash_mixer.md R110). -/
  | hash (n : Nat)
  /-- `FIND n`: find or insert the key (41_table_lookup.md R127). -/
  | find (n : Nat)
  /-- `INCR idx`: increment a bucket's count (42_counter.md R143). -/
  | incr (idx : Nat)
  /-- `COUNT n`: find or insert, then increment (42_counter.md R144). -/
  | count (n : Nat)
  /-- `TOPK`: publish the K highest-count buckets (43_topk.md R155). -/
  | topk
  /-- `RDBKT idx`: read a bucket into the result registers and BKTKEY (44_interface.md R171). -/
  | rdbkt (idx : Nat)
deriving DecidableEq, Repr

end Sys2Proof
end

