-- ==== Sys2Proof/WellFormed.lean ====
section
/-! DEFINITION. Which commands have an encoding: an operand must fit in the 24 bits of OPND
(30_encoding.md R86, R94). -/

namespace Sys2Proof

/-- An operand that fits in 24 bits (30_encoding.md R94). -/
def operandFits (x : Nat) : Bool := decide (x < 2 ^ 24)

/-- A command that can be spelled in a command word. Values of OPND that are too long or out of range for the
table are well-formed: they are operand errors, not encoding errors (30_encoding.md R88, R92). -/
def Instr.wellFormed : Instr → Bool
  | .nop => true
  | .hash n => operandFits n
  | .find n => operandFits n
  | .incr idx => operandFits idx
  | .count n => operandFits n
  | .topk => true
  | .rdbkt idx => operandFits idx

end Sys2Proof
end

