-- ==== Sys2Proof/Decode.lean ====
section
/-! DEFINITION. The command decoder, total on every 32-bit word and rejecting by name (30_encoding.md R85 to
R93), the encoder (R94), and the opcode map as data (R89). -/

namespace Sys2Proof

/-- Why a word is illegal (30_encoding.md R91, R92). -/
inductive Illegal where
  /-- OPC in `0x07 .. 0xFF` (R91). -/
  | reservedOpcode (opc : Byte)
  /-- A form-N command (NOP, TOPK) with OPND not 0 (R92). -/
  | operandNotZero (opc : Byte) (opnd : Nat)
deriving DecidableEq, Repr

/-- What a word spells: exactly one of a legal command and an illegal word (30_encoding.md R93). -/
inductive Decoded where
  | legal (i : Instr)
  | illegal (why : Illegal)
deriving DecidableEq, Repr

/-- Field OPC, bits 7:0 (30_encoding.md R86). -/
def opcField (w : Word) : Byte := w.extractLsb' 0 8

/-- Field OPND, bits 31:8, zero-extended (30_encoding.md R86, R88). -/
def opndField (w : Word) : Nat := (w.extractLsb' 8 24).toNat

/-- A form-N word: legal only with OPND = 0 (30_encoding.md R88, R92). -/
def decodeFormN (w : Word) (i : Instr) : Decoded :=
  if opndField w = 0 then .legal i else .illegal (.operandNotZero (opcField w) (opndField w))

/-- `decode(w)` of 30_encoding.md R90: all 8 bits of OPC are compared, before any operand check. -/
def decode (w : Word) : Decoded :=
  match (opcField w).toNat with
  | 0x00 => decodeFormN w .nop
  | 0x01 => .legal (.hash (opndField w))
  | 0x02 => .legal (.find (opndField w))
  | 0x03 => .legal (.incr (opndField w))
  | 0x04 => .legal (.count (opndField w))
  | 0x05 => decodeFormN w .topk
  | 0x06 => .legal (.rdbkt (opndField w))
  | _ => .illegal (.reservedOpcode (opcField w))

/-- OPC of a command (30_encoding.md R89). -/
def opcodeOf : Instr → Byte
  | .nop => 0x00
  | .hash _ => 0x01
  | .find _ => 0x02
  | .incr _ => 0x03
  | .count _ => 0x04
  | .topk => 0x05
  | .rdbkt _ => 0x06

/-- OPND of a command; 0 for form N (30_encoding.md R87, R88). -/
def operandOf : Instr → Nat
  | .nop => 0
  | .hash n => n
  | .find n => n
  | .incr idx => idx
  | .count n => n
  | .topk => 0
  | .rdbkt idx => idx

/-- The word of a command, `(op << 8) OR OPC` (30_encoding.md R94). -/
def encode (i : Instr) : Word := BitVec.ofNat 24 (operandOf i) ++ opcodeOf i

/-- A row of the opcode map: a word spells the command when `(w AND mask) = pattern` (30_encoding.md R89). -/
structure OpcodeRow where
  mnemonic : String
  pattern : Word
  mask : Word
deriving DecidableEq, Repr

/-- The row of the opcode map each command belongs to (30_encoding.md R89, spec/opcode_table.json). -/
def opcodeRow : Instr → OpcodeRow
  | .nop => { mnemonic := "NOP", pattern := 0x00000000, mask := 0xFFFFFFFF }
  | .hash _ => { mnemonic := "HASH", pattern := 0x00000001, mask := 0x000000FF }
  | .find _ => { mnemonic := "FIND", pattern := 0x00000002, mask := 0x000000FF }
  | .incr _ => { mnemonic := "INCR", pattern := 0x00000003, mask := 0x000000FF }
  | .count _ => { mnemonic := "COUNT", pattern := 0x00000004, mask := 0x000000FF }
  | .topk => { mnemonic := "TOPK", pattern := 0x00000005, mask := 0xFFFFFFFF }
  | .rdbkt _ => { mnemonic := "RDBKT", pattern := 0x00000006, mask := 0x000000FF }

/-- The opcode map of 30_encoding.md R89, in its order. -/
def opcodeTable : List OpcodeRow :=
  [opcodeRow .nop, opcodeRow (.hash 0), opcodeRow (.find 0), opcodeRow (.incr 0), opcodeRow (.count 0),
    opcodeRow .topk, opcodeRow (.rdbkt 0)]

/-- `w` spells the command of row `r` (30_encoding.md R89). -/
def spells (w : Word) (r : OpcodeRow) : Bool := (w &&& r.mask) == r.pattern

/-- The command a word spells, if any. -/
def Decoded.instr : Decoded → Option Instr
  | .legal i => some i
  | .illegal _ => none

/-- The command word of `nbits` table bits with value `w`: every bit above `nbits` is 0. A command is one 32-bit
word (30_encoding.md R85), so nothing longer has a command. -/
def tableWord (nbits w : Nat) : Word := BitVec.ofNat 32 (w % 2 ^ nbits)

/-- The command this decoder reads from a word of the opcode table. -/
def decodeTableWord (nbits w : Nat) : Option Instr :=
  if nbits ≤ 32 then (decode (tableWord nbits w)).instr else none

end Sys2Proof
end

