-- ==== Sys2Proof/Machine/HostTypes.lean ====
section
/-! DEFINITION. The types of the host side: registers of the window (10_state.md R23), accesses (20_memory.md
R61, R62), the statements of a host program (30_encoding.md R95), and whose move comes next (20_memory.md R75). -/

namespace Sys2Proof.Machine

/-- A register of the window, by the names of 10_state.md R23; `reserved` is any other word-aligned offset. -/
inductive Reg where
  | id
  | ctrl
  | status
  | cmd
  | resHash
  | resHome
  | resIdx
  | resCount
  | resInfo
  | topkNum
  | paramCap
  | paramMisc
  | topkIdx (j : Nat)
  | topkCnt (j : Nat)
  | keybuf (w : Nat)
  | bktkey (w : Nat)
  | reserved (offset : Nat)
deriving DecidableEq, Repr

/-- A host access to the port: a byte offset and a width in bits (20_memory.md R61, R62). -/
structure Access where
  offset : Nat
  width : Nat
deriving DecidableEq, Repr

/-- The primitive statements of a host program (30_encoding.md R95). A label is the position of a statement in
the program; host variables are numbered. -/
inductive Stmt where
  /-- `WR REG, v`. -/
  | wr (a : Access) (v : Word)
  /-- `RD REG -> x`. -/
  | rd (a : Access) (x : Nat)
  /-- `CMD m [op]`. -/
  | cmd (i : Instr)
  /-- `BNZ x, mask, L`. -/
  | bnz (x : Nat) (mask : Word) (target : Nat)
  /-- `BZ x, mask, L`. -/
  | bz (x : Nat) (mask : Word) (target : Nat)
  /-- `GOTO L`. -/
  | goto (target : Nat)
  /-- `HALT`. -/
  | halt
deriving DecidableEq, Repr

/-- The host: its program, where it is in it, and its variables, in rising order of their numbers (30_encoding.md
R95). They are the host's own and no state of the CORE (notes/assumptions/1.md). -/
structure HostAgent where
  program : List Stmt
  pc : Nat
  vars : List (Nat × Word)
deriving DecidableEq, Repr

/-- Whose move a step is: the host's next statement, the sequencer's completion or sweep-end step, or the reset
input (20_memory.md R75, 70_reset_and_hazards.md R210). -/
inductive Move where
  | host
  | core
  | reset
deriving DecidableEq, Repr

end Sys2Proof.Machine
end

