-- ==== Sys2Proof/Config.lean ====
section
/-! DEFINITION. What an implementation of the CORE fixes (the parameters of 00_scope.md R6), and the free
values, which the spec leaves open: constants with no body. The default values of the parameters stand in
Sys2Proof/Machine/Parameters.lean. -/

namespace Sys2Proof

/-- The shift constants of the hash, by the names of 40_hash_mixer.md R108, each `0 .. 31`. -/
structure HashShifts where
  gT : Nat
  gM : Nat
  gR : Nat
  t3A : Nat
  t3B : Nat
  t3C : Nat
  t2A : Nat
  t2B : Nat
  t1A : Nat
  t1B : Nat
  v1 : Nat
  v2 : Nat
  v3 : Nat
  v4 : Nat
  v5 : Nat
  v6 : Nat
deriving DecidableEq, Repr

/-- The parameters of an instance of the CORE (00_scope.md R6): every literal of the source is one, none is
built into a rule. -/
structure Params where
  /-- `CAPACITY`, the number of buckets. -/
  capacity : Nat
  /-- `MAX_KEY_LEN`, in bytes. -/
  maxKeyLen : Nat
  /-- `PROBE_LIMIT`, the number of attempts of one findOrInsert. -/
  probeLimit : Nat
  /-- `K`, the number of result slots. -/
  k : Nat
  /-- `HASH_TAIL_SIGNED` (40_hash_mixer.md R109). -/
  hashTailSigned : Bool
  /-- The shift constants of 40_hash_mixer.md R108. -/
  shifts : HashShifts
deriving DecidableEq, Repr

/-- FREE VALUE. How many moves of the host come before the `n`-th completion or sweep-end step whose place is left open:
"the completion step may occur after any number of host accesses following acceptance, or before the next one"
(70_reset_and_hazards.md R229, 20_memory.md R75). Any number, but a number: the step "eventually occurs" (R229). Nothing
else constrains it (notes/assumptions/3.md). -/
opaque Config.hostMovesBefore : Nat → Nat

/-- FREE VALUE. What host variable `x` holds before the host program assigns it: 30_encoding.md R95 names
variables and states no first value (notes/assumptions/10.md). -/
opaque Config.unsetHostVariable : Nat → Word

end Sys2Proof
end

