-- ==== Sys2Proof/Machine/Parameters.lean ====
section
/-! DEFINITION. The default parameters of this hardware and their legal ranges (00_scope.md R6, 40_hash_mixer.md
R108, R109). -/

namespace Sys2Proof.Machine

/-- The default shift constants of 40_hash_mixer.md R108. PRESUMED by the spec itself: "from general knowledge,
not in source" (notes/assumptions/14.md). -/
def defaultShifts : HashShifts :=
  { gT := 11, gM := 16, gR := 11
    t3A := 16, t3B := 18, t3C := 11
    t2A := 11, t2B := 17
    t1A := 10, t1B := 1
    v1 := 3, v2 := 5, v3 := 4, v4 := 17, v5 := 25, v6 := 6 }

/-- The default column of 00_scope.md R6: this hardware. -/
def defaultParams : Params :=
  { capacity := 2097153, maxKeyLen := 125, probeLimit := 64, k := 10, hashTailSigned := true
    shifts := defaultShifts }

/-- Every shift constant is in `0 .. 31` (40_hash_mixer.md R108). -/
def shiftsLegal (h : HashShifts) : Bool :=
  [h.gT, h.gM, h.gR, h.t3A, h.t3B, h.t3C, h.t2A, h.t2B, h.t1A, h.t1B,
    h.v1, h.v2, h.v3, h.v4, h.v5, h.v6].all fun x => decide (x ≤ 31)

/-- The legal range column of 00_scope.md R6; a model refuses an instance outside it (92_eei_decisions.md D45). -/
def paramsLegal (p : Params) : Bool :=
  decide (1 ≤ p.capacity ∧ p.capacity ≤ 2 ^ 24) && decide (1 ≤ p.maxKeyLen ∧ p.maxKeyLen ≤ 128) &&
    decide (1 ≤ p.probeLimit ∧ p.probeLimit ≤ 127) && decide (1 ≤ p.k ∧ p.k ≤ 16) && shiftsLegal p.shifts

end Sys2Proof.Machine
end

