-- ==== Sys2Proof/Machine/State.lean ====
section
/-! DEFINITION. The state of the machine: all of 10_state.md R20, the parameters of the instance, the host agent
and the open choice of who moves next; the reasons a step can stop; the state after reset (10_state.md R57). -/

namespace Sys2Proof.Machine

/-- A bucket of the table (10_state.md R44). `key` holds the 128 bytes of the largest legal MAX_KEY_LEN; positions
at and beyond MAX_KEY_LEN do not exist in the hardware and hold 0 (notes/assumptions/5.md). -/
structure Bucket where
  key : Vector Byte 128
  length : Nat
  count : Word
deriving DecidableEq, Repr

/-- A bucket as the reset sweep leaves it: every field zero (70_reset_and_hazards.md R211). -/
def Bucket.empty : Bucket := { key := Vector.replicate 128 0, length := 0, count := 0 }

/-- The table: the buckets that are not `Bucket.empty`, by index, in rising order. Every index not listed reads
as `Bucket.empty`, the reset contents (10_state.md R46, R57; notes/assumptions/4.md). -/
abbrev Memory := List (Nat × Bucket)

/-- CTRL's stored fields (10_state.md R25). -/
structure Ctrl where
  /-- IE, completion-interrupt enable. -/
  ie : Bool
  /-- CNT_SAT, counter mode. -/
  cntSat : Bool
deriving DecidableEq, Repr

/-- STATUS's fields (10_state.md R29). -/
structure Status where
  busy : Bool
  done : Bool
  err : Bool
  errs : Bool
  ovr : Bool
  cntOvf : Bool
  init : Bool
  errCode : Byte
deriving DecidableEq, Repr

/-- The contents of the pending command latch: the accepted word and the sampled counter mode (10_state.md R53). -/
structure Pending where
  word : Word
  sat : Bool
deriving DecidableEq, Repr

/-- The errors a command can end in (60_exceptions.md R180). -/
inductive CmdError where
  | keyTooLong
  | insertionExhausted
  | illegalCommand
  | badIndex
  | emptyKey
deriving DecidableEq, Repr

/-- The whole state. -/
structure State where
  /-- The instance's parameters, which no step changes (00_scope.md R6, 10_state.md R20). -/
  params : Params
  /-- A second host drives the port: outside the contract (60_exceptions.md R204). -/
  secondHost : Bool
  ctrl : Ctrl
  status : Status
  /-- CMD: the last accepted word (10_state.md R38). -/
  cmd : Word
  resHash : Word
  resHome : Word
  resIdx : Word
  resCount : Word
  resInfo : Word
  topkNum : Word
  topkIdx : Vector Word 16
  topkCnt : Vector Word 16
  keybuf : Vector Word 32
  bktkey : Vector Word 32
  table : Memory
  /-- The pending command latch, empty or full (10_state.md R53). -/
  pending : Option Pending
  /-- The host agent. -/
  host : HostAgent
  /-- The moves of the coming steps, first to come first, where the environment has fixed them; when it is empty,
  the enabled agent moves, and between two enabled agents the free value of `tick` says when the sequencer does. -/
  sched : List Move
  /-- The number of steps of the sequencer whose place the free value has chosen, the argument of
  `Config.hostMovesBefore`. -/
  tick : Nat
  /-- The number of moves the host has made since then with a step of the sequencer open. -/
  waited : Nat
deriving DecidableEq, Repr

/-- The CORE has no fault: an error completion "is a defined outcome and not a fault: the CORE moves to a next
state with ERR = 1" (60_exceptions.md R207), and a table access "cannot be misaligned and cannot fault"
(20_memory.md R66). Closed and without a constructor, which is safe: nothing stops with one. -/
inductive Fault where
deriving DecidableEq, Repr

/-- The reasons a step is given no meaning: host programs and instances outside the contract
(60_exceptions.md R207). Each is safe, since nothing can be proved about what comes after. -/
inductive Refusal where
  /-- Raised by an arm of exec for a command without a meaning; no arm does. Safe. -/
  | notModelled (mnemonic : String)
  /-- Raised by a host access whose width is not 32 bits (20_memory.md R62). Safe. -/
  | accessWidth (width : Nat)
  /-- Raised by a host access at an offset that is not word-aligned (20_memory.md R62). Safe. -/
  | misalignedOffset (offset : Nat)
  /-- Raised by a host access at or beyond offset 0x1000 (20_memory.md R62). Safe. -/
  | outsideWindow (offset : Nat)
  /-- Raised by a CMD statement whose operand does not fit in 24 bits (30_encoding.md R94). Safe. -/
  | operandDoesNotFit (operand : Nat)
  /-- Raised by every step of an instance with a parameter outside its range (92_eei_decisions.md D45). Safe. -/
  | parameterOutOfRange
  /-- Raised by every step while a second host drives the CORE (60_exceptions.md R204). Safe. -/
  | secondHost
deriving DecidableEq, Repr

/-- STATUS after the reset sweep, 0x00000000 (10_state.md R57). -/
def Status.reset : Status :=
  { busy := false, done := false, err := false, errs := false, ovr := false, cntOvf := false, init := false
    errCode := 0 }

/-- CTRL after reset (10_state.md R57). -/
def Ctrl.reset : Ctrl := { ie := false, cntSat := false }

/-- A host with no program: it makes no access (notes/assumptions/7.md). -/
def HostAgent.none : HostAgent := { program := [], pc := 0, vars := [] }

/-- The state right after reset: the post-sweep state of 10_state.md R57, where every run starts
(70_reset_and_hazards.md R214), with the default parameters of 00_scope.md R6. -/
def State.reset : State :=
  { params := defaultParams, secondHost := false
    ctrl := Ctrl.reset, status := Status.reset, cmd := 0
    resHash := 0, resHome := 0, resIdx := 0, resCount := 0, resInfo := 0
    topkNum := 0, topkIdx := Vector.replicate 16 0, topkCnt := Vector.replicate 16 0
    keybuf := Vector.replicate 32 0, bktkey := Vector.replicate 32 0
    table := [], pending := Option.none
    host := HostAgent.none, sched := [], tick := 0, waited := 0 }

end Sys2Proof.Machine
end

