-- ==== Sys2Proof/Machine/Flags.lean ====
section
/-! DEFINITION. CTRL, STATUS and RES_INFO as words, every update of STATUS (10_state.md R25 to R37, R43, R55), the
error codes (60_exceptions.md R180) and the interrupt output (R195). -/

namespace Sys2Proof.Machine

/-- Code of an error in STATUS.ERR_CODE (60_exceptions.md R180). -/
def errorCode : CmdError → Byte
  | .keyTooLong => 0x01
  | .insertionExhausted => 0x02
  | .illegalCommand => 0x03
  | .badIndex => 0x04
  | .emptyKey => 0x05

/-- STATUS as the host reads it: ERR_CODE in 15:8, INIT 6, CNT_OVF 5, OVR 4, ERRS 3, ERR 2, DONE 1, BUSY 0;
bits 31:16 and 7 read 0 (10_state.md R29). -/
def Status.word (f : Status) : Word :=
  0#16 ++ f.errCode ++ 0#1 ++ BitVec.ofBool f.init ++ BitVec.ofBool f.cntOvf ++ BitVec.ofBool f.ovr ++
    BitVec.ofBool f.errs ++ BitVec.ofBool f.err ++ BitVec.ofBool f.done ++ BitVec.ofBool f.busy

/-- CTRL as the host reads it: CNT_SAT 1, IE 0; bits 31:2 read 0 (10_state.md R25, R28). -/
def Ctrl.word (c : Ctrl) : Word := 0#30 ++ BitVec.ofBool c.cntSat ++ BitVec.ofBool c.ie

/-- CTRL as a host write of `v` leaves it; SRST is not stored and reserved bits are ignored (10_state.md R25). -/
def Ctrl.ofWord (v : Word) : Ctrl := { ie := v.getLsbD 0, cntSat := v.getLsbD 1 }

/-- "command accepted" of 10_state.md R55: BUSY 1, DONE 0, ERR 0, ERR_CODE 0. -/
def Status.accepted (f : Status) : Status := { f with busy := true, done := false, err := false, errCode := 0 }

/-- "write dropped while BUSY" of 10_state.md R55: OVR 1. -/
def Status.dropped (f : Status) : Status := { f with ovr := true }

/-- "successful completion" of 10_state.md R55: BUSY 0, DONE 1, and CNT_OVF 1 if an increment hit 0xFFFFFFFF. -/
def Status.completed (f : Status) (overflow : Bool) : Status :=
  { f with busy := false, done := true, cntOvf := f.cntOvf || overflow }

/-- "error completion" of 10_state.md R55: BUSY 0, DONE 1, ERR 1, ERRS 1, ERR_CODE the error's code. -/
def Status.failed (f : Status) (e : CmdError) : Status :=
  { f with busy := false, done := true, err := true, errs := true, errCode := errorCode e }

/-- A host write of `v` to STATUS: writing 1 clears DONE (bit 1), ERRS (3), OVR (4), CNT_OVF (5); every other field is
read-only or reserved (10_state.md R29). -/
def Status.writeOneToClear (f : Status) (v : Word) : Status :=
  { f with
    done := f.done && !v.getLsbD 1
    errs := f.errs && !v.getLsbD 3
    ovr := f.ovr && !v.getLsbD 4
    cntOvf := f.cntOvf && !v.getLsbD 5 }

/-- STATUS at the start of the reset sweep, 0x00000041 (70_reset_and_hazards.md R210). -/
def Status.sweeping : Status := { Status.reset with busy := true, init := true }

/-- STATUS after the sweep-end step: INIT and BUSY become 0, nothing else changes (70_reset_and_hazards.md R211). -/
def Status.sweepEnded (f : Status) : Status := { f with busy := false, init := false }

/-- Whether an increment of count `c` sets CNT_OVF, in either mode (10_state.md R36, 42_counter.md R141). -/
def countOverflows (c : Word) : Bool := c == 0xFFFFFFFF

/-- RES_INFO: LEN in 23:16, MATCHED 9, CLAIMED 8, PROBES 6:0; the other bits read 0 (10_state.md R43). -/
def resInfoWord (len : Nat) (matched claimed : Bool) (probes : Nat) : Word :=
  0#8 ++ BitVec.ofNat 8 len ++ 0#6 ++ BitVec.ofBool matched ++ BitVec.ofBool claimed ++ 0#1 ++ BitVec.ofNat 7 probes

/-- The interrupt output, `CTRL.IE AND STATUS.DONE` at all times (60_exceptions.md R195). -/
def irq (s : State) : Bool := s.ctrl.ie && s.status.done

end Sys2Proof.Machine
end

