-- ==== Sys2Proof/Machine/Ops.lean ====
section
/-! DEFINITION. The shared operations: the table's MemRead and MemWrite (20_memory.md R66), acceptance, completion and
`raise` (10_state.md R33, R38, 60_exceptions.md R185), dropped writes (R35), reset and the end of its sweep
(70_reset_and_hazards.md R210, R211), and host variables. There is no return from an error: the host acknowledges one by
a W1C write of STATUS (60_exceptions.md R191), which is `Status.writeOneToClear`. -/

namespace Sys2Proof.Machine

/-- `MemRead(b)` (20_memory.md R66). -/
def Memory.read : Memory → Nat → Bucket
  | [], _ => Bucket.empty
  | (a, v) :: m, b => if a = b then v else Memory.read m b

/-- `MemWrite(b, ...)`, all fields of bucket `b` given (20_memory.md R66). Keeps the canonical form: writing the
empty bucket removes the entry. -/
def Memory.write : Memory → Nat → Bucket → Memory
  | [], b, v => if v = Bucket.empty then [] else [(b, v)]
  | (a, u) :: m, b, v =>
    if b < a then (if v = Bucket.empty then (a, u) :: m else (b, v) :: (a, u) :: m)
    else if b = a then (if v = Bucket.empty then m else (b, v) :: m)
    else (a, u) :: Memory.write m b v

/-- The canonical form of the table: indices strictly rising, no entry equal to the empty bucket. -/
def Memory.wf : Memory → Bool
  | [] => true
  | (a, v) :: m => decide (v ≠ Bucket.empty) && m.all (fun c => decide (a < c.1)) && Memory.wf m

/-- Byte `j` of a bucket's key, 0 outside the field (10_state.md R44). -/
def Bucket.byteAt (b : Bucket) (j : Nat) : Byte := b.key[j]?.getD 0

/-- The stored key of a bucket, its bytes `0 .. length-1` (10_state.md R44). -/
def Bucket.storedKey (b : Bucket) : List Byte := (List.range b.length).map b.byteAt

/-- Occupied: `length != 0` (00_scope.md R17). -/
def Bucket.occupied (b : Bucket) : Bool := b.length != 0

/-- The counter mode sampled for the command being performed (10_state.md R27, R53). With an empty latch, which no step
that performs a command has, the current CTRL.CNT_SAT (notes/assumptions/11.md). -/
def sampledSat (s : State) : Bool :=
  match s.pending with
  | some p => p.sat
  | none => s.ctrl.cntSat

/-- Acceptance of word `w` (10_state.md R38). -/
def accept (w : Word) (s : State) : State :=
  { s with cmd := w, pending := some { word := w, sat := s.ctrl.cntSat }, status := s.status.accepted }

/-- A host write dropped because BUSY = 1 (10_state.md R35). -/
def dropWrite (s : State) : State := { s with status := s.status.dropped }

/-- `complete`: the end of a command that succeeded (10_state.md R33); the latch empties (R53). -/
def complete (overflow : Bool) (s : State) : State :=
  { s with status := s.status.completed overflow, pending := none }

/-- `raise e`: the end of a command in error, the one operation every error takes (60_exceptions.md R185, R186). Only
STATUS and the latch change; nothing is saved and no handler exists. -/
def raise (e : CmdError) (s : State) : State := { s with status := s.status.failed e, pending := none }

/-- Reset by the reset input or by CTRL.SRST: the latch empties, registers take their reset values, STATUS becomes
0x00000041 and the sweep starts (70_reset_and_hazards.md R210). The table's old contents stay in the state until the
sweep-end step and no command can see them (R211, notes/assumptions/6.md). -/
def enterReset (s : State) : State :=
  { s with
    ctrl := Ctrl.reset, status := Status.sweeping, cmd := 0
    resHash := 0, resHome := 0, resIdx := 0, resCount := 0, resInfo := 0
    topkNum := 0, topkIdx := Vector.replicate 16 0, topkCnt := Vector.replicate 16 0
    keybuf := Vector.replicate 32 0, bktkey := Vector.replicate 32 0
    pending := none }

/-- The sweep-end step: every field of every bucket is zero, KEYBUF and BKTKEY are zero, INIT and BUSY become 0
(70_reset_and_hazards.md R211). -/
def endSweep (s : State) : State :=
  { s with
    table := [], keybuf := Vector.replicate 32 0, bktkey := Vector.replicate 32 0
    status := s.status.sweepEnded }

/-- The value of host variable `x`; a free value before it is assigned (30_encoding.md R95, notes/assumptions/10.md). -/
def readVar : List (Nat × Word) → Nat → Word
  | [], x => Config.unsetHostVariable x
  | (y, v) :: vs, x => if y = x then v else readVar vs x

/-- The variables after `x <- v`, kept in rising order (30_encoding.md R95). -/
def assignVar : List (Nat × Word) → Nat → Word → List (Nat × Word)
  | [], x, v => [(x, v)]
  | (y, u) :: vs, x, v =>
    if x < y then (x, v) :: (y, u) :: vs
    else if x = y then (x, v) :: vs
    else (y, u) :: assignVar vs x v

end Sys2Proof.Machine
end

