-- ==== Sys2Proof/Machine/HostPort.lean ====
section
/-! DEFINITION. The host port: the register map (10_state.md R23), HostRead and HostWrite (20_memory.md R61), and the
accesses outside its contract (R62). -/

namespace Sys2Proof.Machine

/-- The register at a word-aligned offset of the window (10_state.md R23). -/
def regAt (off : Nat) : Reg :=
  if off = 0x000 then .id
  else if off = 0x004 then .ctrl
  else if off = 0x008 then .status
  else if off = 0x00C then .cmd
  else if off = 0x010 then .resHash
  else if off = 0x014 then .resHome
  else if off = 0x018 then .resIdx
  else if off = 0x01C then .resCount
  else if off = 0x020 then .resInfo
  else if off = 0x024 then .topkNum
  else if off = 0x028 then .paramCap
  else if off = 0x02C then .paramMisc
  else if 0x040 ≤ off ∧ off < 0x080 then .topkIdx ((off - 0x040) / 4)
  else if 0x080 ≤ off ∧ off < 0x0C0 then .topkCnt ((off - 0x080) / 4)
  else if 0x100 ≤ off ∧ off < 0x180 then .keybuf ((off - 0x100) / 4)
  else if 0x180 ≤ off ∧ off < 0x200 then .bktkey ((off - 0x180) / 4)
  else .reserved off

/-- The offset of a register (10_state.md R23). -/
def regOffset : Reg → Nat
  | .id => 0x000
  | .ctrl => 0x004
  | .status => 0x008
  | .cmd => 0x00C
  | .resHash => 0x010
  | .resHome => 0x014
  | .resIdx => 0x018
  | .resCount => 0x01C
  | .resInfo => 0x020
  | .topkNum => 0x024
  | .paramCap => 0x028
  | .paramMisc => 0x02C
  | .topkIdx j => 0x040 + 4 * j
  | .topkCnt j => 0x080 + 4 * j
  | .keybuf w => 0x100 + 4 * w
  | .bktkey w => 0x180 + 4 * w
  | .reserved off => off

/-- PARAM_MISC: `{8'h00, K, PROBE_LIMIT, MAX_KEY_LEN}` (10_state.md R51). -/
def paramMiscWord (p : Params) : Word :=
  0#8 ++ BitVec.ofNat 8 p.k ++ BitVec.ofNat 8 p.probeLimit ++ BitVec.ofNat 8 p.maxKeyLen

/-- The value a read of a register returns (10_state.md R24 to R52). No read has a side effect (20_memory.md R72). -/
def readReg (s : State) : Reg → Word
  | .id => 0x48430001
  | .ctrl => s.ctrl.word
  | .status => s.status.word
  | .cmd => s.cmd
  | .resHash => s.resHash
  | .resHome => s.resHome
  | .resIdx => s.resIdx
  | .resCount => s.resCount
  | .resInfo => s.resInfo
  | .topkNum => s.topkNum
  | .paramCap => BitVec.ofNat 32 s.params.capacity
  | .paramMisc => paramMiscWord s.params
  | .topkIdx j => if j < s.params.k then wordAt s.topkIdx j else 0
  | .topkCnt j => if j < s.params.k then wordAt s.topkCnt j else 0
  | .keybuf w => wordAt s.keybuf w
  | .bktkey w => wordAt s.bktkey w
  | .reserved _ => 0

/-- A write of CTRL: SRST resets and the other bits of the write are discarded; else IE and CNT_SAT take effect, BUSY or
not (10_state.md R25, R28, 70_reset_and_hazards.md R223). -/
def writeCtrl (v : Word) (s : State) : State :=
  if v.getLsbD 31 then enterReset s else { s with ctrl := Ctrl.ofWord v }

/-- A write of CMD: accepted, or dropped while BUSY (10_state.md R38). -/
def writeCmd (v : Word) (s : State) : State := if s.status.busy then dropWrite s else accept v s

/-- A write of KEYBUF word `w`: stored, or dropped while BUSY (10_state.md R49, 70_reset_and_hazards.md R222). -/
def writeKeybuf (w : Nat) (v : Word) (s : State) : State :=
  if s.status.busy then dropWrite s else { s with keybuf := s.keybuf.setIfInBounds w v }

/-- A write of STATUS: W1C fields (10_state.md R29). -/
def writeStatus (v : Word) (s : State) : State := { s with status := s.status.writeOneToClear v }

/-- What a write of a register does; writes to read-only registers and reserved offsets have no effect
(20_memory.md R63, R72). -/
def writeReg (r : Reg) (v : Word) (s : State) : State :=
  match r with
  | .ctrl => writeCtrl v s
  | .status => writeStatus v s
  | .cmd => writeCmd v s
  | .keybuf w => writeKeybuf w v s
  | .id => s
  | .resHash => s
  | .resHome => s
  | .resIdx => s
  | .resCount => s
  | .resInfo => s
  | .topkNum => s
  | .paramCap => s
  | .paramMisc => s
  | .topkIdx _ => s
  | .topkCnt _ => s
  | .bktkey _ => s
  | .reserved _ => s

/-- `HostRead(off)` (20_memory.md R61). -/
def hostRead (off : Nat) (s : State) : Word := readReg s (regAt off)

/-- `HostWrite(off, v)` (20_memory.md R61). -/
def hostWrite (off : Nat) (v : Word) (s : State) : State := writeReg (regAt off) v s

/-- Why an access is outside the port's contract, if it is (20_memory.md R62). -/
def accessRefusal (a : Access) : Option Refusal :=
  if a.width ≠ 32 then some (.accessWidth a.width)
  else if 0x1000 ≤ a.offset then some (.outsideWindow a.offset)
  else if a.offset % 4 ≠ 0 then some (.misalignedOffset a.offset)
  else none

/-- The 32-bit access of a register by name (30_encoding.md R95). -/
def regAccess (r : Reg) : Access := { offset := regOffset r, width := 32 }

/-- The offset in the window of an address of the host's address space, with the window at HOST_BASE, a platform parameter
given as an argument (20_memory.md R73). No rule and no step depends on it. -/
def busOffset (hostBase addr : Nat) : Option Nat :=
  if hostBase ≤ addr ∧ addr < hostBase + 0x1000 then some (addr - hostBase) else none

end Sys2Proof.Machine
end

