-- ==== Sys2Proof/Machine/HostAgent.lean ====
section
/-! DEFINITION. The host agent: one statement of the host program (30_encoding.md R95, R100). -/

namespace Sys2Proof.Machine

/-- The statement the host is at. -/
def hostStmt (s : State) : Option Stmt := s.host.program[s.host.pc]?

/-- The host makes no further move: it is at HALT (30_encoding.md R95), or past the end of its program
(notes/assumptions/9.md). -/
def hostEnded (s : State) : Bool :=
  match hostStmt s with
  | none => true
  | some .halt => true
  | some _ => false

/-- The host goes on at position `l`. -/
def hostGoto (l : Nat) (s : State) : State := { s with host := { s.host with pc := l } }

/-- The host goes on at the next statement. -/
def hostAdvance (s : State) : State := hostGoto (s.host.pc + 1) s

/-- `x <- v` for a host variable. -/
def hostAssign (x : Nat) (v : Word) (s : State) : State :=
  { s with host := { s.host with vars := assignVar s.host.vars x v } }

/-- An access within the contract, or its refusal (20_memory.md R62). -/
def hostAccess (a : Access) (effect : State) : Host.Outcome State Fault Refusal :=
  match accessRefusal a with
  | some r => .refused r
  | none => .next effect

/-- `CMD m [op]`: HostWrite of the encoded word to CMD; an operand that does not fit has no word and is refused
(30_encoding.md R94, R95). -/
def hostCmd (i : Instr) (s : State) : Host.Outcome State Fault Refusal :=
  if i.wellFormed then .next (hostAdvance (hostWrite 0x00C (encode i) s))
  else .refused (.operandDoesNotFit (operandOf i))

/-- The branch condition of BNZ: `(x AND mask) != 0` (30_encoding.md R95). -/
def hostTest (x : Nat) (mask : Word) (s : State) : Bool := (readVar s.host.vars x &&& mask) != 0

/-- One statement of the host program (30_encoding.md R95). -/
def hostMove (s : State) : Host.Outcome State Fault Refusal :=
  match hostStmt s with
  | none => .next s
  | some .halt => .next s
  | some (.wr a v) => hostAccess a (hostAdvance (hostWrite a.offset v s))
  | some (.rd a x) => hostAccess a (hostAdvance (hostAssign x (hostRead a.offset s) s))
  | some (.cmd i) => hostCmd i s
  | some (.bnz x mask l) => .next (if hostTest x mask s then hostGoto l s else hostAdvance s)
  | some (.bz x mask l) => .next (if hostTest x mask s then hostAdvance s else hostGoto l s)
  | some (.goto l) => .next (hostGoto l s)

end Sys2Proof.Machine
end

