-- ==== Sys2Proof/Machine/Operands.lean ====
section
/-! DEFINITION. The operand forms of the commands (30_encoding.md R87, R88): form K, a key length into KEYBUF; form I, a
bucket index; form N has none. Each with the check the spec makes on it (60_exceptions.md R181, R183, R184). -/

namespace Sys2Proof.Machine

/-- Form K: the key `KEYBUF.byte[0 .. n-1]` (10_state.md R49). -/
def keyOf (s : State) (n : Nat) : List Byte := (List.range n).map (bufByte s.keybuf)

/-- Form K: `n > MAX_KEY_LEN` (60_exceptions.md R181). -/
def keyTooLong (s : State) (n : Nat) : Bool := decide (s.params.maxKeyLen < n)

/-- Form I: `idx < CAPACITY` (60_exceptions.md R183). -/
def indexInTable (s : State) (idx : Nat) : Bool := decide (idx < s.params.capacity)

end Sys2Proof.Machine
end

