-- ==== Sys2Proof/Machine/Hash.lean ====
section
/-! DEFINITION. The hash_mixer unit (40_hash_mixer.md R105 to R117) and the HASH command (R110). -/

namespace Sys2Proof.Machine

/-- `tail(x)`: sign-extended or zero-extended by HASH_TAIL_SIGNED (40_hash_mixer.md R109). -/
def tailWord (p : Params) (x : Byte) : Word := if p.hashTailSigned then sext32 x else zext32 x

/-- One 4-byte group of the hash (40_hash_mixer.md R107). -/
def hashGroup (h : HashShifts) (a : Word) (b0 b1 b2 b3 : Byte) : Word :=
  let a := a + le16 b0 b1
  let t := (le16 b2 b3 <<< h.gT) ^^^ a
  let a := (a <<< h.gM) ^^^ t
  a + (a >>> h.gR)

/-- The 3-byte tail (40_hash_mixer.md R107, case 3). -/
def hashTail3 (p : Params) (a : Word) (x y z : Byte) : Word :=
  let a := a + le16 x y
  let a := a ^^^ (a <<< p.shifts.t3A)
  let a := a ^^^ (tailWord p z <<< p.shifts.t3B)
  a + (a >>> p.shifts.t3C)

/-- The 2-byte tail (40_hash_mixer.md R107, case 2). -/
def hashTail2 (p : Params) (a : Word) (x y : Byte) : Word :=
  let a := a + le16 x y
  let a := a ^^^ (a <<< p.shifts.t2A)
  a + (a >>> p.shifts.t2B)

/-- The 1-byte tail (40_hash_mixer.md R107, case 1). -/
def hashTail1 (p : Params) (a : Word) (x : Byte) : Word :=
  let a := a + tailWord p x
  let a := a ^^^ (a <<< p.shifts.t1A)
  a + (a >>> p.shifts.t1B)

/-- The 4-byte groups in key order, then the tail of `n mod 4` bytes (40_hash_mixer.md R107). -/
def hashBody (p : Params) : Word → List Byte → Word
  | a, b0 :: b1 :: b2 :: b3 :: rest => hashBody p (hashGroup p.shifts a b0 b1 b2 b3) rest
  | a, [x, y, z] => hashTail3 p a x y z
  | a, [x, y] => hashTail2 p a x y
  | a, [x] => hashTail1 p a x
  | a, [] => a

/-- The six-step avalanche (40_hash_mixer.md R107, R117). -/
def avalanche (h : HashShifts) (a : Word) : Word :=
  let a := a ^^^ (a <<< h.v1)
  let a := a + (a >>> h.v2)
  let a := a ^^^ (a <<< h.v3)
  let a := a + (a >>> h.v4)
  let a := a ^^^ (a <<< h.v5)
  a + (a >>> h.v6)

/-- `hash(k, n)`: the accumulator starts at the key's length (40_hash_mixer.md R107). -/
def keyHash (p : Params) (k : List Byte) : Word :=
  avalanche p.shifts (hashBody p (BitVec.ofNat 32 k.length) k)

/-- The home index of a hash, `h mod CAPACITY` (40_hash_mixer.md R111). -/
def homeOf (p : Params) (h : Word) : Nat := h.toNat % p.capacity

/-- **HASH n** (40_hash_mixer.md R110). -/
def execHash (n : Nat) (s : State) : Host.Outcome State Fault Refusal :=
  if keyTooLong s n then .next (raise .keyTooLong s)
  else
    let h := keyHash s.params (keyOf s n)
    .next (complete false { s with resHash := h, resHome := indexWord (homeOf s.params h) })

end Sys2Proof.Machine
end

