-- ==== Sys2Proof/Machine/Lookup.lean ====
section
/-! DEFINITION. The hash_table_lookup unit: findOrInsert (41_table_lookup.md R120 to R126) and the FIND command (R127). -/

namespace Sys2Proof.Machine

/-- `offset(i)`: `+1` for even `i`, `-1` for odd, times `floor(i/2)^2` (41_table_lookup.md R121). -/
def probeOffset (i : Nat) : Int := (if i % 2 = 0 then 1 else -1) * (((i / 2) * (i / 2) : Nat) : Int)

/-- `probe(home, i)`, with the Euclidean `mod` (41_table_lookup.md R122, 00_scope.md R11). -/
def probe (p : Params) (home i : Nat) : Nat := (((home : Int) + probeOffset i) % (p.capacity : Int)).toNat

/-- The bucket holds the key: same length and the same bytes (00_scope.md R14, 41_table_lookup.md R124). -/
def holdsKey (b : Bucket) (k : List Byte) : Bool := b.length == k.length && b.storedKey == k

/-- The probe stops at attempt `i`: its bucket is empty or holds the key (41_table_lookup.md R126). -/
def stopsAt (p : Params) (m : Memory) (k : List Byte) (home i : Nat) : Bool :=
  let b := m.read (probe p home i)
  b.length == 0 || holdsKey b k

/-- The bucket after the claim of it for `k`: key bytes `0 .. n-1`, length `n`, count 0; the other key bytes are not
written (41_table_lookup.md R123). -/
def claimed (b : Bucket) (k : List Byte) : Bucket :=
  { key := Vector.ofFn fun j => k[j.val]?.getD (b.byteAt j.val), length := k.length, count := 0 }

/-- What findOrInsert returns, `(h, home, b, i, claimed)`, and the table it leaves (41_table_lookup.md R126). -/
structure Found where
  hash : Word
  home : Nat
  bucket : Nat
  attempt : Nat
  claimed : Bool
  table : Memory
deriving DecidableEq, Repr

/-- The first attempt of at most PROBE_LIMIT at which the probe stops (41_table_lookup.md R121, R126). -/
def firstStop (p : Params) (m : Memory) (k : List Byte) (home : Nat) : Option Nat :=
  (List.range p.probeLimit).find? (stopsAt p m k home)

/-- `FOI(n)` on the key `k` after the length checks (41_table_lookup.md R126). -/
def findOrInsertKey (p : Params) (m : Memory) (k : List Byte) : Except CmdError Found :=
  let h := keyHash p k
  let home := homeOf p h
  match firstStop p m k home with
  | none => .error .insertionExhausted
  | some i =>
    let b := probe p home i
    if (m.read b).length = 0 then
      .ok { hash := h, home := home, bucket := b, attempt := i, claimed := true
            table := m.write b (claimed (m.read b) k) }
    else .ok { hash := h, home := home, bucket := b, attempt := i, claimed := false, table := m }

/-- `FOI(n)`: the length checks come before any hash or table access (41_table_lookup.md R120, R126). -/
def findOrInsert (s : State) (n : Nat) : Except CmdError Found :=
  if keyTooLong s n then .error .keyTooLong
  else if n = 0 then .error .emptyKey
  else findOrInsertKey s.params s.table (keyOf s n)

/-- **FIND n** (41_table_lookup.md R127). -/
def execFind (n : Nat) (s : State) : Host.Outcome State Fault Refusal :=
  match findOrInsert s n with
  | .error e => .next (raise e s)
  | .ok f =>
    .next (complete false
      { s with
        table := f.table
        resHash := f.hash
        resHome := indexWord f.home
        resIdx := indexWord f.bucket
        resCount := (f.table.read f.bucket).count
        resInfo := resInfoWord n (!f.claimed) f.claimed (f.attempt + 1) })

end Sys2Proof.Machine
end

