-- ==== Sys2Proof/Machine/Counter.lean ====
section
/-! DEFINITION. The counter_increment unit (42_counter.md R140 to R142) and the commands INCR (R143) and COUNT (R144). -/

namespace Sys2Proof.Machine

/-- `inc(c, sat)` without its flag, which is `countOverflows c` (42_counter.md R141). -/
def incCount (c : Word) (sat : Bool) : Word :=
  if countOverflows c then (if sat then 0xFFFFFFFF else 0x00000000) else c + 1

/-- The table after the increment of bucket `b`: only its count changes (42_counter.md R140). -/
def incBucket (m : Memory) (b : Nat) (sat : Bool) : Memory :=
  m.write b { m.read b with count := incCount (m.read b).count sat }

/-- **INCR idx** (42_counter.md R143): the index check comes first (60_exceptions.md R183). -/
def execIncr (idx : Nat) (s : State) : Host.Outcome State Fault Refusal :=
  if indexInTable s idx then
    let b := s.table.read idx
    if b.length = 0 then .next (raise .badIndex s)
    else
      .next (complete (countOverflows b.count)
        { s with
          table := incBucket s.table idx (sampledSat s)
          resIdx := indexWord idx
          resCount := incCount b.count (sampledSat s)
          resInfo := resInfoWord b.length false false 0 })
  else .next (raise .badIndex s)

/-- **COUNT n** (42_counter.md R144): findOrInsert and the increment take effect together. -/
def execCount (n : Nat) (s : State) : Host.Outcome State Fault Refusal :=
  match findOrInsert s n with
  | .error e => .next (raise e s)
  | .ok f =>
    let c := (f.table.read f.bucket).count
    .next (complete (countOverflows c)
      { s with
        table := incBucket f.table f.bucket (sampledSat s)
        resHash := f.hash
        resHome := indexWord f.home
        resIdx := indexWord f.bucket
        resCount := incCount c (sampledSat s)
        resInfo := resInfoWord n (!f.claimed) f.claimed (f.attempt + 1) })

end Sys2Proof.Machine
end

