-- ==== Sys2Proof/Machine/Interface.lean ====
section
/-! DEFINITION. The interface commands NOP and RDBKT (44_interface.md R170, R171). -/

namespace Sys2Proof.Machine

/-- **NOP**: complete without effect (44_interface.md R170). -/
def execNop (s : State) : Host.Outcome State Fault Refusal := .next (complete false s)

/-- **RDBKT idx** (44_interface.md R171): bytes of BKTKEY at and beyond MAX_KEY_LEN become 0. An empty bucket is no
error. -/
def execRdbkt (idx : Nat) (s : State) : Host.Outcome State Fault Refusal :=
  if indexInTable s idx then
    let b := s.table.read idx
    .next (complete false
      { s with
        bktkey := packBytes fun j => if j < s.params.maxKeyLen then b.byteAt j else 0
        resIdx := indexWord idx
        resCount := b.count
        resInfo := resInfoWord b.length false false 0 })
  else .next (raise .badIndex s)

end Sys2Proof.Machine
end

