-- ==== Sys2Proof/Machine/TopK.lean ====
section
/-! DEFINITION. The topk_scanner unit (43_topk.md R156, R157) and the TOPK command (R155). -/

namespace Sys2Proof.Machine

/-- A filled result slot: the bucket's index and its count, which does not change during the scan (43_topk.md R156). -/
structure Slot where
  bucket : Nat
  count : Word
deriving DecidableEq, Repr

/-- Insertion at the first slot that is EMPTY or holds a strictly smaller count; the slots from there on move down by
one and the last is discarded; with no such slot the bucket is discarded (43_topk.md R156, R157). -/
def insertSlot (b : Slot) : List (Option Slot) → List (Option Slot)
  | [] => []
  | none :: rest => some b :: (none :: rest).dropLast
  | some e :: rest =>
    if e.count < b.count then some b :: (some e :: rest).dropLast else some e :: insertSlot b rest

/-- One step of the scan: an empty bucket changes nothing (43_topk.md R156). -/
def scanStep (m : Memory) (slots : List (Option Slot)) (b : Nat) : List (Option Slot) :=
  let bucket := m.read b
  if bucket.length = 0 then slots else insertSlot { bucket := b, count := bucket.count } slots

/-- `scan()` as 43_topk.md R156 writes it, over every bucket in index order. TOPK runs `scan` below, which visits only
the listed buckets: an obligation states that the two agree on every well-formed table. -/
def scanAllBuckets (p : Params) (m : Memory) : List (Option Slot) :=
  (List.range p.capacity).foldl (scanStep m) (List.replicate p.k none)

/-- `scan()` of 43_topk.md R156 over the listed buckets of the table, in index order: a bucket that is not listed is
empty and changes no slot. -/
def scan (p : Params) (m : Memory) : List (Option Slot) :=
  ((m.map Prod.fst).filter fun b => decide (b < p.capacity)).foldl (scanStep m) (List.replicate p.k none)

/-- The filled slots `S[0 .. m-1]` (43_topk.md R155). -/
def filledSlots (slots : List (Option Slot)) : List Slot := slots.filterMap id

/-- TOPK_IDX of a filled slot: VALID in bit 31, the index in bits 23:0 (10_state.md R48). -/
def topkIdxWord (e : Slot) : Word := 1#1 ++ 0#7 ++ BitVec.ofNat 24 e.bucket

/-- One of the two slot register files as TOPK writes it: `f` of the filled slots, 0 in the others of the K slots; the
registers from K on are reserved and keep their value (43_topk.md R155, 10_state.md R48). -/
def publish (k : Nat) (r : List Slot) (f : Slot → Word) (old : Vector Word 16) : Vector Word 16 :=
  Vector.ofFn fun j =>
    match r[j.val]? with
    | some e => f e
    | none => if j.val < k then 0 else old[j.val]

/-- **TOPK** (43_topk.md R155). -/
def execTopk (s : State) : Host.Outcome State Fault Refusal :=
  let r := filledSlots (scan s.params s.table)
  .next (complete false
    { s with
      topkNum := indexWord r.length
      topkIdx := publish s.params.k r topkIdxWord s.topkIdx
      topkCnt := publish s.params.k r Slot.count s.topkCnt })

end Sys2Proof.Machine
end

