-- ==== Sys2Proof/Machine/Dispatch.lean ====
section
/-! DEFINITION. The meaning of each command: what its completion step does (20_memory.md R71). -/

namespace Sys2Proof.Machine

def exec (i : Instr) (s : State) : Host.Outcome State Fault Refusal :=
  match i with
  | .nop => Sys2Proof.Machine.execNop s
  | .hash n => Sys2Proof.Machine.execHash n s
  | .find n => Sys2Proof.Machine.execFind n s
  | .incr idx => Sys2Proof.Machine.execIncr idx s
  | .count n => Sys2Proof.Machine.execCount n s
  | .topk => Sys2Proof.Machine.execTopk s
  | .rdbkt idx => Sys2Proof.Machine.execRdbkt idx s

end Sys2Proof.Machine
end

