-- ==== Sys2Proof/Machine/Sequencer.lean ====
section
/-! DEFINITION. The CORE sequencer's step: the completion step of the pending command (20_memory.md R71) or the end of the
reset sweep (70_reset_and_hazards.md R211). -/

namespace Sys2Proof.Machine

/-- The sequencer has a step to take: a command is pending or the sweep is in progress (10_state.md R30). -/
def coreReady (s : State) : Bool := s.status.init || s.pending.isSome

/-- Completion of the word in the latch: decode it, then perform it (30_encoding.md R90); an illegal word raises
IllegalCommand and does nothing else (60_exceptions.md R182). -/
def performWord (w : Word) (s : State) : Host.Outcome State Fault Refusal :=
  match decode w with
  | .legal i => exec i s
  | .illegal _ => .next (raise .illegalCommand s)

/-- The sequencer's step; with nothing to do the CORE is idle and keeps its state (60_exceptions.md R206). -/
def coreMove (s : State) : Host.Outcome State Fault Refusal :=
  if s.status.init then .next (endSweep s)
  else
    match s.pending with
    | none => .next s
    | some p => performWord p.word s

end Sys2Proof.Machine
end

