-- ==== Sys2Proof/Machine/Schedule.lean ====
section
/-! DEFINITION. Whose move comes next: the spec fixes no order between a host access and a pending completion or sweep end
(20_memory.md R75, 70_reset_and_hazards.md R229; notes/assumptions/3.md). -/

namespace Sys2Proof.Machine

/-- The state with the environment's next scheduled move taken off. -/
def dropMove (s : State) : State := { s with sched := s.sched.tail }

/-- The state after the free value has let the sequencer move. -/
def nextTick (s : State) : State := { s with tick := s.tick + 1, waited := 0 }

/-- The state after the free value has let the host move before the sequencer. -/
def hostFirst (s : State) : State := { s with waited := s.waited + 1 }

/-- A move of the given agent. -/
def moveOf (m : Move) (s : State) : Host.Outcome State Fault Refusal :=
  match m with
  | .host => hostMove s
  | .core => coreMove s
  | .reset => .next (enterReset s)

/-- The move when the environment has fixed none: the agent that has one; between two that have one, the sequencer after as
many moves of the host as the free value says, a finite number, so that its step eventually comes (20_memory.md R75,
70_reset_and_hazards.md R229); with none, the run is over and the CORE stays idle (70_reset_and_hazards.md R231,
60_exceptions.md R206). -/
def freeMove (s : State) : Host.Outcome State Fault Refusal :=
  match coreReady s, hostEnded s with
  | true, true => coreMove s
  | true, false =>
    if s.waited < Config.hostMovesBefore s.tick then hostMove (hostFirst s) else coreMove (nextTick s)
  | false, _ => hostMove s

end Sys2Proof.Machine
end

