-- ==== Sys2Proof/Machine/Step.lean ====
section
/-! DEFINITION. One step of the machine: one event of the total order of 20_memory.md R75. -/

namespace Sys2Proof.Machine

/-- One step. An instance outside 00_scope.md R6 is refused (92_eei_decisions.md D45), and so are two hosts
(60_exceptions.md R204). -/
def step (s : State) : Host.Outcome State Fault Refusal :=
  if !paramsLegal s.params then .refused .parameterOutOfRange
  else if s.secondHost then .refused .secondHost
  else
    match s.sched with
    | [] => freeMove s
    | m :: _ => moveOf m (dropMove s)

/-- `s` with the command word of the table loaded where the sequencer takes its next command from: the pending command
latch, filled by acceptance (10_state.md R38, R53; notes/assumptions/7.md). The sweep, which would come first, is over, and
the next move is the sequencer's. -/
def State.withFetchWord (s : State) (nbits w : Nat) : State :=
  let t := accept (tableWord nbits w) s
  { t with status := { t.status with init := false }, sched := if hostEnded s then [] else [.core] }

end Sys2Proof.Machine
end

