-- ==== Sys2Proof/Machine/Assembler.lean ====
section
/-! DEFINITION. The assembler and disassembler of command words (30_encoding.md R94, R102) and the assembler of host
programs with labels and pseudo-statements (R95 to R99). -/

namespace Sys2Proof.Machine

/-- The mnemonic of a command (30_encoding.md R94). -/
def mnemonicOf (i : Instr) : String := (opcodeRow i).mnemonic

/-- The operand a command is written with; NOP and TOPK have none (30_encoding.md R94). -/
def writtenOperand : Instr → Option Nat
  | .nop => none
  | .hash n => some n
  | .find n => some n
  | .incr idx => some idx
  | .count n => some n
  | .topk => none
  | .rdbkt idx => some idx

/-- The command a mnemonic and an operand spell; an operand given to NOP or TOPK, or none to another, spells nothing
(30_encoding.md R94). -/
def commandOf (m : String) : Option Nat → Option Instr
  | none => if m = "NOP" then some .nop else if m = "TOPK" then some .topk else none
  | some x =>
    if m = "HASH" then some (.hash x)
    else if m = "FIND" then some (.find x)
    else if m = "INCR" then some (.incr x)
    else if m = "COUNT" then some (.count x)
    else if m = "RDBKT" then some (.rdbkt x)
    else none

/-- The word of a mnemonic and an operand; refuses an operand that does not fit in 24 bits (30_encoding.md R94). -/
def assembleCommand (m : String) (op : Option Nat) : Option Word :=
  match commandOf m op with
  | none => none
  | some i => if i.wellFormed then some (encode i) else none

/-- The character of a decimal or upper-case hexadecimal digit. -/
def digitChar (d : Nat) : Char := if d < 10 then Char.ofNat (48 + d) else Char.ofNat (55 + d)

/-- The value of a digit in a base of at most 16, lower case allowed. -/
def digitValue (base : Nat) (c : Char) : Option Nat :=
  let n := c.toNat
  let d :=
    if 48 ≤ n ∧ n ≤ 57 then n - 48
    else if 65 ≤ n ∧ n ≤ 70 then n - 55
    else if 97 ≤ n ∧ n ≤ 102 then n - 87
    else base
  if d < base then some d else none

/-- Decimal digits of `n`, at most `fuel + 1` of them (30_encoding.md R102). -/
def decimalDigits : Nat → Nat → List Char
  | 0, n => [digitChar (n % 10)]
  | fuel + 1, n => if n < 10 then [digitChar n] else decimalDigits fuel (n / 10) ++ [digitChar (n % 10)]

/-- The value of a digit string after `acc`. -/
def digitsValue (base : Nat) : Nat → List Char → Option Nat
  | acc, [] => some acc
  | acc, c :: cs =>
    match digitValue base c with
    | none => none
    | some d => digitsValue base (acc * base + d) cs

/-- An operand: a decimal or `0x` hexadecimal number (30_encoding.md R94). -/
def parseOperand : List Char → Option Nat
  | [] => none
  | '0' :: 'x' :: c :: cs => digitsValue 16 0 (c :: cs)
  | c :: cs => digitsValue 10 0 (c :: cs)

/-- The text of a command, its operand in decimal (30_encoding.md R94, R102). -/
def commandText (i : Instr) : String :=
  match writtenOperand i with
  | none => mnemonicOf i
  | some x => mnemonicOf i ++ " " ++ String.ofList (decimalDigits 7 x)

/-- `0xXXXXXXXX`. -/
def hexText (w : Word) : String :=
  "0x" ++ String.ofList ([7, 6, 5, 4, 3, 2, 1, 0].map fun k => digitChar (w.extractLsb' (4 * k) 4).toNat)

/-- The disassembler (30_encoding.md R102). -/
def disassemble (w : Word) : String :=
  match decode w with
  | .legal i => commandText i
  | .illegal _ => ".word " ++ hexText w ++ " ; illegal"

/-- The assembler of one command's text: a mnemonic, then a space and the operand where there is one
(30_encoding.md R94). -/
def assembleText (text : String) : Option Word :=
  let m := String.ofList (text.toList.takeWhile (· != ' '))
  match text.toList.dropWhile (· != ' ') with
  | [] => assembleCommand m none
  | _ :: rest =>
    match parseOperand rest with
    | none => none
    | some x => assembleCommand m (some x)

/-- A statement of a host program as it is written, pseudo-statements among them (30_encoding.md R95 to R99). Host variables
are numbered; TOKEN and HASHS name the variable their POLL reads into. -/
inductive SrcStmt where
  | wr (r : Reg) (v : Word)
  | rd (r : Reg) (x : Nat)
  | cmd (mnemonic : String) (op : Option Nat)
  | bnz (x : Nat) (mask : Word) (label : String)
  | bz (x : Nat) (mask : Word) (label : String)
  | goto (label : String)
  | halt
  | key (bytes : List Byte)
  | poll (x : Nat)
  | token (bytes : List Byte) (x : Nat)
  | hashs (bytes : List Byte) (x : Nat)
  | check (x : Nat) (label : String)
deriving DecidableEq, Repr

/-- A line `[label:] statement` (30_encoding.md R95). -/
structure SrcLine where
  label : Option String
  stmt : SrcStmt
deriving DecidableEq, Repr

/-- The bytes of an ASCII string. -/
def bytesOf (s : String) : List Byte := s.toList.map fun c => BitVec.ofNat 8 c.toNat

/-- `KEY bytes`: `ceil(m/4)` writes, positions at and beyond `m` as 0x00 (30_encoding.md R96). -/
def keyStmts (bytes : List Byte) : List Stmt :=
  (List.range ((bytes.length + 3) / 4)).map fun w =>
    .wr (regAccess (.keybuf w))
      (packWord (bytes[4 * w]?.getD 0) (bytes[4 * w + 1]?.getD 0) (bytes[4 * w + 2]?.getD 0) (bytes[4 * w + 3]?.getD 0))

/-- `POLL -> x` at position `pos`: read STATUS, loop while BUSY = 1 (30_encoding.md R97). -/
def pollStmts (pos x : Nat) : List Stmt := [.rd (regAccess .status) x, .bnz x 0x1 pos]

/-- `KEY`, a command on its length, `POLL`, at position `pos`; a key of more than 128 bytes is refused
(30_encoding.md R96, R98). -/
def keyCommandStmts (pos : Nat) (bytes : List Byte) (i : Instr) (x : Nat) : Option (List Stmt) :=
  if bytes.length ≤ 128 then
    some (keyStmts bytes ++ [.cmd i] ++ pollStmts (pos + (bytes.length + 3) / 4 + 1) x)
  else none

/-- The number of primitive statements a written statement expands to (30_encoding.md R95 to R99). -/
def stmtCount : SrcStmt → Nat
  | .key bytes => (bytes.length + 3) / 4
  | .poll _ => 2
  | .token bytes _ => (bytes.length + 3) / 4 + 3
  | .hashs bytes _ => (bytes.length + 3) / 4 + 3
  | _ => 1

/-- The positions of the labels, the first line at position `pos` (30_encoding.md R95). -/
def labelPositions : Nat → List SrcLine → List (String × Nat)
  | _, [] => []
  | pos, l :: ls =>
    let rest := labelPositions (pos + stmtCount l.stmt) ls
    match l.label with
    | none => rest
    | some name => (name, pos) :: rest

/-- The position of a label. -/
def labelPosition (labels : List (String × Nat)) (name : String) : Option Nat := labels.lookup name

/-- `r` is a register of 10_state.md R23's table, or a reserved offset of it, and no second spelling of another one. DESIGN
CHOICE: R95 takes a register name of R23 and does not say what becomes of another (KEYBUF[32], a reserved offset that is
a register's); the assembler refuses it (notes/assumptions/26.md). -/
def regNamed (r : Reg) : Bool :=
  decide (regOffset r % 4 = 0 ∧ regOffset r ≤ 0xFFC ∧ regAt (regOffset r) = r)

/-- The expansion of a written statement at position `pos` (30_encoding.md R95 to R99). -/
def expandStmt (labels : List (String × Nat)) (pos : Nat) : SrcStmt → Option (List Stmt)
  | .wr r v => if regNamed r then some [.wr (regAccess r) v] else none
  | .rd r x => if regNamed r then some [.rd (regAccess r) x] else none
  | .cmd m op =>
    match commandOf m op with
    | none => none
    | some i => if i.wellFormed then some [.cmd i] else none
  | .bnz x mask l => (labelPosition labels l).map fun t => [.bnz x mask t]
  | .bz x mask l => (labelPosition labels l).map fun t => [.bz x mask t]
  | .goto l => (labelPosition labels l).map fun t => [.goto t]
  | .halt => some [.halt]
  | .key bytes => if bytes.length ≤ 128 then some (keyStmts bytes) else none
  | .poll x => some (pollStmts pos x)
  | .token bytes x => keyCommandStmts pos bytes (.count bytes.length) x
  | .hashs bytes x => keyCommandStmts pos bytes (.hash bytes.length) x
  | .check x l => (labelPosition labels l).map fun t => [.bnz x 0x4 t]

/-- The expansion of the lines from position `pos` on. -/
def expandLines (labels : List (String × Nat)) : Nat → List SrcLine → Option (List Stmt)
  | _, [] => some []
  | pos, l :: ls =>
    match expandStmt labels pos l.stmt, expandLines labels (pos + stmtCount l.stmt) ls with
    | some here, some rest => some (here ++ rest)
    | _, _ => none

/-- A host program from its lines; none where a label is missing or defined twice, a register is no name of 10_state.md R23
or a statement cannot be assembled (30_encoding.md R94 to R99, notes/assumptions/26.md). -/
def assembleProgram (lines : List SrcLine) : Option (List Stmt) :=
  let labels := labelPositions 0 lines
  if (labels.map Prod.fst).Nodup then expandLines labels 0 lines else none

/-- `s` with a host at the start of a program: how a program comes to run, from outside the machine
(notes/assumptions/7.md). -/
def State.withHostProgram (s : State) (program : List Stmt) : State :=
  { s with host := { program := program, pc := 0, vars := [] } }

end Sys2Proof.Machine
end

