-- ==== Sys2Proof/Safety.lean ====
section
/-! DEFINITION. The terms claims are stated in: the invariants of the table and the registers, one command from acceptance to
completion, the observation and the end of a run. -/

namespace Sys2Proof.Machine

/-- The next state of an outcome, if there is one. -/
def nextOf : Host.Outcome State Fault Refusal → Option State
  | .next t => some t
  | .fault _ => none
  | .refused _ => none

/-- Whether bucket `b` of the table is occupied (00_scope.md R17). -/
def occupiedAt (m : Memory) (b : Nat) : Prop := (m.read b).length ≠ 0

/-- The key stored in bucket `b` (10_state.md R44). -/
def keyAt (m : Memory) (b : Nat) : List Byte := (m.read b).storedKey

/-- The home index of a key (00_scope.md R17). -/
def keyHome (p : Params) (k : List Byte) : Nat := homeOf p (keyHash p k)

/-- The table invariants of 10_state.md R45, with what keeps them: the canonical form, the bounds of the table and of a
length, and that every occupied bucket is reached by its own key's probe sequence through occupied buckets only
(41_table_lookup.md R131). -/
structure TableInv (p : Params) (m : Memory) : Prop where
  canonical : Memory.wf m = true
  inTable : ∀ b, occupiedAt m b → b < p.capacity
  lengthBound : ∀ b, (m.read b).length ≤ p.maxKeyLen
  /-- R45 item 4. -/
  emptyIsBlank : ∀ b, ¬ occupiedAt m b → m.read b = Bucket.empty
  /-- R45 item 5, R47. -/
  zeroBeyondLength : ∀ b j, (m.read b).length ≤ j → (m.read b).byteAt j = 0
  /-- R45 item 1. -/
  noTwoEqualKeys : ∀ b c, occupiedAt m b → occupiedAt m c → keyAt m b = keyAt m c → b = c
  onOwnProbeSequence : ∀ b, occupiedAt m b → ∃ i < p.probeLimit,
    probe p (keyHome p (keyAt m b)) i = b ∧ ∀ j < i, occupiedAt m (probe p (keyHome p (keyAt m b)) j)

/-- BUSY, the latch and the fields of STATUS agree (10_state.md R30 to R37, R53). -/
structure StatusInv (s : State) : Prop where
  /-- R30: BUSY is 1 exactly while a command is pending or the sweep is in progress. -/
  busyIff : s.status.busy = (s.pending.isSome || s.status.init)
  /-- R210: the latch is empty during the sweep. -/
  sweepEmptiesLatch : s.status.init = true → s.pending = none
  /-- R31: DONE is 0 from acceptance to completion. -/
  doneNotBusy : s.status.busy = true → s.status.done = false
  /-- R32, R221: ERR is 0 from acceptance to completion. -/
  errNotBusy : s.status.busy = true → s.status.err = false
  /-- R32, R180: ERR_CODE is 0 exactly when ERR is 0, and no reserved code is ever reported. -/
  errCode : if s.status.err then ∃ e, s.status.errCode = errorCode e else s.status.errCode = 0
  /-- R53: the latched word is readable from CMD. -/
  latchInCmd : ∀ q, s.pending = some q → s.cmd = q.word

/-- The result registers and the top-K file have the shape 10_state.md R40 to R43 and R48 give them. -/
structure ResultsInv (s : State) : Prop where
  /-- R40: RES_HOME is an index. -/
  home : s.resHome.toNat < s.params.capacity
  /-- R41: RES_IDX is an index. -/
  idx : s.resIdx.toNat < s.params.capacity
  /-- R43: the reserved bits of RES_INFO read 0. -/
  infoReserved : s.resInfo &&& 0xFF00FC80 = 0
  /-- R43: PROBES is at most PROBE_LIMIT. -/
  infoProbes : (s.resInfo.extractLsb' 0 7).toNat ≤ s.params.probeLimit
  /-- R43: LEN is at most MAX_KEY_LEN. -/
  infoLen : (s.resInfo.extractLsb' 16 8).toNat ≤ s.params.maxKeyLen
  /-- R48: at most K valid slots. -/
  topkNum : s.topkNum.toNat ≤ s.params.k
  /-- R48: a valid slot has bit 31 = 1, bits 30:24 = 0 and an index in bits 23:0. -/
  topkValid : ∀ j, j < s.topkNum.toNat →
    (wordAt s.topkIdx j).extractLsb' 24 8 = 0x80 ∧ ((wordAt s.topkIdx j).extractLsb' 0 24).toNat < s.params.capacity
  /-- R48: a slot that is not valid reads 0. -/
  topkInvalid : ∀ j, s.topkNum.toNat ≤ j → wordAt s.topkIdx j = 0 ∧ wordAt s.topkCnt j = 0
  /-- 43_topk.md R161: the counts do not increase. -/
  topkSorted : ∀ j, j + 1 < s.topkNum.toNat → wordAt s.topkCnt (j + 1) ≤ wordAt s.topkCnt j

/-- The invariant of the machine. -/
structure MachineInv (s : State) : Prop where
  legal : paramsLegal s.params = true
  table : TableInv s.params s.table
  status : StatusInv s
  results : ResultsInv s

/-- The contract under which a step has a meaning: a legal instance and one host (92_eei_decisions.md D45, 60_exceptions.md
R204). -/
def InContract (s : State) : Prop := paramsLegal s.params = true ∧ s.secondHost = false

/-- The sequencer makes the next move of `s`, and `s'` is `s` with the choice of that move taken off: the environment has fixed
it, or the host has ended, or the host has made the moves the free value puts before it (20_memory.md R75,
70_reset_and_hazards.md R229, R231). -/
def CoreMovesAt (s s' : State) : Prop :=
  (∃ rest, s.sched = .core :: rest ∧ s' = { s with sched := rest }) ∨
  (s.sched = [] ∧ hostEnded s = true ∧ s' = s) ∨
  (s.sched = [] ∧ hostEnded s = false ∧ Config.hostMovesBefore s.tick ≤ s.waited ∧
    s' = { s with tick := s.tick + 1, waited := 0 })

/-- The host makes the next move of `s`, and `s'` is `s` with the choice of that move taken off (20_memory.md R75). -/
def HostMovesAt (s s' : State) : Prop :=
  (∃ rest, s.sched = .host :: rest ∧ s' = { s with sched := rest }) ∨
  (s.sched = [] ∧ s.status.init = false ∧ s.pending = none ∧ s' = s) ∨
  (s.sched = [] ∧ (s.status.init = true ∨ s.pending ≠ none) ∧ hostEnded s = false ∧
    s.waited < Config.hostMovesBefore s.tick ∧ s' = { s with waited := s.waited + 1 })

/-- Bucket `b` holds the key `KEYBUF.byte[0 .. n-1]`: the same length and equal byte for byte (00_scope.md R14). -/
def HoldsKeybuf (s : State) (n b : Nat) : Prop :=
  (s.table.read b).length = n ∧ ∀ j < n, (s.table.read b).byteAt j = bufByte s.keybuf j

/-- The bucket of attempt `i` of the probe for the key `KEYBUF.byte[0 .. n-1]` (41_table_lookup.md R122, R126). -/
def attemptBucket (s : State) (n i : Nat) : Nat := probe s.params (keyHome s.params (keyOf s n)) i

/-- Every attempt before `i` finds an occupied bucket that does not hold the key (41_table_lookup.md R126). -/
def ProbeReaches (s : State) (n i : Nat) : Prop :=
  ∀ j < i, occupiedAt s.table (attemptBucket s n j) ∧ ¬ HoldsKeybuf s n (attemptBucket s n j)

/-- `hash(k, n)` as the loop of 40_hash_mixer.md R107 over positions: `floor(n/4)` groups, then the tail of `n mod 4`. LE16 and
`tail` are written out as numbers (00_scope.md R12, 40_hash_mixer.md R109), without the model's own operations. -/
def hashByLoop (p : Params) (k : Nat → Byte) (n : Nat) : Word :=
  let c := p.shifts
  let pair : Byte → Byte → Word := fun x y => BitVec.ofNat 32 (x.toNat + 256 * y.toNat)
  let tail : Byte → Word := fun x =>
    BitVec.ofNat 32 (if p.hashTailSigned ∧ 128 ≤ x.toNat then x.toNat + 0xFFFFFF00 else x.toNat)
  let a := (List.range (n / 4)).foldl
    (fun a g =>
      let a := a + pair (k (4 * g)) (k (4 * g + 1))
      let t := (pair (k (4 * g + 2)) (k (4 * g + 3)) <<< c.gT) ^^^ a
      let a := (a <<< c.gM) ^^^ t
      a + (a >>> c.gR))
    (BitVec.ofNat 32 n)
  let q := 4 * (n / 4)
  let a :=
    if n % 4 = 3 then
      let a := a + pair (k q) (k (q + 1))
      let a := a ^^^ (a <<< c.t3A)
      let a := a ^^^ (tail (k (q + 2)) <<< c.t3B)
      a + (a >>> c.t3C)
    else if n % 4 = 2 then
      let a := a + pair (k q) (k (q + 1))
      let a := a ^^^ (a <<< c.t2A)
      a + (a >>> c.t2B)
    else if n % 4 = 1 then
      let a := a + tail (k q)
      let a := a ^^^ (a <<< c.t1A)
      a + (a >>> c.t1B)
    else a
  let a := a ^^^ (a <<< c.v1)
  let a := a + (a >>> c.v2)
  let a := a ^^^ (a <<< c.v3)
  let a := a + (a >>> c.v4)
  let a := a ^^^ (a <<< c.v5)
  a + (a >>> c.v6)

/-- The occupied buckets of the table, in index order (00_scope.md R17). -/
def occupiedBuckets (p : Params) (m : Memory) : List Nat :=
  (List.range p.capacity).filter fun b => (m.read b).occupied

/-- One command with nothing between its acceptance and its completion (10_state.md R38, 20_memory.md R71). -/
def runCommand (i : Instr) (s : State) : Host.Outcome State Fault Refusal := exec i (accept (encode i) s)

/-- `k` commands `i` one after another, each from acceptance to completion. -/
def repeatCommand (i : Instr) : Nat → State → Host.Outcome State Fault Refusal
  | 0, s => .next s
  | k + 1, s =>
    match runCommand i s with
    | .next t => repeatCommand i k t
    | .fault r => .fault r
    | .refused r => .refused r

/-- The CORE's part of a state, without the host agent and the scheduling of moves. -/
def coreOf (s : State) : State := { s with host := HostAgent.none, sched := [], tick := 0, waited := 0 }

/-- A run is over: the host has halted and BUSY = 0 (70_reset_and_hazards.md R231). -/
def runEnded (s : State) : Bool := hostEnded s && !s.status.busy

/-- The run so far has no error a host following the source would abort on: ERRS = 0 (10_state.md R34, 44_interface.md
R173). -/
def errorFree (s : State) : Bool := !s.status.errs

/-- A safe run from `s` of `n` steps: no step is refused, the run is over, and no command of it ended in an error. -/
def SafeRun (n : Nat) (s : State) : Prop :=
  ∃ t, Host.Core.run Sys2Proof.core n s = .next t ∧ runEnded t = true ∧ errorFree t = true

/-- `e` is ranked before `f` by TOPK: a higher count, or the same count and a lower index (43_topk.md R158). -/
def ranksBefore (e f : Slot) : Prop := f.count < e.count ∨ (e.count = f.count ∧ e.bucket < f.bucket)

/-- The slot entry of an occupied bucket of the table. -/
def slotOf (m : Memory) (b : Nat) : Slot := { bucket := b, count := (m.read b).count }

end Sys2Proof.Machine
end

