-- ==== Sys2Proof/Certificates/Slice0/Obligations.lean ====
section
/-! DEFINITION. The statements for the provers, from the numbered rules of spec/. -/

open Sys2Proof Sys2Proof.Machine

/-! ## Encoding -/

/-- Decoding and encoding agree on every word and every command with an encoding: no bit of a word is dropped
(30_encoding.md R86, R88, R90, R94). -/
def Obligations.DecodeInvertsEncode : Prop :=
  ∀ (w : Word) (i : Instr), decode w = .legal i ↔ (i.wellFormed = true ∧ encode i = w)

/-- 30_encoding.md R89: the opcode map row by row, a word spells a command exactly when it matches the command's row, and no
word matches two rows. -/
def Obligations.OpcodeMapDecides : Prop :=
  opcodeTable.map (fun r => (r.mnemonic, r.pattern, r.mask)) =
      [("NOP", 0x00000000#32, 0xFFFFFFFF#32), ("HASH", 0x00000001#32, 0x000000FF#32),
        ("FIND", 0x00000002#32, 0x000000FF#32), ("INCR", 0x00000003#32, 0x000000FF#32),
        ("COUNT", 0x00000004#32, 0x000000FF#32), ("TOPK", 0x00000005#32, 0xFFFFFFFF#32),
        ("RDBKT", 0x00000006#32, 0x000000FF#32)] ∧
    (∀ (w : Word) (i : Instr), decode w = .legal i →
      w &&& (opcodeRow i).mask = (opcodeRow i).pattern ∧ opcodeRow i ∈ opcodeTable ∧
        operandOf i = (w.extractLsb' 8 24).toNat) ∧
    (∀ (w : Word) (r : OpcodeRow), r ∈ opcodeTable → w &&& r.mask = r.pattern →
      ∃ i, decode w = .legal i ∧ opcodeRow i = r) ∧
    (∀ (w : Word) (r r' : OpcodeRow), r ∈ opcodeTable → r' ∈ opcodeTable →
      w &&& r.mask = r.pattern → w &&& r'.mask = r'.pattern → r = r')

/-- 30_encoding.md R93: every word is exactly one of a legal command and an illegal word, the illegal words are those with a
reserved opcode and those of form N with OPND not 0, and there are `2 + 5 * 2^24` legal words. -/
def Obligations.LegalWordsCharacterised : Prop :=
  (∀ w : Word,
    ((∃ i, decode w = .legal i) ↔
      ¬ (0x07 ≤ (w.extractLsb' 0 8).toNat ∨
        (((w.extractLsb' 0 8).toNat = 0x00 ∨ (w.extractLsb' 0 8).toNat = 0x05) ∧ (w.extractLsb' 8 24).toNat ≠ 0))) ∧
    ((∃ why, decode w = .illegal why) ↔ ¬ ∃ i, decode w = .legal i)) ∧
  Set.ncard { w : Word | ∃ i, decode w = .legal i } = 2 + 5 * 2 ^ 24

/-- 30_encoding.md R101: the worked encodings and the examples of illegal words. -/
def Obligations.WorkedEncodings : Prop :=
  (encode .nop = 0x00000000#32 ∧ decode 0x00000000#32 = .legal .nop) ∧
  (encode (.hash 3) = 0x00000301#32 ∧ decode 0x00000301#32 = .legal (.hash 3)) ∧
  (encode (.find 5) = 0x00000502#32 ∧ decode 0x00000502#32 = .legal (.find 5)) ∧
  (encode (.count 3) = 0x00000304#32 ∧ decode 0x00000304#32 = .legal (.count 3)) ∧
  (encode (.count 200) = 0x0000C804#32 ∧ decode 0x0000C804#32 = .legal (.count 200)) ∧
  (encode (.incr 583978) = 0x08E92A03#32 ∧ decode 0x08E92A03#32 = .legal (.incr 583978)) ∧
  (encode (.rdbkt 2097152) = 0x20000006#32 ∧ decode 0x20000006#32 = .legal (.rdbkt 2097152)) ∧
  (encode .topk = 0x00000005#32 ∧ decode 0x00000005#32 = .legal .topk) ∧
  (∃ why, decode 0x00000107#32 = .illegal why) ∧
  (∃ why, decode 0x00000105#32 = .illegal why) ∧
  (∃ why, decode 0x000000FF#32 = .illegal why)

/-- 30_encoding.md R102: a legal word is printed as R94 spells it, and assembling what the disassembler prints gives the word
back; an illegal word is printed as `.word 0xXXXXXXXX ; illegal`. -/
def Obligations.DisassemblyAssemblesBack : Prop :=
  (∀ (w : Word) (i : Instr), decode w = .legal i →
    disassemble w = commandText i ∧ assembleText (disassemble w) = some w) ∧
  (∀ (w : Word) (why : Illegal), decode w = .illegal why → disassemble w = ".word " ++ hexText w ++ " ; illegal")

/-! ## Steps: whose move, and what it runs -/

/-- The sequencer's move performs the word in the latch: the command it decodes to, with its own meaning
(10_state.md R38, 20_memory.md R71, 30_encoding.md R90). -/
def Obligations.StepPerformsPendingCommand : Prop :=
  ∀ (s s' : State) (w : Word) (sat : Bool) (i : Instr),
    InContract s → CoreMovesAt s s' → s.status.init = false → s.pending = some { word := w, sat := sat } →
    decode w = .legal i → step s = exec i s'

/-- 60_exceptions.md R182 (30_encoding.md R91, R92): a word with a reserved opcode, or NOP or TOPK with an operand, ends in
IllegalCommand and nothing but STATUS changes. -/
def Obligations.IllegalWordRaisesIllegalCommand : Prop :=
  ∀ (s s' : State) (w : Word) (sat : Bool),
    InContract s → CoreMovesAt s s' → s.status.init = false → s.pending = some { word := w, sat := sat } →
    (0x07 ≤ (w.extractLsb' 0 8).toNat ∨
      (((w.extractLsb' 0 8).toNat = 0x00 ∨ (w.extractLsb' 0 8).toNat = 0x05) ∧ (w.extractLsb' 8 24).toNat ≠ 0)) →
    step s = .next
      { s' with
        status := { s'.status with busy := false, done := true, err := true, errs := true, errCode := 0x03 }
        pending := none }

/-- 20_memory.md R75, 70_reset_and_hazards.md R229, 93_implementation_defined.md U2: the completion step of a pending command may
come before or after the host's next access, and after any number of the host's moves; but it, or the sweep-end step,
eventually comes: a finite number of steps after any state with a step of the sequencer open, unless the host makes an
access outside the contract before, the next move is the sequencer's with its step still open. The bound is the model's
own schedule (log 3): the moves the environment has fixed and the free value's number, of which nothing is known. -/
def Obligations.CompletionOrderIsOpenAndFair : Prop :=
  (∀ s : State, InContract s → s.status.init = false → s.pending.isSome = true → hostEnded s = false →
    (s.sched = [] →
      step s = coreMove { s with tick := s.tick + 1, waited := 0 } ∨ step s = hostMove { s with waited := s.waited + 1 }) ∧
    (∀ rest, step { s with sched := .core :: rest } = coreMove { s with sched := rest }) ∧
    (∀ rest, step { s with sched := .host :: rest } = hostMove { s with sched := rest }) ∧
    (∀ k rest t, Host.Core.run Sys2Proof.core k { s with sched := List.replicate k .host ++ .core :: rest } = .next t →
      CoreMovesAt t { t with sched := rest })) ∧
  (∀ s : State, InContract s → coreReady s = true →
    ∃ n ≤ s.sched.length + Config.hostMovesBefore s.tick,
      (∃ r, Host.Core.run Sys2Proof.core n s = .refused r) ∨
      ∃ t t', Host.Core.run Sys2Proof.core n s = .next t ∧ coreReady t = true ∧ CoreMovesAt t t')

/-- 70_reset_and_hazards.md R231, 60_exceptions.md R206: when the host has ended, a pending command still completes, in one step;
and once BUSY is 0 too, nothing changes any more. -/
def Obligations.HaltedRunCompletesThenIdles : Prop :=
  (∀ s : State, InContract s → MachineInv s → s.sched = [] → hostEnded s = true → s.status.busy = true →
    ∃ t, step s = .next t ∧ runEnded t = true ∧ step t = .next t) ∧
  (∀ s : State, InContract s → MachineInv s → s.sched = [] → runEnded s = true → step s = .next s)

/-- 92_eei_decisions.md D45, 60_exceptions.md R204: an instance with a parameter outside 00_scope.md R6, a shift constant of
40_hash_mixer.md R108 among them, or with two hosts, is refused. -/
def Obligations.OutsideContractIsRefused : Prop :=
  (∀ s : State,
    (s.params.capacity < 1 ∨ 2 ^ 24 < s.params.capacity ∨ s.params.maxKeyLen < 1 ∨ 128 < s.params.maxKeyLen ∨
      s.params.probeLimit < 1 ∨ 127 < s.params.probeLimit ∨ s.params.k < 1 ∨ 16 < s.params.k ∨
      31 < s.params.shifts.gT ∨ 31 < s.params.shifts.gM ∨ 31 < s.params.shifts.gR ∨
      31 < s.params.shifts.t3A ∨ 31 < s.params.shifts.t3B ∨ 31 < s.params.shifts.t3C ∨
      31 < s.params.shifts.t2A ∨ 31 < s.params.shifts.t2B ∨ 31 < s.params.shifts.t1A ∨ 31 < s.params.shifts.t1B ∨
      31 < s.params.shifts.v1 ∨ 31 < s.params.shifts.v2 ∨ 31 < s.params.shifts.v3 ∨
      31 < s.params.shifts.v4 ∨ 31 < s.params.shifts.v5 ∨ 31 < s.params.shifts.v6) →
    step s = .refused .parameterOutOfRange) ∧
  (∀ s : State, s.secondHost = true → ∃ r, step s = .refused r)

/-! ## The host port -/

/-- 10_state.md R38: a CMD write is dropped with OVR while BUSY, and accepted otherwise; the sequencer then decodes and performs
the word; reading CMD returns the last accepted word, or 0 after reset. -/
def Obligations.CmdWriteAcceptsOrDrops : Prop :=
  ∀ (s : State) (w : Word),
    hostRead 0x00C State.reset = 0x00000000#32 ∧
    (s.status.busy = true →
      hostWrite 0x00C w s = { s with status := { s.status with ovr := true } } ∧
      hostRead 0x00C (hostWrite 0x00C w s) = hostRead 0x00C s) ∧
    (s.status.busy = false →
      hostWrite 0x00C w s =
        { s with
          cmd := w
          pending := some { word := w, sat := s.ctrl.cntSat }
          status := { s.status with busy := true, done := false, err := false, errCode := 0x00 } } ∧
      hostRead 0x00C (hostWrite 0x00C w s) = w ∧
      (s.status.init = false → coreMove (hostWrite 0x00C w s) = performWord w (hostWrite 0x00C w s)))

/-- 70_reset_and_hazards.md R222, 20_memory.md R64: a KEYBUF write is dropped with OVR while BUSY; otherwise the word is stored,
its byte `r` is key byte `4w + r`, and no other key byte changes. -/
def Obligations.KeybufWriteStoresLittleEndian : Prop :=
  ∀ (s : State) (w : Nat) (v : Word), w < 32 →
    (s.status.busy = true → hostWrite (0x100 + 4 * w) v s = { s with status := { s.status with ovr := true } }) ∧
    (s.status.busy = false →
      ∃ buf, hostWrite (0x100 + 4 * w) v s = { s with keybuf := buf } ∧
        hostRead (0x100 + 4 * w) { s with keybuf := buf } = v ∧
        (∀ r < 4, bufByte buf (4 * w + r) = v.extractLsb' (8 * r) 8) ∧
        (∀ j, j / 4 ≠ w → bufByte buf j = bufByte s.keybuf j))

/-- 70_reset_and_hazards.md R223, 10_state.md R25: a CTRL write without SRST takes effect at once, BUSY or not; IE acts on irq at
once, and the mode of an accepted command does not change. -/
def Obligations.CtrlWriteActsAtOnce : Prop :=
  ∀ (s : State) (v : Word), v.getLsbD 31 = false →
    hostWrite 0x004 v s = { s with ctrl := { ie := v.getLsbD 0, cntSat := v.getLsbD 1 } } ∧
    hostRead 0x004 (hostWrite 0x004 v s) = v &&& 0x00000003 ∧
    irq (hostWrite 0x004 v s) = (v.getLsbD 0 && s.status.done) ∧
    (hostWrite 0x004 v s).pending = s.pending ∧
    (s.pending.isSome = true → sampledSat (hostWrite 0x004 v s) = sampledSat s)

/-- 10_state.md R29: the layout of STATUS, its values after and during the reset sweep, and a host write of STATUS clears exactly
the W1C fields written with 1 (DONE, ERRS, OVR, CNT_OVF) and changes nothing else. -/
def Obligations.StatusFieldsAndW1C : Prop :=
  ∀ (s : State) (v : Word),
    ((hostRead 0x008 s).getLsbD 0 = s.status.busy ∧ (hostRead 0x008 s).getLsbD 1 = s.status.done ∧
      (hostRead 0x008 s).getLsbD 2 = s.status.err ∧ (hostRead 0x008 s).getLsbD 3 = s.status.errs ∧
      (hostRead 0x008 s).getLsbD 4 = s.status.ovr ∧ (hostRead 0x008 s).getLsbD 5 = s.status.cntOvf ∧
      (hostRead 0x008 s).getLsbD 6 = s.status.init ∧ (hostRead 0x008 s).getLsbD 7 = false ∧
      (hostRead 0x008 s).extractLsb' 8 8 = s.status.errCode ∧ (hostRead 0x008 s).extractLsb' 16 16 = 0) ∧
    hostRead 0x008 (hostWrite 0x008 v s) = hostRead 0x008 s &&& ~~~ (v &&& 0x0000003A) ∧
    hostRead 0x008 State.reset = 0x00000000#32 ∧ hostRead 0x008 (enterReset s) = 0x00000041#32 ∧
    ∃ f, hostWrite 0x008 v s = { s with status := f }

/-- 20_memory.md R72, R63: a write to a read-only register or a reserved offset has no effect, and no read changes the CORE. -/
def Obligations.OtherWritesHaveNoEffect : Prop :=
  ∀ (off : Nat) (v : Word) (s : State), off % 4 = 0 → off ≤ 0xFFC →
    off ≠ 0x004 → off ≠ 0x008 → off ≠ 0x00C → ¬ (0x100 ≤ off ∧ off < 0x180) → hostWrite off v s = s

/-- 10_state.md R23, R24, R51, R52, R63: what each offset of the window reads. -/
def Obligations.RegisterMapReads : Prop :=
  ∀ s : State,
    hostRead 0x000 s = 0x48430001#32 ∧
    hostRead 0x004 s = 0#30 ++ BitVec.ofBool s.ctrl.cntSat ++ BitVec.ofBool s.ctrl.ie ∧
    hostRead 0x00C s = s.cmd ∧
    hostRead 0x010 s = s.resHash ∧ hostRead 0x014 s = s.resHome ∧ hostRead 0x018 s = s.resIdx ∧
    hostRead 0x01C s = s.resCount ∧ hostRead 0x020 s = s.resInfo ∧ hostRead 0x024 s = s.topkNum ∧
    hostRead 0x028 s = BitVec.ofNat 32 s.params.capacity ∧
    ((hostRead 0x02C s).extractLsb' 0 8 = BitVec.ofNat 8 s.params.maxKeyLen ∧
      (hostRead 0x02C s).extractLsb' 8 8 = BitVec.ofNat 8 s.params.probeLimit ∧
      (hostRead 0x02C s).extractLsb' 16 8 = BitVec.ofNat 8 s.params.k ∧ (hostRead 0x02C s).extractLsb' 24 8 = 0) ∧
    (s.params = defaultParams → hostRead 0x028 s = 0x00200001#32 ∧ hostRead 0x02C s = 0x000A407D#32) ∧
    (∀ j < 16, hostRead (0x040 + 4 * j) s = if j < s.params.k then wordAt s.topkIdx j else 0) ∧
    (∀ j < 16, hostRead (0x080 + 4 * j) s = if j < s.params.k then wordAt s.topkCnt j else 0) ∧
    (∀ w < 32, hostRead (0x100 + 4 * w) s = wordAt s.keybuf w) ∧
    (∀ w < 32, hostRead (0x180 + 4 * w) s = wordAt s.bktkey w) ∧
    (∀ off, (0x030 ≤ off ∧ off < 0x040) ∨ (0x0C0 ≤ off ∧ off < 0x100) ∨ (0x200 ≤ off ∧ off ≤ 0xFFC) →
      hostRead off s = 0)

/-- 20_memory.md R62: an access of another width, a misaligned one, or one at or beyond offset 0x1000 is refused; every other access
is performed. -/
def Obligations.AccessOutsideContractIsRefused : Prop :=
  ∀ (s s' : State) (a : Access), InContract s → HostMovesAt s s' →
    ((∃ v, hostStmt s = some (.wr a v)) ∨ (∃ x, hostStmt s = some (.rd a x))) →
    ((a.width ≠ 32 ∨ a.offset % 4 ≠ 0 ∨ 0x1000 ≤ a.offset) ↔ ∃ r, step s = .refused r) ∧
    (¬ (a.width ≠ 32 ∨ a.offset % 4 ≠ 0 ∨ 0x1000 ≤ a.offset) ↔ ∃ t, step s = .next t)

/-- 30_encoding.md R95, R100, 20_memory.md R72: what each statement of a host program does; a read assigns its variable and leaves the
CORE as it is, and a branch changes only the host's position. -/
def Obligations.HostStatements : Prop :=
  ∀ (s s' : State), InContract s → HostMovesAt s s' →
    (∀ r v, hostStmt s = some (.wr (regAccess r) v) → regOffset r % 4 = 0 → regOffset r < 0x1000 →
      step s = .next (hostAdvance (hostWrite (regOffset r) v s'))) ∧
    (∀ r x, hostStmt s = some (.rd (regAccess r) x) → regOffset r % 4 = 0 → regOffset r < 0x1000 →
      ∃ t, step s = .next t ∧ coreOf t = coreOf s ∧ readVar t.host.vars x = hostRead (regOffset r) s ∧
        (∀ y, y ≠ x → readVar t.host.vars y = readVar s.host.vars y) ∧ t.host.pc = s.host.pc + 1) ∧
    (∀ i, hostStmt s = some (.cmd i) → i.wellFormed = true →
      step s = .next (hostAdvance (hostWrite 0x00C (encode i) s'))) ∧
    (∀ x mask l, hostStmt s = some (.bnz x mask l) →
      step s = .next { s' with host := { s'.host with
        pc := if readVar s.host.vars x &&& mask ≠ 0 then l else s.host.pc + 1 } }) ∧
    (∀ x mask l, hostStmt s = some (.bz x mask l) →
      step s = .next { s' with host := { s'.host with
        pc := if readVar s.host.vars x &&& mask = 0 then l else s.host.pc + 1 } }) ∧
    (∀ l, hostStmt s = some (.goto l) → step s = .next { s' with host := { s'.host with pc := l } }) ∧
    (hostStmt s = some .halt → step s = .next s')

/-- 30_encoding.md R96: the expansion of KEY writes the key's bytes to KEYBUF, 0 at the byte positions after the key in its last word, and
keeps every word beyond. -/
def Obligations.KeyExpansionWritesKey : Prop :=
  ∀ (s : State) (bytes : List Byte), bytes.length ≤ 128 → s.status.busy = false →
    (keyStmts bytes).length = (bytes.length + 3) / 4 ∧
    ∃ buf,
      (keyStmts bytes).foldl (fun t st => match st with
        | .wr a v => hostWrite a.offset v t
        | _ => t) s = { s with keybuf := buf } ∧
      (∀ j, j < 4 * ((bytes.length + 3) / 4) → bufByte buf j = bytes[j]?.getD 0) ∧
      (∀ w, (bytes.length + 3) / 4 ≤ w → wordAt buf w = wordAt s.keybuf w)

/-- 30_encoding.md R97: POLL reads STATUS into its variable, loops while BUSY = 1, and goes on with a STATUS value whose BUSY is 0. -/
def Obligations.PollWaitsForBusyZero : Prop :=
  ∀ (s : State) (x : Nat) (rest : List Move), InContract s → s.sched = .host :: .host :: rest →
    hostStmt s = some (.rd (regAccess .status) x) →
    s.host.program[s.host.pc + 1]? = some (.bnz x 0x1 s.host.pc) →
    ∃ t u, step s = .next t ∧ step t = .next u ∧ coreOf u = coreOf s ∧ u.sched = rest ∧
      readVar u.host.vars x = hostRead 0x008 s ∧
      (s.status.busy = true → u.host.pc = s.host.pc) ∧ (s.status.busy = false → u.host.pc = s.host.pc + 2)

/-! ## Reset -/

/-- 10_state.md R57: the state after the reset sweep, as the host reads it and as the commands find it; a reset and its sweep
lead to it from every state, but for STATUS.OVR and CTRL where the host wrote during the sweep. -/
def Obligations.ResetValues : Prop :=
  hostRead 0x000 State.reset = 0x48430001#32 ∧ hostRead 0x004 State.reset = 0 ∧ hostRead 0x008 State.reset = 0 ∧
  hostRead 0x00C State.reset = 0 ∧ hostRead 0x010 State.reset = 0 ∧ hostRead 0x014 State.reset = 0 ∧
  hostRead 0x018 State.reset = 0 ∧ hostRead 0x01C State.reset = 0 ∧ hostRead 0x020 State.reset = 0 ∧
  hostRead 0x024 State.reset = 0 ∧ hostRead 0x028 State.reset = 0x00200001#32 ∧
  hostRead 0x02C State.reset = 0x000A407D#32 ∧
  (∀ j < 16, hostRead (0x040 + 4 * j) State.reset = 0 ∧ hostRead (0x080 + 4 * j) State.reset = 0) ∧
  (∀ w < 32, hostRead (0x100 + 4 * w) State.reset = 0 ∧ hostRead (0x180 + 4 * w) State.reset = 0) ∧
  (∀ b, (State.reset.table.read b).length = 0 ∧ (State.reset.table.read b).count = 0 ∧
    ∀ j, (State.reset.table.read b).byteAt j = 0) ∧
  State.reset.pending = none ∧ irq State.reset = false ∧
  (∀ s : State, coreOf (endSweep (enterReset s)) = { State.reset with params := s.params, secondHost := s.secondHost }) ∧
  (∀ (s : State) (v : Word), hostRead 0x008 (endSweep (hostWrite 0x00C v (enterReset s))) = 0x00000010#32) ∧
  (∀ (s : State) (v : Word), v.getLsbD 31 = false →
    hostRead 0x004 (endSweep (hostWrite 0x004 v (enterReset s))) = v &&& 0x00000003)

/-- 70_reset_and_hazards.md R210 (10_state.md R28): the reset input and a CTRL write with SRST have the same effect on the CORE: the command
in progress is abandoned without a completion, every register takes its reset value, STATUS reads 0x00000041 and irq is 0, whatever the
CORE was doing and whatever the other bits of the write are. -/
def Obligations.ResetSourcesAreIdentical : Prop :=
  ∀ (s : State) (v : Word) (rest : List Move), InContract s → v.getLsbD 31 = true →
    step { s with sched := .reset :: rest } = .next (hostWrite 0x004 v { s with sched := rest }) ∧
    (hostWrite 0x004 v s).status.word = 0x00000041#32 ∧ irq (hostWrite 0x004 v s) = false ∧
    ∀ t, t = hostWrite 0x004 v s →
      t.pending = none ∧ t.ctrl.word = 0 ∧ t.cmd = 0 ∧ t.resHash = 0 ∧ t.resHome = 0 ∧ t.resIdx = 0 ∧ t.resCount = 0 ∧
      t.resInfo = 0 ∧ t.topkNum = 0 ∧ (∀ j, wordAt t.topkIdx j = 0 ∧ wordAt t.topkCnt j = 0) ∧
      (∀ j, bufByte t.keybuf j = 0 ∧ bufByte t.bktkey j = 0) ∧ t.params = s.params ∧ t.host = s.host

/-- 70_reset_and_hazards.md R211: the sweep-end step leaves every field of every bucket, KEYBUF and BKTKEY zero, and INIT and BUSY 0; it sets
no DONE, raises no irq and changes nothing else. -/
def Obligations.SweepEndClearsTable : Prop :=
  ∀ (s s' : State), InContract s → CoreMovesAt s s' → s.status.init = true →
    ∃ t, step s = .next t ∧
      (∀ b, (t.table.read b).length = 0 ∧ (t.table.read b).count = 0 ∧ ∀ j, (t.table.read b).byteAt j = 0) ∧
      (∀ j, bufByte t.keybuf j = 0 ∧ bufByte t.bktkey j = 0) ∧
      t.status = { s.status with busy := false, init := false } ∧ irq t = irq s ∧
      t = { s' with table := t.table, keybuf := t.keybuf, bktkey := t.bktkey, status := t.status }

/-- 70_reset_and_hazards.md R212: during the sweep STATUS reads BUSY and INIT, CMD and KEYBUF writes are dropped with OVR, CTRL writes take
effect, a reset restarts the sweep; so after it STATUS is 0x00000000, or 0x00000010 if a write was dropped, and CTRL keeps what the host
wrote. -/
def Obligations.WritesDuringSweep : Prop :=
  ∀ (s : State) (v : Word) (w : Nat), w < 32 →
    hostRead 0x008 (enterReset s) = 0x00000041#32 ∧
    hostWrite 0x00C v (enterReset s) = { enterReset s with status := { (enterReset s).status with ovr := true } } ∧
    hostWrite (0x100 + 4 * w) v (enterReset s) =
      { enterReset s with status := { (enterReset s).status with ovr := true } } ∧
    hostRead 0x008 (endSweep (enterReset s)) = 0x00000000#32 ∧
    hostRead 0x008 (endSweep (hostWrite 0x00C v (enterReset s))) = 0x00000010#32 ∧
    (v.getLsbD 31 = false → hostRead 0x004 (endSweep (hostWrite 0x004 v (enterReset s))) = v &&& 0x00000003) ∧
    (v.getLsbD 31 = true → hostWrite 0x004 v (enterReset s) = enterReset s)

/-! ## Completion and errors -/

/-- 10_state.md R33: every command ends in exactly one of two ways (in a state whose ERR acceptance has cleared, R38), and the
latch is empty after both (R53). -/
def Obligations.CommandEndsInOneOfTwoWays : Prop :=
  ∀ (i : Instr) (s : State), ∃ t, exec i s = .next t ∧ t.pending = none ∧
    let succeeded := ∃ overflow, t.status =
      { s.status with busy := false, done := true, cntOvf := s.status.cntOvf || overflow }
    let failed := ∃ e, t.status =
      { s.status with busy := false, done := true, err := true, errs := true, errCode := errorCode e }
    (succeeded ∨ failed) ∧ (s.status.err = false → ¬ (succeeded ∧ failed))

/-- 60_exceptions.md R186, R185: a command that ends in an error changes nothing but the STATUS fields of the error completion (and empties the
latch); in particular neither table nor result register nor buffer nor CTRL. -/
def Obligations.ErrorChangesOnlyStatus : Prop :=
  ∀ (i : Instr) (s t : State), s.status.err = false → exec i s = .next t → t.status.err = true →
    ∃ e, t =
      { s with
        status := { s.status with busy := false, done := true, err := true, errs := true, errCode := errorCode e }
        pending := none }

/-- 41_table_lookup.md R120, 60_exceptions.md R181, R184: HASH, FIND and COUNT of more than MAX_KEY_LEN bytes end in KeyTooLong, code 0x01, before any
hash or table access; FIND and COUNT of length 0 end in EmptyKey, code 0x05; HASH accepts length 0. -/
def Obligations.KeyLengthErrors : Prop :=
  (∀ (n : Nat) (s : State) (i : Instr), i = .hash n ∨ i = .find n ∨ i = .count n → s.params.maxKeyLen < n →
    exec i s = .next
      { s with
        status := { s.status with busy := false, done := true, err := true, errs := true, errCode := 0x01 }
        pending := none }) ∧
  (∀ (s : State) (i : Instr), i = .find 0 ∨ i = .count 0 →
    exec i s = .next
      { s with
        status := { s.status with busy := false, done := true, err := true, errs := true, errCode := 0x05 }
        pending := none }) ∧
  (∀ s : State, exec (.hash 0) s = .next
    { s with resHash := 0, resHome := 0, status := { s.status with busy := false, done := true }, pending := none })

/-- 60_exceptions.md R183: INCR and RDBKT of an index at or beyond CAPACITY, and INCR of an empty bucket, end in BadIndex, code 0x04. -/
def Obligations.BadIndexRaised : Prop :=
  ∀ (idx : Nat) (s : State) (i : Instr),
    ((i = .incr idx ∨ i = .rdbkt idx) ∧ s.params.capacity ≤ idx) ∨ (i = .incr idx ∧ ¬ occupiedAt s.table idx) →
    exec i s = .next
      { s with
        status := { s.status with busy := false, done := true, err := true, errs := true, errCode := 0x04 }
        pending := none }

/-- 41_table_lookup.md R125, 60_exceptions.md R187: when every attempt finds an occupied bucket that does not hold the key, FIND and COUNT end in
InsertionExhausted, code 0x02, and the table is as before. -/
def Obligations.ExhaustedProbeRaisesInsertionExhausted : Prop :=
  ∀ (n : Nat) (s : State) (i : Instr), i = .find n ∨ i = .count n → 1 ≤ n → n ≤ s.params.maxKeyLen →
    ProbeReaches s n s.params.probeLimit →
    exec i s = .next
      { s with
        status := { s.status with busy := false, done := true, err := true, errs := true, errCode := 0x02 }
        pending := none }

/-- 60_exceptions.md R188: the one error a word ends in is the first of the order IllegalCommand, KeyTooLong, EmptyKey, BadIndex,
InsertionExhausted that applies; with none the command succeeds. -/
def Obligations.ErrorsInPriorityOrder : Prop :=
  ∀ (w : Word) (s t : State), s.status.err = false → performWord w s = .next t →
    match decode w with
    | .illegal _ => t.status.err = true ∧ t.status.errCode = 0x03
    | .legal .nop => t.status.err = false
    | .legal .topk => t.status.err = false
    | .legal (.hash n) =>
      if s.params.maxKeyLen < n then t.status.err = true ∧ t.status.errCode = 0x01 else t.status.err = false
    | .legal (.find n) =>
      if s.params.maxKeyLen < n then t.status.err = true ∧ t.status.errCode = 0x01
      else if n = 0 then t.status.err = true ∧ t.status.errCode = 0x05
      else (ProbeReaches s n s.params.probeLimit → t.status.err = true ∧ t.status.errCode = 0x02) ∧
        (¬ ProbeReaches s n s.params.probeLimit → t.status.err = false)
    | .legal (.count n) =>
      if s.params.maxKeyLen < n then t.status.err = true ∧ t.status.errCode = 0x01
      else if n = 0 then t.status.err = true ∧ t.status.errCode = 0x05
      else (ProbeReaches s n s.params.probeLimit → t.status.err = true ∧ t.status.errCode = 0x02) ∧
        (¬ ProbeReaches s n s.params.probeLimit → t.status.err = false)
    | .legal (.incr idx) =>
      if s.params.capacity ≤ idx then t.status.err = true ∧ t.status.errCode = 0x04
      else if (s.table.read idx).length = 0 then t.status.err = true ∧ t.status.errCode = 0x04
      else t.status.err = false
    | .legal (.rdbkt idx) =>
      if s.params.capacity ≤ idx then t.status.err = true ∧ t.status.errCode = 0x04 else t.status.err = false

/-! ## Results of the commands -/

/-- 44_interface.md R170: NOP completes without effect; from an idle CORE it still clears ERR and ERR_CODE at acceptance, and with IE it raises
irq. -/
def Obligations.NopOnlyCompletes : Prop :=
  (∀ s : State, exec .nop s = .next { s with status := { s.status with busy := false, done := true }, pending := none }) ∧
  (∀ s : State, runCommand .nop s = .next
    { s with
      cmd := 0x00000000
      status := { s.status with busy := false, done := true, err := false, errCode := 0 }
      pending := none }) ∧
  (∀ s t : State, runCommand .nop s = .next t → s.ctrl.ie = true → irq t = true)

/-- 40_hash_mixer.md R110: HASH of at most MAX_KEY_LEN bytes writes the hash of the key in KEYBUF and its home index, and nothing else but the
completion. -/
def Obligations.HashResult : Prop :=
  ∀ (n : Nat) (s : State), n ≤ s.params.maxKeyLen →
    exec (.hash n) s = .next
      { s with
        resHash := keyHash s.params (keyOf s n)
        resHome := BitVec.ofNat 32 ((keyHash s.params (keyOf s n)).toNat % s.params.capacity)
        status := { s.status with busy := false, done := true }
        pending := none }

/-- 40_hash_mixer.md R107: the hash is the loop of the rule, position by position, with the group, the three tail cases and the avalanche written
out, and with LE16 (00_scope.md R12) and the signed or unsigned tail byte (R109) written out as numbers in it. -/
def Obligations.HashIsTheLoopOfTheRule : Prop :=
  ∀ (p : Params) (k : List Byte), keyHash p k = hashByLoop p (fun j => k[j]?.getD 0) k.length

/-- 40_hash_mixer.md R113, R114: the hash results depend only on the length and the key bytes below it, not on the table, the mode, the other
KEYBUF bytes or anything else. -/
def Obligations.HashDependsOnKeyOnly : Prop :=
  ∀ (n : Nat) (s t u v : State), s.params = t.params → (∀ j < n, bufByte s.keybuf j = bufByte t.keybuf j) →
    exec (.hash n) s = .next u → exec (.hash n) t = .next v → n ≤ s.params.maxKeyLen →
    u.resHash = v.resHash ∧ u.resHome = v.resHome

/-- 40_hash_mixer.md R112, R115: the empty key hashes to 0 whatever the shift constants, and so does the one-byte key 0xFF under signed tail
bytes. The last clause, that unsigned it hashes to 0xA9E99665, is a value of the default shift constants, which the spec takes from
general knowledge (R108): it rests on log 14, PRESUMED. -/
def Obligations.ZeroHashes : Prop :=
  (∀ p : Params, keyHash p [] = 0 ∧ keyHome p [] = 0) ∧
  (∀ p : Params, p.hashTailSigned = true → keyHash p [0xFF#8] = 0) ∧
  keyHash { defaultParams with hashTailSigned := false } [0xFF#8] = 0xA9E99665#32

/-- 41_table_lookup.md R122, 20_memory.md R67: the probed index is `home + offset(i)` reduced modulo CAPACITY, always in `0 .. CAPACITY-1`; the
index before 0 is CAPACITY-1 and the index after CAPACITY-1 is 0. -/
def Obligations.ProbedIndexInTable : Prop :=
  (∀ (p : Params) (home i : Nat), 1 ≤ p.capacity →
    probe p home i < p.capacity ∧
    ∃ z : Int, (home : Int) + (if i % 2 = 0 then 1 else -1) * ((i / 2 : Nat) : Int) ^ 2 =
      (probe p home i : Int) + z * (p.capacity : Int)) ∧
  (∀ p : Params, 1 ≤ p.capacity → probe p 0 3 = p.capacity - 1) ∧
  (∀ p : Params, 1 ≤ p.capacity → probe p (p.capacity - 1) 2 = 0)

/-- 41_table_lookup.md R128, R129, R130: attempts 0 and 1 both probe the home bucket, and with CAPACITY above 1922 the 64 attempts probe 63 distinct
buckets, all within 961 of home modulo CAPACITY; a small table is not always covered (R130). -/
def Obligations.ProbeCoverage : Prop :=
  (∀ (p : Params) (home : Nat), home < p.capacity → probe p home 0 = home ∧ probe p home 1 = home) ∧
  (∀ (p : Params) (home : Nat), 1922 < p.capacity → home < p.capacity →
    ((List.range 64).map (probe p home)).toFinset.card = 63) ∧
  (∀ (p : Params) (home i : Nat), 1 ≤ p.capacity → i < 64 →
    ∃ d : Int, -961 ≤ d ∧ d ≤ 961 ∧ (probe p home i : Int) = ((home : Int) + d) % (p.capacity : Int)) ∧
  ((List.range 64).map (probe { defaultParams with capacity := 4 } 0)).toFinset = {0, 1, 3} ∧
  ((List.range 64).map (probe { defaultParams with capacity := 5 } 0)).toFinset = {0, 1, 4} ∧
  ((List.range 64).map (probe { defaultParams with capacity := 8 } 0)).toFinset = {0, 1, 4, 7} ∧
  ((List.range 64).map (probe { defaultParams with capacity := 7 } 0)).toFinset = Finset.range 7 ∧
  ((List.range 64).map (probe { defaultParams with capacity := 11 } 0)).toFinset = Finset.range 11

/-- 41_table_lookup.md R123, R127: FIND whose first empty or matching bucket, at attempt `i`, is empty claims it: key bytes `0 .. n-1`, length `n`,
count 0; its other key bytes, every other bucket and every other register stay as they are. -/
def Obligations.FindClaimsEmptyBucket : Prop :=
  ∀ (s : State) (n i : Nat), paramsLegal s.params = true → 1 ≤ n → n ≤ s.params.maxKeyLen → i < s.params.probeLimit →
    ProbeReaches s n i → ¬ occupiedAt s.table (attemptBucket s n i) →
    ∃ m,
      exec (.find n) s = .next
        { s with
          table := m
          resHash := keyHash s.params (keyOf s n)
          resHome := indexWord (keyHome s.params (keyOf s n))
          resIdx := indexWord (attemptBucket s n i)
          resCount := 0
          resInfo := 0#8 ++ BitVec.ofNat 8 n ++ 0#6 ++ 0#1 ++ 1#1 ++ 0#1 ++ BitVec.ofNat 7 (i + 1)
          status := { s.status with busy := false, done := true }
          pending := none } ∧
      (m.read (attemptBucket s n i)).length = n ∧ (m.read (attemptBucket s n i)).count = 0 ∧
      (∀ j < n, (m.read (attemptBucket s n i)).byteAt j = bufByte s.keybuf j) ∧
      (∀ j, n ≤ j → (m.read (attemptBucket s n i)).byteAt j = (s.table.read (attemptBucket s n i)).byteAt j) ∧
      (∀ c, c ≠ attemptBucket s n i → m.read c = s.table.read c)

/-- 41_table_lookup.md R124, R127: FIND whose first empty or matching bucket, at attempt `i`, holds the key returns it and writes no bucket. -/
def Obligations.FindReturnsMatchingBucket : Prop :=
  ∀ (s : State) (n i : Nat), 1 ≤ n → n ≤ s.params.maxKeyLen → i < s.params.probeLimit →
    ProbeReaches s n i → HoldsKeybuf s n (attemptBucket s n i) →
    exec (.find n) s = .next
      { s with
        resHash := keyHash s.params (keyOf s n)
        resHome := indexWord (keyHome s.params (keyOf s n))
        resIdx := indexWord (attemptBucket s n i)
        resCount := (s.table.read (attemptBucket s n i)).count
        resInfo := 0#8 ++ BitVec.ofNat 8 n ++ 0#6 ++ 1#1 ++ 0#1 ++ 0#1 ++ BitVec.ofNat 7 (i + 1)
        status := { s.status with busy := false, done := true }
        pending := none }

/-- 42_counter.md R144: COUNT whose first empty or matching bucket, at attempt `i`, is empty claims it with count 1. -/
def Obligations.CountClaimsWithCountOne : Prop :=
  ∀ (s : State) (n i : Nat), paramsLegal s.params = true → 1 ≤ n → n ≤ s.params.maxKeyLen → i < s.params.probeLimit →
    ProbeReaches s n i → ¬ occupiedAt s.table (attemptBucket s n i) →
    ∃ m,
      exec (.count n) s = .next
        { s with
          table := m
          resHash := keyHash s.params (keyOf s n)
          resHome := indexWord (keyHome s.params (keyOf s n))
          resIdx := indexWord (attemptBucket s n i)
          resCount := 1
          resInfo := 0#8 ++ BitVec.ofNat 8 n ++ 0#6 ++ 0#1 ++ 1#1 ++ 0#1 ++ BitVec.ofNat 7 (i + 1)
          status := { s.status with busy := false, done := true }
          pending := none } ∧
      (m.read (attemptBucket s n i)).length = n ∧ (m.read (attemptBucket s n i)).count = 1 ∧
      (∀ j < n, (m.read (attemptBucket s n i)).byteAt j = bufByte s.keybuf j) ∧
      (∀ j, n ≤ j → (m.read (attemptBucket s n i)).byteAt j = (s.table.read (attemptBucket s n i)).byteAt j) ∧
      (∀ c, c ≠ attemptBucket s n i → m.read c = s.table.read c)

/-- 42_counter.md R144, R141: COUNT whose first empty or matching bucket, at attempt `i`, holds the key increments its count, in the mode sampled at
acceptance, and changes nothing else of the table. -/
def Obligations.CountIncrementsMatchingBucket : Prop :=
  ∀ (s : State) (n i : Nat) (w : Word) (sat : Bool), s.pending = some { word := w, sat := sat } →
    1 ≤ n → n ≤ s.params.maxKeyLen → i < s.params.probeLimit →
    ProbeReaches s n i → HoldsKeybuf s n (attemptBucket s n i) →
    ∃ m c, c = (s.table.read (attemptBucket s n i)).count ∧
      exec (.count n) s = .next
        { s with
          table := m
          resHash := keyHash s.params (keyOf s n)
          resHome := indexWord (keyHome s.params (keyOf s n))
          resIdx := indexWord (attemptBucket s n i)
          resCount := if c = 0xFFFFFFFF then (if sat then 0xFFFFFFFF else 0x00000000) else c + 1
          resInfo := 0#8 ++ BitVec.ofNat 8 n ++ 0#6 ++ 1#1 ++ 0#1 ++ 0#1 ++ BitVec.ofNat 7 (i + 1)
          status := { s.status with
            busy := false, done := true, cntOvf := s.status.cntOvf || decide (c = 0xFFFFFFFF) }
          pending := none } ∧
      m.read (attemptBucket s n i) =
        { s.table.read (attemptBucket s n i) with
          count := if c = 0xFFFFFFFF then (if sat then 0xFFFFFFFF else 0x00000000) else c + 1 } ∧
      (∀ b, b ≠ attemptBucket s n i → m.read b = s.table.read b)

/-- 42_counter.md R143, R141, R140: INCR of an occupied bucket increments its count, in the mode sampled at acceptance: `c + 1` below 0xFFFFFFFF; at it,
0 under wraparound and 0xFFFFFFFF under saturating, with CNT_OVF. No other field of the table changes. -/
def Obligations.IncrResult : Prop :=
  ∀ (s : State) (idx : Nat) (w : Word) (sat : Bool), s.pending = some { word := w, sat := sat } →
    idx < s.params.capacity → occupiedAt s.table idx →
    ∃ m c, c = (s.table.read idx).count ∧
      exec (.incr idx) s = .next
        { s with
          table := m
          resIdx := BitVec.ofNat 32 idx
          resCount := if c = 0xFFFFFFFF then (if sat then 0xFFFFFFFF else 0x00000000) else c + 1
          resInfo := 0#8 ++ BitVec.ofNat 8 (s.table.read idx).length ++ 0#16
          status := { s.status with
            busy := false, done := true, cntOvf := s.status.cntOvf || decide (c = 0xFFFFFFFF) }
          pending := none } ∧
      m.read idx =
        { s.table.read idx with
          count := if c = 0xFFFFFFFF then (if sat then 0xFFFFFFFF else 0x00000000) else c + 1 } ∧
      (∀ b, b ≠ idx → m.read b = s.table.read b)

/-- 44_interface.md R171: RDBKT of an index in the table copies the bucket: key bytes below MAX_KEY_LEN, 0 from there to byte 127, count and length;
it writes no bucket and nothing else. -/
def Obligations.RdbktResult : Prop :=
  ∀ (s : State) (idx : Nat), idx < s.params.capacity →
    ∃ buf,
      exec (.rdbkt idx) s = .next
        { s with
          bktkey := buf
          resIdx := BitVec.ofNat 32 idx
          resCount := (s.table.read idx).count
          resInfo := 0#8 ++ BitVec.ofNat 8 (s.table.read idx).length ++ 0#16
          status := { s.status with busy := false, done := true }
          pending := none } ∧
      (∀ j < 128, bufByte buf j = if j < s.params.maxKeyLen then (s.table.read idx).byteAt j else 0)

/-- 43_topk.md R155, 10_state.md R48: TOPK publishes the filled slots of the scan: TOPK_NUM, and for each of the K slots VALID with the index and the
count, or 0; nothing else changes. -/
def Obligations.TopkPublishesScan : Prop :=
  ∀ s : State, paramsLegal s.params = true →
    ∃ idx cnt,
      exec .topk s = .next
        { s with
          topkNum := BitVec.ofNat 32 (filledSlots (scan s.params s.table)).length
          topkIdx := idx
          topkCnt := cnt
          status := { s.status with busy := false, done := true }
          pending := none } ∧
      (∀ j e, j < s.params.k → (filledSlots (scan s.params s.table))[j]? = some e →
        wordAt idx j = 1#1 ++ 0#7 ++ BitVec.ofNat 24 e.bucket ∧ wordAt cnt j = e.count) ∧
      (∀ j, j < s.params.k → (filledSlots (scan s.params s.table))[j]? = none → wordAt idx j = 0 ∧ wordAt cnt j = 0) ∧
      (∀ j, s.params.k ≤ j → wordAt idx j = wordAt s.topkIdx j ∧ wordAt cnt j = wordAt s.topkCnt j)

/-- 43_topk.md R156: the scan over the listed buckets that TOPK runs is the scan of the rule over every bucket in index order. -/
def Obligations.ScanVisitsEveryBucket : Prop :=
  ∀ (p : Params) (m : Memory), Memory.wf m = true → scan p m = scanAllBuckets p m

/-- 43_topk.md R158, R159, R157: the slots of the scan are the first `min(K, number of occupied buckets)` of the occupied buckets ordered by count
descending and index ascending, in that order, and the EMPTY slots follow them. -/
def Obligations.TopkCharacterisation : Prop :=
  ∀ (p : Params) (m : Memory), Memory.wf m = true →
    let r := filledSlots (scan p m)
    scan p m = r.map some ++ List.replicate (p.k - r.length) none ∧
    r.length = min p.k (occupiedBuckets p m).length ∧
    r.Pairwise ranksBefore ∧
    (∀ e ∈ r, ∃ b ∈ occupiedBuckets p m, e = slotOf m b) ∧
    (∀ b ∈ occupiedBuckets p m, slotOf m b ∉ r → ∀ e ∈ r, ranksBefore e (slotOf m b))

/-- 43_topk.md R161, R163: TOPK returns at most K entries with counts that do not increase, and on a table with no occupied bucket none. -/
def Obligations.TopkBoundedAndSorted : Prop :=
  ∀ (s t : State), paramsLegal s.params = true → exec .topk s = .next t →
    t.topkNum.toNat ≤ s.params.k ∧
    (∀ i j, i ≤ j → j < t.topkNum.toNat → wordAt t.topkCnt j ≤ wordAt t.topkCnt i) ∧
    ((∀ b, ¬ occupiedAt s.table b) →
      t.topkNum = 0 ∧ ∀ j < s.params.k, wordAt t.topkIdx j = 0 ∧ wordAt t.topkCnt j = 0)

/-- 43_topk.md R162: the first `k` slots of the scan are the scan with K = k. -/
def Obligations.SmallerSelectionIsInitialSlots : Prop :=
  ∀ (p : Params) (m : Memory) (k : Nat), k ≤ p.k →
    scan { p with k := k } m = (scan p m).take k

/-! ## Frames and derived properties -/

/-- 10_state.md R56, R49: what each command leaves unchanged, on success and on error alike: no command writes CTRL, CMD, KEYBUF, the parameters or the
host; BKTKEY is RDBKT's alone, the top-K file TOPK's alone, RES_HASH and RES_HOME those of HASH, FIND and COUNT, the other results those of FIND,
COUNT, INCR and RDBKT; the sticky OVR and INIT are no command's. -/
def Obligations.CommandFrame : Prop :=
  ∀ (i : Instr) (s t : State), exec i s = .next t →
    t.params = s.params ∧ t.secondHost = s.secondHost ∧ t.ctrl = s.ctrl ∧ t.cmd = s.cmd ∧ t.keybuf = s.keybuf ∧
    t.host = s.host ∧ t.sched = s.sched ∧ t.tick = s.tick ∧ t.status.ovr = s.status.ovr ∧ t.status.init = s.status.init ∧
    ((∀ idx, i ≠ .rdbkt idx) → t.bktkey = s.bktkey) ∧
    (i ≠ .topk → t.topkNum = s.topkNum ∧ t.topkIdx = s.topkIdx ∧ t.topkCnt = s.topkCnt) ∧
    ((∀ n, i ≠ .hash n ∧ i ≠ .find n ∧ i ≠ .count n) → t.resHash = s.resHash ∧ t.resHome = s.resHome) ∧
    ((∀ n, i ≠ .find n ∧ i ≠ .count n ∧ i ≠ .incr n ∧ i ≠ .rdbkt n) →
      t.resIdx = s.resIdx ∧ t.resCount = s.resCount ∧ t.resInfo = s.resInfo) ∧
    ((∀ n, i ≠ .count n ∧ i ≠ .incr n) → t.status.cntOvf = s.status.cntOvf)

/-- 10_state.md R56, 43_topk.md R164, 42_counter.md R140: which buckets a command leaves unchanged: all of them for NOP, HASH, TOPK and RDBKT; every
bucket but its operand for INCR; every bucket but the one findOrInsert returns for FIND and COUNT, and all of them when it raises an error. -/
def Obligations.TableFrame : Prop :=
  ∀ (i : Instr) (s t : State), exec i s = .next t →
    ((i = .nop ∨ i = .topk ∨ (∃ n, i = .hash n) ∨ ∃ idx, i = .rdbkt idx) → ∀ b, t.table.read b = s.table.read b) ∧
    (∀ idx, i = .incr idx → ∀ b, b ≠ idx → t.table.read b = s.table.read b) ∧
    (∀ n, i = .find n ∨ i = .count n →
      (∀ f, findOrInsert s n = .ok f → ∀ b, b ≠ f.bucket → t.table.read b = s.table.read b) ∧
      (∀ e, findOrInsert s n = .error e → ∀ b, t.table.read b = s.table.read b))

/-- 42_counter.md R146: COUNT leaves the table and RES_IDX, RES_COUNT, RES_HASH and RES_HOME as FIND followed by INCR of RES_IDX would. -/
def Obligations.CountIsFindThenIncr : Prop :=
  ∀ (n : Nat) (s t : State), paramsLegal s.params = true → runCommand (.count n) s = .next t → t.status.err = false →
    ∃ u v, runCommand (.find n) s = .next u ∧ u.status.err = false ∧
      runCommand (.incr u.resIdx.toNat) u = .next v ∧ v.status.err = false ∧
      v.table = t.table ∧ v.resIdx = t.resIdx ∧ v.resCount = t.resCount ∧ v.resHash = t.resHash ∧ v.resHome = t.resHome

/-- 42_counter.md R148: where no increment of the command hits 0xFFFFFFFF, the two counter modes give the same state. -/
def Obligations.CounterModesAgreeBelowTop : Prop :=
  ∀ (i : Instr) (s t : State) (w : Word), s.status.cntOvf = false →
    exec i { s with pending := some { word := w, sat := true } } = .next t → t.status.cntOvf = false →
    exec i { s with pending := some { word := w, sat := false } } = .next t

/-- 42_counter.md R145 for COUNTs with nothing between: `k + 1` COUNT commands of one key one right after another, the first of them claiming
its bucket, leave the count of that bucket at `k + 1`; past 2^32 - 1 at that number modulo 2^32 under wraparound and at 0xFFFFFFFF under
saturating. Other commands between the COUNTs, and a first COUNT that finds the key (42_counter.md R144), are not in it. -/
def Obligations.RepeatedCountCounts : Prop :=
  ∀ (n : Nat) (s t : State), MachineInv s → runCommand (.count n) s = .next t → t.status.err = false →
    t.resInfo.getLsbD 8 = true →
    ∀ k, ∃ u, repeatCommand (.count n) (k + 1) s = .next u ∧ u.status.err = false ∧ u.resIdx = t.resIdx ∧
      (u.table.read u.resIdx.toNat).count =
        (if s.ctrl.cntSat then BitVec.ofNat 32 (min (k + 1) 0xFFFFFFFF) else BitVec.ofNat 32 (k + 1))

/-- 41_table_lookup.md R131, R135: a key stored in the table is found in its own bucket, whatever else the table holds, and the bucket a successful
findOrInsert returns holds its key, so different keys never share one. -/
def Obligations.StoredKeyIsFoundInItsBucket : Prop :=
  (∀ (p : Params) (m : Memory) (b : Nat), TableInv p m → occupiedAt m b →
    ∃ f, findOrInsertKey p m (keyAt m b) = .ok f ∧ f.bucket = b ∧ f.claimed = false ∧ f.table = m) ∧
  (∀ (p : Params) (m : Memory) (k : List Byte) (f : Found), k ≠ [] → k.length ≤ 128 →
    findOrInsertKey p m k = .ok f → keyAt f.table f.bucket = k ∧ occupiedAt f.table f.bucket)

/-! ## Invariants and whole-machine rules -/

/-- The state after reset meets the machine's invariant (10_state.md R57). -/
def Obligations.ResetMeetsMachineInv : Prop := MachineInv State.reset

/-- 10_state.md R45 with R30 to R32, R40 to R43, R48, R53: every step of the machine, the host's and the sequencer's and a reset, keeps the invariant:
the table's items 1, 4 and 5, the agreement of BUSY with the latch and the sweep, and the shape of every result register. -/
def Obligations.EveryStepKeepsMachineInv : Prop :=
  ∀ (s t : State), MachineInv s → step s = .next t → MachineInv t

/-- 10_state.md R45 items 2 and 3, R46: no step but the end of the reset sweep changes the key of an occupied bucket or makes it empty. -/
def Obligations.OccupiedBucketsStay : Prop :=
  ∀ (s t : State) (b : Nat), MachineInv s → step s = .next t → occupiedAt s.table b →
    (occupiedAt t.table b ∧ keyAt t.table b = keyAt s.table b ∧ (t.table.read b).length = (s.table.read b).length) ∨
    (s.status.init = true ∧ t.status.init = false)

/-- 10_state.md R34: ERRS, once set, is cleared only by a host write of 1 to bit 3 of STATUS or by reset. -/
def Obligations.ErrsIsSticky : Prop :=
  ∀ (s t : State), step s = .next t → s.status.errs = true → t.status.errs = false →
    t = enterReset (dropMove s) ∨
    ∃ a v, hostStmt s = some (.wr a v) ∧
      ((a.offset = 0x008 ∧ v.getLsbD 3 = true) ∨ (a.offset = 0x004 ∧ v.getLsbD 31 = true))

/-- 60_exceptions.md R195, R196: irq rises only at the completion of a command, or when the host sets IE with DONE still 1. -/
def Obligations.IrqRisesOnlyAtCompletionOrEnable : Prop :=
  ∀ (s t : State), step s = .next t → irq s = false → irq t = true →
    (s.status.init = false ∧ s.pending.isSome = true ∧ t.pending = none ∧ t.status.done = true ∧ t.ctrl = s.ctrl) ∨
    (s.status.done = true ∧ ∃ a v, hostStmt s = some (.wr a v) ∧ a.offset = 0x004 ∧ v.getLsbD 0 = true)

/-- 20_memory.md R71, 70_reset_and_hazards.md R221: while a command is pending, a move of the host other than a reset leaves the table, the result
registers, the top-K file, BKTKEY, KEYBUF, CMD, the latch, BUSY, ERR and ERR_CODE as they were at acceptance. -/
def Obligations.ResultsStayUntilCompletion : Prop :=
  ∀ (s t : State), s.status.busy = true → hostMove s = .next t →
    (∃ a v, hostStmt s = some (.wr a v) ∧ a.offset = 0x004 ∧ v.getLsbD 31 = true) ∨
    (t.table = s.table ∧ t.resHash = s.resHash ∧ t.resHome = s.resHome ∧ t.resIdx = s.resIdx ∧ t.resCount = s.resCount ∧
      t.resInfo = s.resInfo ∧ t.topkNum = s.topkNum ∧ t.topkIdx = s.topkIdx ∧ t.topkCnt = s.topkCnt ∧
      t.bktkey = s.bktkey ∧ t.keybuf = s.keybuf ∧ t.cmd = s.cmd ∧ t.pending = s.pending ∧ t.params = s.params ∧
      t.status.busy = true ∧ t.status.err = s.status.err ∧ t.status.errCode = s.status.errCode)
end

