-- ==== Sys2Proof/Laws/Bits.lean ====
section
/-! SUPPORT. Extensions and LE16 as numbers (00_scope.md R12); reading back register arrays and packed buffers
(20_memory.md R64). -/

namespace Sys2Proof.Machine

/-- LE16 as a number (00_scope.md R12). -/
theorem le16_eq (x y : Byte) : le16 x y = BitVec.ofNat 32 (x.toNat + 256 * y.toNat) := by
  apply BitVec.eq_of_toNat_eq
  simp only [le16, zext32, BitVec.toNat_add, BitVec.toNat_setWidth, BitVec.toNat_shiftLeft, BitVec.toNat_ofNat,
    Nat.shiftLeft_eq]
  omega

/-- `sext_32` as a number (00_scope.md R12). -/
theorem sext32_eq (x : Byte) :
    sext32 x = BitVec.ofNat 32 (if 128 ≤ x.toNat then x.toNat + 0xFFFFFF00 else x.toNat) := by
  revert x
  decide +kernel

/-- `zext_32` as a number (00_scope.md R12). -/
theorem zext32_eq (x : Byte) : zext32 x = BitVec.ofNat 32 x.toNat := by
  apply BitVec.eq_of_toNat_eq
  simp only [zext32, BitVec.toNat_setWidth, BitVec.toNat_ofNat]

theorem wordAt_of_lt {n : Nat} (v : Vector Word n) {j : Nat} (h : j < n) : wordAt v j = v[j] := by
  simp [wordAt, h]

theorem wordAt_of_ge {n : Nat} (v : Vector Word n) {j : Nat} (h : n ≤ j) : wordAt v j = 0 := by
  simp [wordAt, h]

@[simp] theorem wordAt_replicate (n j : Nat) : wordAt (Vector.replicate n 0#32) j = 0#32 := by
  by_cases h : j < n
  · rw [wordAt_of_lt _ h]; simp
  · exact wordAt_of_ge _ (by omega)

theorem wordAt_setIfInBounds_self {n : Nat} (v : Vector Word n) {j : Nat} (x : Word) (h : j < n) :
    wordAt (v.setIfInBounds j x) j = x := by
  rw [wordAt_of_lt _ h]; simp

theorem wordAt_setIfInBounds_other {n : Nat} (v : Vector Word n) {i j : Nat} (x : Word) (h : i ≠ j) :
    wordAt (v.setIfInBounds i x) j = wordAt v j := by
  by_cases hj : j < n
  · rw [wordAt_of_lt _ hj, wordAt_of_lt _ hj, Vector.getElem_setIfInBounds]
    simp [h]
  · rw [wordAt_of_ge _ (by omega), wordAt_of_ge _ (by omega)]

theorem wordAt_ofFn {n : Nat} (f : Fin n → Word) {j : Nat} (h : j < n) : wordAt (Vector.ofFn f) j = f ⟨j, h⟩ := by
  rw [wordAt_of_lt _ h]; simp

/-- The four bytes of a little-endian word. -/
theorem extract_packWord (b0 b1 b2 b3 : Byte) :
    (packWord b0 b1 b2 b3).extractLsb' 0 8 = b0 ∧ (packWord b0 b1 b2 b3).extractLsb' 8 8 = b1 ∧
      (packWord b0 b1 b2 b3).extractLsb' 16 8 = b2 ∧ (packWord b0 b1 b2 b3).extractLsb' 24 8 = b3 := by
  refine ⟨?_, ?_, ?_, ?_⟩ <;>
    (apply BitVec.eq_of_getLsbD_eq
     intro i hi
     simp only [packWord, BitVec.getLsbD_extractLsb', BitVec.getLsbD_append, hi, decide_true, Bool.true_and]
     repeat' split
     all_goals first | omega | (congr 1; omega))

@[simp] theorem bufByte_replicate (j : Nat) : bufByte (Vector.replicate 32 0#32) j = 0#8 := by
  simp [bufByte]

/-- Byte `j` of a packed buffer is what was packed there. -/
theorem bufByte_packBytes (f : Nat → Byte) {j : Nat} (h : j < 128) : bufByte (packBytes f) j = f j := by
  have hw : j / 4 < 32 := by omega
  have h4 : j % 4 < 4 := Nat.mod_lt _ (by omega)
  unfold bufByte packBytes
  rw [wordAt_ofFn _ hw]
  obtain ⟨e0, e1, e2, e3⟩ := extract_packWord (f (4 * (j / 4))) (f (4 * (j / 4) + 1)) (f (4 * (j / 4) + 2)) (f (4 * (j / 4) + 3))
  have hc : j % 4 = 0 ∨ j % 4 = 1 ∨ j % 4 = 2 ∨ j % 4 = 3 := by omega
  rcases hc with h0 | h0 | h0 | h0 <;> rw [h0]
  · rw [show 8 * 0 = 0 from rfl, e0]; congr 1; omega
  · rw [show 8 * 1 = 8 from rfl, e1]; congr 1; omega
  · rw [show 8 * 2 = 16 from rfl, e2]; congr 1; omega
  · rw [show 8 * 3 = 24 from rfl, e3]; congr 1; omega

@[simp] theorem byteAt_empty (j : Nat) : Bucket.empty.byteAt j = 0#8 := by
  by_cases h : j < 128
  · simp [Bucket.byteAt, Bucket.empty, h]
  · simp [Bucket.byteAt, Bucket.empty, h]

@[simp] theorem empty_length : Bucket.empty.length = 0 := rfl

@[simp] theorem empty_count : Bucket.empty.count = 0 := rfl

end Sys2Proof.Machine
end

