-- ==== Sys2Proof/Laws/Memory.lean ====
section
/-! SUPPORT. The table's laws: a read after a write, what a write leaves alone, and the canonical form
(20_memory.md R66). -/

namespace Sys2Proof.Machine

@[simp] theorem Memory.read_nil (b : Nat) : Memory.read [] b = Bucket.empty := rfl

theorem Memory.read_cons (a : Nat) (v : Bucket) (m : Memory) (b : Nat) :
    Memory.read ((a, v) :: m) b = if a = b then v else Memory.read m b := rfl

theorem Memory.wf_cons (a : Nat) (v : Bucket) (m : Memory) :
    Memory.wf ((a, v) :: m) = true ↔ v ≠ Bucket.empty ∧ (∀ c ∈ m, a < c.1) ∧ Memory.wf m = true := by
  simp [Memory.wf, and_assoc]

/-- An index below every listed one reads as the empty bucket. -/
theorem Memory.read_of_forall_lt {m : Memory} {b : Nat} (h : ∀ c ∈ m, b < c.1) : Memory.read m b = Bucket.empty := by
  induction m with
  | nil => rfl
  | cons c m ih =>
    obtain ⟨a, v⟩ := c
    have hab : b < a := h (a, v) (by simp)
    rw [Memory.read_cons, if_neg (by omega)]
    exact ih fun c hc => h c (by simp [hc])

/-- A write leaves every other bucket alone. -/
theorem Memory.read_write_other (m : Memory) (v : Bucket) {b c : Nat} (h : c ≠ b) :
    (Memory.write m b v).read c = m.read c := by
  induction m with
  | nil =>
    simp only [Memory.write]
    split <;> simp [Memory.read, h.symm]
  | cons e m ih =>
    obtain ⟨a, u⟩ := e
    simp only [Memory.write]
    split
    · split <;> simp [Memory.read, h.symm]
    · split
      · rename_i hab
        subst hab
        split <;> simp [Memory.read, h.symm]
      · simp only [Memory.read_cons, ih]

/-- A bucket that is not the empty one is read back as it was written. -/
theorem Memory.read_write_self (m : Memory) {v : Bucket} (b : Nat) (hv : v ≠ Bucket.empty) :
    (Memory.write m b v).read b = v := by
  induction m with
  | nil => simp [Memory.write, hv, Memory.read]
  | cons e m ih =>
    obtain ⟨a, u⟩ := e
    simp only [Memory.write]
    split
    · simp [Memory.read]
    · split
      · simp [Memory.read]
      · rename_i h1 h2
        rw [Memory.read_cons, if_neg (Ne.symm h2), ih]

/-- Every bucket is read back as it was written in a table in canonical form. -/
theorem Memory.read_write_self_of_wf {m : Memory} (hm : Memory.wf m = true) (b : Nat) (v : Bucket) :
    (Memory.write m b v).read b = v := by
  by_cases hv : v = Bucket.empty
  · subst hv
    induction m with
    | nil => simp [Memory.write]
    | cons e m ih =>
      obtain ⟨a, u⟩ := e
      obtain ⟨-, hlt, hwf⟩ := (Memory.wf_cons a u m).1 hm
      simp only [Memory.write, if_true]
      split
      · rename_i hba
        rw [Memory.read_cons, if_neg (by omega)]
        exact Memory.read_of_forall_lt fun c hc => lt_trans hba (hlt c hc)
      · split
        · rename_i hba
          subst hba
          exact Memory.read_of_forall_lt hlt
        · rename_i h1 h2
          rw [Memory.read_cons, if_neg (Ne.symm h2), ih hwf]
  · exact Memory.read_write_self m b hv

/-- Every entry after a write is the written one or an entry from before. -/
theorem Memory.mem_write {m : Memory} {b : Nat} {v : Bucket} {c : Nat × Bucket} (h : c ∈ Memory.write m b v) :
    c = (b, v) ∨ c ∈ m := by
  induction m with
  | nil =>
    simp only [Memory.write] at h
    split at h <;> simp_all
  | cons e m ih =>
    obtain ⟨a, u⟩ := e
    simp only [Memory.write] at h
    split at h
    · split at h <;> simp_all
    · split at h
      · split at h <;> simp_all
        tauto
      · rcases List.mem_cons.1 h with h | h
        · right; simp [h]
        · rcases ih h with h | h
          · left; exact h
          · right; simp [h]

/-- A write keeps the canonical form. -/
theorem Memory.wf_write {m : Memory} (hm : Memory.wf m = true) (b : Nat) (v : Bucket) :
    Memory.wf (Memory.write m b v) = true := by
  induction m with
  | nil =>
    simp only [Memory.write]
    split
    · rfl
    · rename_i hv; simp [Memory.wf, hv]
  | cons e m ih =>
    obtain ⟨a, u⟩ := e
    obtain ⟨hu, hlt, hwf⟩ := (Memory.wf_cons a u m).1 hm
    simp only [Memory.write]
    split
    · rename_i hba
      split
      · exact hm
      · rename_i hv
        refine (Memory.wf_cons b v _).2 ⟨hv, fun c hc => ?_, hm⟩
        rcases List.mem_cons.1 hc with hc | hc
        · subst hc; exact hba
        · exact lt_trans hba (hlt c hc)
    · split
      · rename_i hba
        subst hba
        split
        · exact hwf
        · rename_i hv
          exact (Memory.wf_cons b v m).2 ⟨hv, hlt, hwf⟩
      · refine (Memory.wf_cons a u _).2 ⟨hu, fun c hc => ?_, ih hwf⟩
        rcases Memory.mem_write hc with hc | hc
        · subst hc; simp only; omega
        · exact hlt c hc

/-- A bucket that is not empty is listed. -/
theorem Memory.mem_of_read_ne {m : Memory} {b : Nat} (h : m.read b ≠ Bucket.empty) : (b, m.read b) ∈ m := by
  induction m with
  | nil => simp at h
  | cons e m ih =>
    obtain ⟨a, u⟩ := e
    rw [Memory.read_cons] at h ⊢
    split
    · rename_i hab; simp [hab]
    · rename_i hab
      rw [if_neg hab] at h
      simp [ih h]

/-- A listed bucket of a table in canonical form is read as listed. -/
theorem Memory.read_of_mem {m : Memory} (hm : Memory.wf m = true) {b : Nat} {v : Bucket} (h : (b, v) ∈ m) :
    m.read b = v := by
  induction m with
  | nil => simp at h
  | cons e m ih =>
    obtain ⟨a, u⟩ := e
    obtain ⟨-, hlt, hwf⟩ := (Memory.wf_cons a u m).1 hm
    rcases List.mem_cons.1 h with h | h
    · simp only [Prod.mk.injEq] at h
      obtain ⟨rfl, rfl⟩ := h
      simp [Memory.read]
    · have := hlt _ h
      rw [Memory.read_cons, if_neg (by simp only at this; omega)]
      exact ih hwf h

/-- The canonical form holds at reset. -/
theorem Memory.wf_reset : Memory.wf State.reset.table = true := rfl

/-- Two tables in canonical form that read alike are equal data. -/
theorem Memory.ext_read {m m' : Memory} (hm : Memory.wf m = true) (hm' : Memory.wf m' = true)
    (h : ∀ b, m.read b = m'.read b) : m = m' := by
  induction m generalizing m' with
  | nil =>
    cases m' with
    | nil => rfl
    | cons e m' =>
      obtain ⟨a, u⟩ := e
      have hu := ((Memory.wf_cons a u m').1 hm').1
      have := h a
      simp [Memory.read] at this
      exact absurd this.symm hu
  | cons e m ih =>
    obtain ⟨a, u⟩ := e
    obtain ⟨hu, hlt, hwf⟩ := (Memory.wf_cons a u m).1 hm
    cases m' with
    | nil =>
      have := h a
      simp [Memory.read] at this
      exact absurd this hu
    | cons e' m' =>
      obtain ⟨a', u'⟩ := e'
      obtain ⟨hu', hlt', hwf'⟩ := (Memory.wf_cons a' u' m').1 hm'
      have haa : a = a' := by
        rcases lt_trichotomy a a' with hl | hl | hl
        · have := h a
          rw [Memory.read_cons, if_pos rfl, Memory.read_cons, if_neg (by omega),
            Memory.read_of_forall_lt fun c hc => lt_trans hl (hlt' c hc)] at this
          exact absurd this hu
        · exact hl
        · have := h a'
          rw [Memory.read_cons, if_neg (by omega), Memory.read_cons, if_pos rfl,
            Memory.read_of_forall_lt fun c hc => lt_trans hl (hlt c hc)] at this
          exact absurd this.symm hu'
      subst haa
      have huu : u = u' := by simpa [Memory.read] using h a
      subst huu
      congr 1
      refine ih hwf hwf' fun b => ?_
      by_cases hb : a = b
      · subst hb
        rw [Memory.read_of_forall_lt hlt, Memory.read_of_forall_lt hlt']
      · simpa [Memory.read, hb] using h b

end Sys2Proof.Machine
end

