-- ==== Sys2Proof/Laws/Lookup.lean ====
section
/-! SUPPORT. What the lookup unit can do: the key compare, the first stop of the probe, and the one lemma that says
everything findOrInsert answers (41_table_lookup.md R120 to R126). -/

namespace Sys2Proof.Machine

@[simp] theorem storedKey_length (b : Bucket) : b.storedKey.length = b.length := by simp [Bucket.storedKey]

@[simp] theorem keyOf_length (s : State) (n : Nat) : (keyOf s n).length = n := by simp [keyOf]

/-- A bucket holds a key exactly when its stored key is that key. -/
theorem holdsKey_iff (b : Bucket) (k : List Byte) : holdsKey b k = true ↔ b.storedKey = k := by
  simp only [holdsKey, Bool.and_eq_true, beq_iff_eq]
  constructor
  · exact fun h => h.2
  · exact fun h => ⟨by rw [← h, storedKey_length], h⟩

/-- The key compare against KEYBUF, byte by byte (00_scope.md R14). -/
theorem storedKey_eq_keyOf_iff (s : State) (n b : Nat) :
    (s.table.read b).storedKey = keyOf s n ↔ HoldsKeybuf s n b := by
  constructor
  · intro h
    have hl : (s.table.read b).length = n := by simpa using congrArg List.length h
    refine ⟨hl, fun j hj => ?_⟩
    have := congrArg (fun l => l[j]?) h
    simpa [Bucket.storedKey, keyOf, hl, hj] using this
  · rintro ⟨hl, h⟩
    simp only [Bucket.storedKey, keyOf, hl]
    exact List.map_congr_left fun j hj => h j (by simpa using hj)

theorem stopsAt_iff (p : Params) (m : Memory) (k : List Byte) (home i : Nat) :
    stopsAt p m k home i = true ↔ ¬ occupiedAt m (probe p home i) ∨ keyAt m (probe p home i) = k := by
  simp [stopsAt, holdsKey_iff, occupiedAt, keyAt]

/-- The probe stops first at attempt `i`: no attempt before stops, and `i` does (41_table_lookup.md R126). -/
theorem firstStop_eq_some_iff (p : Params) (m : Memory) (k : List Byte) (home i : Nat) :
    firstStop p m k home = some i ↔ i < p.probeLimit ∧ stopsAt p m k home i = true ∧
      ∀ j < i, stopsAt p m k home j = false := by
  simp only [firstStop, List.find?_range_eq_some, List.mem_range, Bool.not_eq_true']
  tauto

/-- The probe is exhausted: no attempt stops (41_table_lookup.md R125). -/
theorem firstStop_eq_none_iff (p : Params) (m : Memory) (k : List Byte) (home : Nat) :
    firstStop p m k home = none ↔ ∀ i < p.probeLimit, stopsAt p m k home i = false := by
  simp [firstStop]

/-- Everything findOrInsert answers on a key: exhaustion, a claim at the first stop, or a match there. -/
theorem findOrInsertKey_cases (p : Params) (m : Memory) (k : List Byte) :
    (firstStop p m k (keyHome p k) = none ∧ findOrInsertKey p m k = .error .insertionExhausted) ∨
    (∃ i, firstStop p m k (keyHome p k) = some i ∧ (m.read (probe p (keyHome p k) i)).length = 0 ∧
      findOrInsertKey p m k = .ok
        { hash := keyHash p k, home := keyHome p k, bucket := probe p (keyHome p k) i, attempt := i, claimed := true
          table := m.write (probe p (keyHome p k) i) (claimed (m.read (probe p (keyHome p k) i)) k) }) ∨
    (∃ i, firstStop p m k (keyHome p k) = some i ∧ (m.read (probe p (keyHome p k) i)).length ≠ 0 ∧
      keyAt m (probe p (keyHome p k) i) = k ∧
      findOrInsertKey p m k = .ok
        { hash := keyHash p k, home := keyHome p k, bucket := probe p (keyHome p k) i, attempt := i, claimed := false
          table := m }) := by
  unfold findOrInsertKey
  simp only [← keyHome.eq_1]
  cases h : firstStop p m k (keyHome p k) with
  | none => left; simp
  | some i =>
    right
    by_cases hl : (m.read (probe p (keyHome p k) i)).length = 0
    · left; exact ⟨i, rfl, hl, by simp [hl]⟩
    · right
      refine ⟨i, rfl, hl, ?_, by simp [hl]⟩
      have hs := ((firstStop_eq_some_iff p m k _ i).1 h).2.1
      rcases (stopsAt_iff p m k _ i).1 hs with h' | h'
      · exact absurd hl (by simpa [occupiedAt] using h')
      · exact h'

/-- The probed index is an index of the table (41_table_lookup.md R122). -/
theorem probe_lt (p : Params) (home i : Nat) (h : 1 ≤ p.capacity) : probe p home i < p.capacity := by
  unfold probe
  have h0 : (0 : Int) < p.capacity := by omega
  have h1 := Int.emod_nonneg ((home : Int) + probeOffset i) (ne_of_gt h0)
  have h2 := Int.emod_lt_of_pos ((home : Int) + probeOffset i) h0
  omega

theorem keyHome_lt (p : Params) (k : List Byte) (h : 1 ≤ p.capacity) : keyHome p k < p.capacity :=
  Nat.mod_lt _ h

@[simp] theorem claimed_length (b : Bucket) (k : List Byte) : (claimed b k).length = k.length := rfl

@[simp] theorem claimed_count (b : Bucket) (k : List Byte) : (claimed b k).count = 0 := rfl

/-- Claimed key bytes below the key's length. -/
theorem claimed_byteAt_lt (b : Bucket) (k : List Byte) {j : Nat} (hj : j < k.length) (h128 : j < 128) :
    (claimed b k).byteAt j = k[j] := by
  simp [Bucket.byteAt, claimed, h128, hj]

/-- A claim does not write the key bytes at and beyond the key's length (41_table_lookup.md R123). -/
theorem claimed_byteAt_ge (b : Bucket) (k : List Byte) {j : Nat} (hj : k.length ≤ j) :
    (claimed b k).byteAt j = b.byteAt j := by
  by_cases h128 : j < 128
  · simp [Bucket.byteAt, claimed, h128, hj]
  · simp [Bucket.byteAt, h128]

/-- The claimed bucket stores the key. -/
theorem claimed_storedKey (b : Bucket) {k : List Byte} (h : k.length ≤ 128) : (claimed b k).storedKey = k := by
  apply List.ext_getElem
  · simp
  · intro j h1 h2
    simp only [Bucket.storedKey, List.getElem_map, List.getElem_range]
    exact claimed_byteAt_lt b k h2 (by omega)

/-- A claimed bucket is not the empty one. -/
theorem claimed_ne_empty (b : Bucket) {k : List Byte} (h : k ≠ []) : claimed b k ≠ Bucket.empty := by
  intro he
  have := congrArg Bucket.length he
  simp at this
  exact h this

theorem ne_empty_of_length {b : Bucket} (h : b.length ≠ 0) : b ≠ Bucket.empty := by
  rintro rfl
  simp at h

theorem keyOf_ne_nil (s : State) {n : Nat} (h : n ≠ 0) : keyOf s n ≠ [] := by
  intro he
  have := congrArg List.length he
  simp at this
  exact h this

theorem keyOf_getElem (s : State) (n j : Nat) (h : j < (keyOf s n).length) : (keyOf s n)[j] = bufByte s.keybuf j := by
  simp [keyOf]

/-- Reading the table after the increment of bucket `b` (42_counter.md R140). -/
theorem read_incBucket_other (m : Memory) (b : Nat) (sat : Bool) {c : Nat} (h : c ≠ b) :
    (incBucket m b sat).read c = m.read c :=
  Memory.read_write_other m _ h

theorem read_incBucket_self (m : Memory) (b : Nat) (sat : Bool) (h : (m.read b).length ≠ 0) :
    (incBucket m b sat).read b = { m.read b with count := incCount (m.read b).count sat } :=
  Memory.read_write_self m b (ne_empty_of_length (by simpa using h))

end Sys2Proof.Machine
end

