-- ==== Sys2Proof/Laws/State.lean ====
section
/-! SUPPORT. What each shared update of the state does to each field: one lemma per field per update, so that no proof unfolds
a record update. -/

namespace Sys2Proof.Machine

@[simp] theorem complete_params (overflow : Bool) (s : State) : (complete overflow s).params = s.params := rfl
@[simp] theorem complete_secondHost (overflow : Bool) (s : State) : (complete overflow s).secondHost = s.secondHost := rfl
@[simp] theorem complete_ctrl (overflow : Bool) (s : State) : (complete overflow s).ctrl = s.ctrl := rfl
@[simp] theorem complete_status (overflow : Bool) (s : State) : (complete overflow s).status = s.status.completed overflow := rfl
@[simp] theorem complete_cmd (overflow : Bool) (s : State) : (complete overflow s).cmd = s.cmd := rfl
@[simp] theorem complete_resHash (overflow : Bool) (s : State) : (complete overflow s).resHash = s.resHash := rfl
@[simp] theorem complete_resHome (overflow : Bool) (s : State) : (complete overflow s).resHome = s.resHome := rfl
@[simp] theorem complete_resIdx (overflow : Bool) (s : State) : (complete overflow s).resIdx = s.resIdx := rfl
@[simp] theorem complete_resCount (overflow : Bool) (s : State) : (complete overflow s).resCount = s.resCount := rfl
@[simp] theorem complete_resInfo (overflow : Bool) (s : State) : (complete overflow s).resInfo = s.resInfo := rfl
@[simp] theorem complete_topkNum (overflow : Bool) (s : State) : (complete overflow s).topkNum = s.topkNum := rfl
@[simp] theorem complete_topkIdx (overflow : Bool) (s : State) : (complete overflow s).topkIdx = s.topkIdx := rfl
@[simp] theorem complete_topkCnt (overflow : Bool) (s : State) : (complete overflow s).topkCnt = s.topkCnt := rfl
@[simp] theorem complete_keybuf (overflow : Bool) (s : State) : (complete overflow s).keybuf = s.keybuf := rfl
@[simp] theorem complete_bktkey (overflow : Bool) (s : State) : (complete overflow s).bktkey = s.bktkey := rfl
@[simp] theorem complete_table (overflow : Bool) (s : State) : (complete overflow s).table = s.table := rfl
@[simp] theorem complete_pending (overflow : Bool) (s : State) : (complete overflow s).pending = none := rfl
@[simp] theorem complete_host (overflow : Bool) (s : State) : (complete overflow s).host = s.host := rfl
@[simp] theorem complete_sched (overflow : Bool) (s : State) : (complete overflow s).sched = s.sched := rfl
@[simp] theorem complete_tick (overflow : Bool) (s : State) : (complete overflow s).tick = s.tick := rfl
@[simp] theorem complete_waited (overflow : Bool) (s : State) : (complete overflow s).waited = s.waited := rfl

@[simp] theorem raise_params (e : CmdError) (s : State) : (raise e s).params = s.params := rfl
@[simp] theorem raise_secondHost (e : CmdError) (s : State) : (raise e s).secondHost = s.secondHost := rfl
@[simp] theorem raise_ctrl (e : CmdError) (s : State) : (raise e s).ctrl = s.ctrl := rfl
@[simp] theorem raise_status (e : CmdError) (s : State) : (raise e s).status = s.status.failed e := rfl
@[simp] theorem raise_cmd (e : CmdError) (s : State) : (raise e s).cmd = s.cmd := rfl
@[simp] theorem raise_resHash (e : CmdError) (s : State) : (raise e s).resHash = s.resHash := rfl
@[simp] theorem raise_resHome (e : CmdError) (s : State) : (raise e s).resHome = s.resHome := rfl
@[simp] theorem raise_resIdx (e : CmdError) (s : State) : (raise e s).resIdx = s.resIdx := rfl
@[simp] theorem raise_resCount (e : CmdError) (s : State) : (raise e s).resCount = s.resCount := rfl
@[simp] theorem raise_resInfo (e : CmdError) (s : State) : (raise e s).resInfo = s.resInfo := rfl
@[simp] theorem raise_topkNum (e : CmdError) (s : State) : (raise e s).topkNum = s.topkNum := rfl
@[simp] theorem raise_topkIdx (e : CmdError) (s : State) : (raise e s).topkIdx = s.topkIdx := rfl
@[simp] theorem raise_topkCnt (e : CmdError) (s : State) : (raise e s).topkCnt = s.topkCnt := rfl
@[simp] theorem raise_keybuf (e : CmdError) (s : State) : (raise e s).keybuf = s.keybuf := rfl
@[simp] theorem raise_bktkey (e : CmdError) (s : State) : (raise e s).bktkey = s.bktkey := rfl
@[simp] theorem raise_table (e : CmdError) (s : State) : (raise e s).table = s.table := rfl
@[simp] theorem raise_pending (e : CmdError) (s : State) : (raise e s).pending = none := rfl
@[simp] theorem raise_host (e : CmdError) (s : State) : (raise e s).host = s.host := rfl
@[simp] theorem raise_sched (e : CmdError) (s : State) : (raise e s).sched = s.sched := rfl
@[simp] theorem raise_tick (e : CmdError) (s : State) : (raise e s).tick = s.tick := rfl
@[simp] theorem raise_waited (e : CmdError) (s : State) : (raise e s).waited = s.waited := rfl

@[simp] theorem accept_params (w : Word) (s : State) : (accept w s).params = s.params := rfl
@[simp] theorem accept_secondHost (w : Word) (s : State) : (accept w s).secondHost = s.secondHost := rfl
@[simp] theorem accept_ctrl (w : Word) (s : State) : (accept w s).ctrl = s.ctrl := rfl
@[simp] theorem accept_status (w : Word) (s : State) : (accept w s).status = s.status.accepted := rfl
@[simp] theorem accept_cmd (w : Word) (s : State) : (accept w s).cmd = w := rfl
@[simp] theorem accept_resHash (w : Word) (s : State) : (accept w s).resHash = s.resHash := rfl
@[simp] theorem accept_resHome (w : Word) (s : State) : (accept w s).resHome = s.resHome := rfl
@[simp] theorem accept_resIdx (w : Word) (s : State) : (accept w s).resIdx = s.resIdx := rfl
@[simp] theorem accept_resCount (w : Word) (s : State) : (accept w s).resCount = s.resCount := rfl
@[simp] theorem accept_resInfo (w : Word) (s : State) : (accept w s).resInfo = s.resInfo := rfl
@[simp] theorem accept_topkNum (w : Word) (s : State) : (accept w s).topkNum = s.topkNum := rfl
@[simp] theorem accept_topkIdx (w : Word) (s : State) : (accept w s).topkIdx = s.topkIdx := rfl
@[simp] theorem accept_topkCnt (w : Word) (s : State) : (accept w s).topkCnt = s.topkCnt := rfl
@[simp] theorem accept_keybuf (w : Word) (s : State) : (accept w s).keybuf = s.keybuf := rfl
@[simp] theorem accept_bktkey (w : Word) (s : State) : (accept w s).bktkey = s.bktkey := rfl
@[simp] theorem accept_table (w : Word) (s : State) : (accept w s).table = s.table := rfl
@[simp] theorem accept_pending (w : Word) (s : State) : (accept w s).pending = some { word := w, sat := s.ctrl.cntSat } := rfl
@[simp] theorem accept_host (w : Word) (s : State) : (accept w s).host = s.host := rfl
@[simp] theorem accept_sched (w : Word) (s : State) : (accept w s).sched = s.sched := rfl
@[simp] theorem accept_tick (w : Word) (s : State) : (accept w s).tick = s.tick := rfl
@[simp] theorem accept_waited (w : Word) (s : State) : (accept w s).waited = s.waited := rfl

@[simp] theorem dropWrite_params (s : State) : (dropWrite s).params = s.params := rfl
@[simp] theorem dropWrite_secondHost (s : State) : (dropWrite s).secondHost = s.secondHost := rfl
@[simp] theorem dropWrite_ctrl (s : State) : (dropWrite s).ctrl = s.ctrl := rfl
@[simp] theorem dropWrite_status (s : State) : (dropWrite s).status = s.status.dropped := rfl
@[simp] theorem dropWrite_cmd (s : State) : (dropWrite s).cmd = s.cmd := rfl
@[simp] theorem dropWrite_resHash (s : State) : (dropWrite s).resHash = s.resHash := rfl
@[simp] theorem dropWrite_resHome (s : State) : (dropWrite s).resHome = s.resHome := rfl
@[simp] theorem dropWrite_resIdx (s : State) : (dropWrite s).resIdx = s.resIdx := rfl
@[simp] theorem dropWrite_resCount (s : State) : (dropWrite s).resCount = s.resCount := rfl
@[simp] theorem dropWrite_resInfo (s : State) : (dropWrite s).resInfo = s.resInfo := rfl
@[simp] theorem dropWrite_topkNum (s : State) : (dropWrite s).topkNum = s.topkNum := rfl
@[simp] theorem dropWrite_topkIdx (s : State) : (dropWrite s).topkIdx = s.topkIdx := rfl
@[simp] theorem dropWrite_topkCnt (s : State) : (dropWrite s).topkCnt = s.topkCnt := rfl
@[simp] theorem dropWrite_keybuf (s : State) : (dropWrite s).keybuf = s.keybuf := rfl
@[simp] theorem dropWrite_bktkey (s : State) : (dropWrite s).bktkey = s.bktkey := rfl
@[simp] theorem dropWrite_table (s : State) : (dropWrite s).table = s.table := rfl
@[simp] theorem dropWrite_pending (s : State) : (dropWrite s).pending = s.pending := rfl
@[simp] theorem dropWrite_host (s : State) : (dropWrite s).host = s.host := rfl
@[simp] theorem dropWrite_sched (s : State) : (dropWrite s).sched = s.sched := rfl
@[simp] theorem dropWrite_tick (s : State) : (dropWrite s).tick = s.tick := rfl
@[simp] theorem dropWrite_waited (s : State) : (dropWrite s).waited = s.waited := rfl

@[simp] theorem writeStatus_params (v : Word) (s : State) : (writeStatus v s).params = s.params := rfl
@[simp] theorem writeStatus_secondHost (v : Word) (s : State) : (writeStatus v s).secondHost = s.secondHost := rfl
@[simp] theorem writeStatus_ctrl (v : Word) (s : State) : (writeStatus v s).ctrl = s.ctrl := rfl
@[simp] theorem writeStatus_status (v : Word) (s : State) : (writeStatus v s).status = s.status.writeOneToClear v := rfl
@[simp] theorem writeStatus_cmd (v : Word) (s : State) : (writeStatus v s).cmd = s.cmd := rfl
@[simp] theorem writeStatus_resHash (v : Word) (s : State) : (writeStatus v s).resHash = s.resHash := rfl
@[simp] theorem writeStatus_resHome (v : Word) (s : State) : (writeStatus v s).resHome = s.resHome := rfl
@[simp] theorem writeStatus_resIdx (v : Word) (s : State) : (writeStatus v s).resIdx = s.resIdx := rfl
@[simp] theorem writeStatus_resCount (v : Word) (s : State) : (writeStatus v s).resCount = s.resCount := rfl
@[simp] theorem writeStatus_resInfo (v : Word) (s : State) : (writeStatus v s).resInfo = s.resInfo := rfl
@[simp] theorem writeStatus_topkNum (v : Word) (s : State) : (writeStatus v s).topkNum = s.topkNum := rfl
@[simp] theorem writeStatus_topkIdx (v : Word) (s : State) : (writeStatus v s).topkIdx = s.topkIdx := rfl
@[simp] theorem writeStatus_topkCnt (v : Word) (s : State) : (writeStatus v s).topkCnt = s.topkCnt := rfl
@[simp] theorem writeStatus_keybuf (v : Word) (s : State) : (writeStatus v s).keybuf = s.keybuf := rfl
@[simp] theorem writeStatus_bktkey (v : Word) (s : State) : (writeStatus v s).bktkey = s.bktkey := rfl
@[simp] theorem writeStatus_table (v : Word) (s : State) : (writeStatus v s).table = s.table := rfl
@[simp] theorem writeStatus_pending (v : Word) (s : State) : (writeStatus v s).pending = s.pending := rfl
@[simp] theorem writeStatus_host (v : Word) (s : State) : (writeStatus v s).host = s.host := rfl
@[simp] theorem writeStatus_sched (v : Word) (s : State) : (writeStatus v s).sched = s.sched := rfl
@[simp] theorem writeStatus_tick (v : Word) (s : State) : (writeStatus v s).tick = s.tick := rfl
@[simp] theorem writeStatus_waited (v : Word) (s : State) : (writeStatus v s).waited = s.waited := rfl

@[simp] theorem enterReset_params (s : State) : (enterReset s).params = s.params := rfl
@[simp] theorem enterReset_secondHost (s : State) : (enterReset s).secondHost = s.secondHost := rfl
@[simp] theorem enterReset_ctrl (s : State) : (enterReset s).ctrl = Ctrl.reset := rfl
@[simp] theorem enterReset_status (s : State) : (enterReset s).status = Status.sweeping := rfl
@[simp] theorem enterReset_cmd (s : State) : (enterReset s).cmd = 0 := rfl
@[simp] theorem enterReset_resHash (s : State) : (enterReset s).resHash = 0 := rfl
@[simp] theorem enterReset_resHome (s : State) : (enterReset s).resHome = 0 := rfl
@[simp] theorem enterReset_resIdx (s : State) : (enterReset s).resIdx = 0 := rfl
@[simp] theorem enterReset_resCount (s : State) : (enterReset s).resCount = 0 := rfl
@[simp] theorem enterReset_resInfo (s : State) : (enterReset s).resInfo = 0 := rfl
@[simp] theorem enterReset_topkNum (s : State) : (enterReset s).topkNum = 0 := rfl
@[simp] theorem enterReset_topkIdx (s : State) : (enterReset s).topkIdx = Vector.replicate 16 0 := rfl
@[simp] theorem enterReset_topkCnt (s : State) : (enterReset s).topkCnt = Vector.replicate 16 0 := rfl
@[simp] theorem enterReset_keybuf (s : State) : (enterReset s).keybuf = Vector.replicate 32 0 := rfl
@[simp] theorem enterReset_bktkey (s : State) : (enterReset s).bktkey = Vector.replicate 32 0 := rfl
@[simp] theorem enterReset_table (s : State) : (enterReset s).table = s.table := rfl
@[simp] theorem enterReset_pending (s : State) : (enterReset s).pending = none := rfl
@[simp] theorem enterReset_host (s : State) : (enterReset s).host = s.host := rfl
@[simp] theorem enterReset_sched (s : State) : (enterReset s).sched = s.sched := rfl
@[simp] theorem enterReset_tick (s : State) : (enterReset s).tick = s.tick := rfl
@[simp] theorem enterReset_waited (s : State) : (enterReset s).waited = s.waited := rfl

@[simp] theorem endSweep_params (s : State) : (endSweep s).params = s.params := rfl
@[simp] theorem endSweep_secondHost (s : State) : (endSweep s).secondHost = s.secondHost := rfl
@[simp] theorem endSweep_ctrl (s : State) : (endSweep s).ctrl = s.ctrl := rfl
@[simp] theorem endSweep_status (s : State) : (endSweep s).status = s.status.sweepEnded := rfl
@[simp] theorem endSweep_cmd (s : State) : (endSweep s).cmd = s.cmd := rfl
@[simp] theorem endSweep_resHash (s : State) : (endSweep s).resHash = s.resHash := rfl
@[simp] theorem endSweep_resHome (s : State) : (endSweep s).resHome = s.resHome := rfl
@[simp] theorem endSweep_resIdx (s : State) : (endSweep s).resIdx = s.resIdx := rfl
@[simp] theorem endSweep_resCount (s : State) : (endSweep s).resCount = s.resCount := rfl
@[simp] theorem endSweep_resInfo (s : State) : (endSweep s).resInfo = s.resInfo := rfl
@[simp] theorem endSweep_topkNum (s : State) : (endSweep s).topkNum = s.topkNum := rfl
@[simp] theorem endSweep_topkIdx (s : State) : (endSweep s).topkIdx = s.topkIdx := rfl
@[simp] theorem endSweep_topkCnt (s : State) : (endSweep s).topkCnt = s.topkCnt := rfl
@[simp] theorem endSweep_keybuf (s : State) : (endSweep s).keybuf = Vector.replicate 32 0 := rfl
@[simp] theorem endSweep_bktkey (s : State) : (endSweep s).bktkey = Vector.replicate 32 0 := rfl
@[simp] theorem endSweep_table (s : State) : (endSweep s).table = [] := rfl
@[simp] theorem endSweep_pending (s : State) : (endSweep s).pending = s.pending := rfl
@[simp] theorem endSweep_host (s : State) : (endSweep s).host = s.host := rfl
@[simp] theorem endSweep_sched (s : State) : (endSweep s).sched = s.sched := rfl
@[simp] theorem endSweep_tick (s : State) : (endSweep s).tick = s.tick := rfl
@[simp] theorem endSweep_waited (s : State) : (endSweep s).waited = s.waited := rfl

@[simp] theorem dropMove_params (s : State) : (dropMove s).params = s.params := rfl
@[simp] theorem dropMove_secondHost (s : State) : (dropMove s).secondHost = s.secondHost := rfl
@[simp] theorem dropMove_ctrl (s : State) : (dropMove s).ctrl = s.ctrl := rfl
@[simp] theorem dropMove_status (s : State) : (dropMove s).status = s.status := rfl
@[simp] theorem dropMove_cmd (s : State) : (dropMove s).cmd = s.cmd := rfl
@[simp] theorem dropMove_resHash (s : State) : (dropMove s).resHash = s.resHash := rfl
@[simp] theorem dropMove_resHome (s : State) : (dropMove s).resHome = s.resHome := rfl
@[simp] theorem dropMove_resIdx (s : State) : (dropMove s).resIdx = s.resIdx := rfl
@[simp] theorem dropMove_resCount (s : State) : (dropMove s).resCount = s.resCount := rfl
@[simp] theorem dropMove_resInfo (s : State) : (dropMove s).resInfo = s.resInfo := rfl
@[simp] theorem dropMove_topkNum (s : State) : (dropMove s).topkNum = s.topkNum := rfl
@[simp] theorem dropMove_topkIdx (s : State) : (dropMove s).topkIdx = s.topkIdx := rfl
@[simp] theorem dropMove_topkCnt (s : State) : (dropMove s).topkCnt = s.topkCnt := rfl
@[simp] theorem dropMove_keybuf (s : State) : (dropMove s).keybuf = s.keybuf := rfl
@[simp] theorem dropMove_bktkey (s : State) : (dropMove s).bktkey = s.bktkey := rfl
@[simp] theorem dropMove_table (s : State) : (dropMove s).table = s.table := rfl
@[simp] theorem dropMove_pending (s : State) : (dropMove s).pending = s.pending := rfl
@[simp] theorem dropMove_host (s : State) : (dropMove s).host = s.host := rfl
@[simp] theorem dropMove_sched (s : State) : (dropMove s).sched = s.sched.tail := rfl
@[simp] theorem dropMove_tick (s : State) : (dropMove s).tick = s.tick := rfl
@[simp] theorem dropMove_waited (s : State) : (dropMove s).waited = s.waited := rfl

@[simp] theorem nextTick_params (s : State) : (nextTick s).params = s.params := rfl
@[simp] theorem nextTick_secondHost (s : State) : (nextTick s).secondHost = s.secondHost := rfl
@[simp] theorem nextTick_ctrl (s : State) : (nextTick s).ctrl = s.ctrl := rfl
@[simp] theorem nextTick_status (s : State) : (nextTick s).status = s.status := rfl
@[simp] theorem nextTick_cmd (s : State) : (nextTick s).cmd = s.cmd := rfl
@[simp] theorem nextTick_resHash (s : State) : (nextTick s).resHash = s.resHash := rfl
@[simp] theorem nextTick_resHome (s : State) : (nextTick s).resHome = s.resHome := rfl
@[simp] theorem nextTick_resIdx (s : State) : (nextTick s).resIdx = s.resIdx := rfl
@[simp] theorem nextTick_resCount (s : State) : (nextTick s).resCount = s.resCount := rfl
@[simp] theorem nextTick_resInfo (s : State) : (nextTick s).resInfo = s.resInfo := rfl
@[simp] theorem nextTick_topkNum (s : State) : (nextTick s).topkNum = s.topkNum := rfl
@[simp] theorem nextTick_topkIdx (s : State) : (nextTick s).topkIdx = s.topkIdx := rfl
@[simp] theorem nextTick_topkCnt (s : State) : (nextTick s).topkCnt = s.topkCnt := rfl
@[simp] theorem nextTick_keybuf (s : State) : (nextTick s).keybuf = s.keybuf := rfl
@[simp] theorem nextTick_bktkey (s : State) : (nextTick s).bktkey = s.bktkey := rfl
@[simp] theorem nextTick_table (s : State) : (nextTick s).table = s.table := rfl
@[simp] theorem nextTick_pending (s : State) : (nextTick s).pending = s.pending := rfl
@[simp] theorem nextTick_host (s : State) : (nextTick s).host = s.host := rfl
@[simp] theorem nextTick_sched (s : State) : (nextTick s).sched = s.sched := rfl
@[simp] theorem nextTick_tick (s : State) : (nextTick s).tick = s.tick + 1 := rfl
@[simp] theorem nextTick_waited (s : State) : (nextTick s).waited = 0 := rfl

@[simp] theorem hostFirst_params (s : State) : (hostFirst s).params = s.params := rfl
@[simp] theorem hostFirst_secondHost (s : State) : (hostFirst s).secondHost = s.secondHost := rfl
@[simp] theorem hostFirst_ctrl (s : State) : (hostFirst s).ctrl = s.ctrl := rfl
@[simp] theorem hostFirst_status (s : State) : (hostFirst s).status = s.status := rfl
@[simp] theorem hostFirst_cmd (s : State) : (hostFirst s).cmd = s.cmd := rfl
@[simp] theorem hostFirst_resHash (s : State) : (hostFirst s).resHash = s.resHash := rfl
@[simp] theorem hostFirst_resHome (s : State) : (hostFirst s).resHome = s.resHome := rfl
@[simp] theorem hostFirst_resIdx (s : State) : (hostFirst s).resIdx = s.resIdx := rfl
@[simp] theorem hostFirst_resCount (s : State) : (hostFirst s).resCount = s.resCount := rfl
@[simp] theorem hostFirst_resInfo (s : State) : (hostFirst s).resInfo = s.resInfo := rfl
@[simp] theorem hostFirst_topkNum (s : State) : (hostFirst s).topkNum = s.topkNum := rfl
@[simp] theorem hostFirst_topkIdx (s : State) : (hostFirst s).topkIdx = s.topkIdx := rfl
@[simp] theorem hostFirst_topkCnt (s : State) : (hostFirst s).topkCnt = s.topkCnt := rfl
@[simp] theorem hostFirst_keybuf (s : State) : (hostFirst s).keybuf = s.keybuf := rfl
@[simp] theorem hostFirst_bktkey (s : State) : (hostFirst s).bktkey = s.bktkey := rfl
@[simp] theorem hostFirst_table (s : State) : (hostFirst s).table = s.table := rfl
@[simp] theorem hostFirst_pending (s : State) : (hostFirst s).pending = s.pending := rfl
@[simp] theorem hostFirst_host (s : State) : (hostFirst s).host = s.host := rfl
@[simp] theorem hostFirst_sched (s : State) : (hostFirst s).sched = s.sched := rfl
@[simp] theorem hostFirst_tick (s : State) : (hostFirst s).tick = s.tick := rfl
@[simp] theorem hostFirst_waited (s : State) : (hostFirst s).waited = s.waited + 1 := rfl

@[simp] theorem hostGoto_params (l : Nat) (s : State) : (hostGoto l s).params = s.params := rfl
@[simp] theorem hostGoto_secondHost (l : Nat) (s : State) : (hostGoto l s).secondHost = s.secondHost := rfl
@[simp] theorem hostGoto_ctrl (l : Nat) (s : State) : (hostGoto l s).ctrl = s.ctrl := rfl
@[simp] theorem hostGoto_status (l : Nat) (s : State) : (hostGoto l s).status = s.status := rfl
@[simp] theorem hostGoto_cmd (l : Nat) (s : State) : (hostGoto l s).cmd = s.cmd := rfl
@[simp] theorem hostGoto_resHash (l : Nat) (s : State) : (hostGoto l s).resHash = s.resHash := rfl
@[simp] theorem hostGoto_resHome (l : Nat) (s : State) : (hostGoto l s).resHome = s.resHome := rfl
@[simp] theorem hostGoto_resIdx (l : Nat) (s : State) : (hostGoto l s).resIdx = s.resIdx := rfl
@[simp] theorem hostGoto_resCount (l : Nat) (s : State) : (hostGoto l s).resCount = s.resCount := rfl
@[simp] theorem hostGoto_resInfo (l : Nat) (s : State) : (hostGoto l s).resInfo = s.resInfo := rfl
@[simp] theorem hostGoto_topkNum (l : Nat) (s : State) : (hostGoto l s).topkNum = s.topkNum := rfl
@[simp] theorem hostGoto_topkIdx (l : Nat) (s : State) : (hostGoto l s).topkIdx = s.topkIdx := rfl
@[simp] theorem hostGoto_topkCnt (l : Nat) (s : State) : (hostGoto l s).topkCnt = s.topkCnt := rfl
@[simp] theorem hostGoto_keybuf (l : Nat) (s : State) : (hostGoto l s).keybuf = s.keybuf := rfl
@[simp] theorem hostGoto_bktkey (l : Nat) (s : State) : (hostGoto l s).bktkey = s.bktkey := rfl
@[simp] theorem hostGoto_table (l : Nat) (s : State) : (hostGoto l s).table = s.table := rfl
@[simp] theorem hostGoto_pending (l : Nat) (s : State) : (hostGoto l s).pending = s.pending := rfl
@[simp] theorem hostGoto_host (l : Nat) (s : State) : (hostGoto l s).host = { s.host with pc := l } := rfl
@[simp] theorem hostGoto_sched (l : Nat) (s : State) : (hostGoto l s).sched = s.sched := rfl
@[simp] theorem hostGoto_tick (l : Nat) (s : State) : (hostGoto l s).tick = s.tick := rfl
@[simp] theorem hostGoto_waited (l : Nat) (s : State) : (hostGoto l s).waited = s.waited := rfl

@[simp] theorem hostAdvance_params (s : State) : (hostAdvance s).params = s.params := rfl
@[simp] theorem hostAdvance_secondHost (s : State) : (hostAdvance s).secondHost = s.secondHost := rfl
@[simp] theorem hostAdvance_ctrl (s : State) : (hostAdvance s).ctrl = s.ctrl := rfl
@[simp] theorem hostAdvance_status (s : State) : (hostAdvance s).status = s.status := rfl
@[simp] theorem hostAdvance_cmd (s : State) : (hostAdvance s).cmd = s.cmd := rfl
@[simp] theorem hostAdvance_resHash (s : State) : (hostAdvance s).resHash = s.resHash := rfl
@[simp] theorem hostAdvance_resHome (s : State) : (hostAdvance s).resHome = s.resHome := rfl
@[simp] theorem hostAdvance_resIdx (s : State) : (hostAdvance s).resIdx = s.resIdx := rfl
@[simp] theorem hostAdvance_resCount (s : State) : (hostAdvance s).resCount = s.resCount := rfl
@[simp] theorem hostAdvance_resInfo (s : State) : (hostAdvance s).resInfo = s.resInfo := rfl
@[simp] theorem hostAdvance_topkNum (s : State) : (hostAdvance s).topkNum = s.topkNum := rfl
@[simp] theorem hostAdvance_topkIdx (s : State) : (hostAdvance s).topkIdx = s.topkIdx := rfl
@[simp] theorem hostAdvance_topkCnt (s : State) : (hostAdvance s).topkCnt = s.topkCnt := rfl
@[simp] theorem hostAdvance_keybuf (s : State) : (hostAdvance s).keybuf = s.keybuf := rfl
@[simp] theorem hostAdvance_bktkey (s : State) : (hostAdvance s).bktkey = s.bktkey := rfl
@[simp] theorem hostAdvance_table (s : State) : (hostAdvance s).table = s.table := rfl
@[simp] theorem hostAdvance_pending (s : State) : (hostAdvance s).pending = s.pending := rfl
@[simp] theorem hostAdvance_host (s : State) : (hostAdvance s).host = { s.host with pc := s.host.pc + 1 } := rfl
@[simp] theorem hostAdvance_sched (s : State) : (hostAdvance s).sched = s.sched := rfl
@[simp] theorem hostAdvance_tick (s : State) : (hostAdvance s).tick = s.tick := rfl
@[simp] theorem hostAdvance_waited (s : State) : (hostAdvance s).waited = s.waited := rfl

@[simp] theorem hostAssign_params (x : Nat) (v : Word) (s : State) : (hostAssign x v s).params = s.params := rfl
@[simp] theorem hostAssign_secondHost (x : Nat) (v : Word) (s : State) : (hostAssign x v s).secondHost = s.secondHost := rfl
@[simp] theorem hostAssign_ctrl (x : Nat) (v : Word) (s : State) : (hostAssign x v s).ctrl = s.ctrl := rfl
@[simp] theorem hostAssign_status (x : Nat) (v : Word) (s : State) : (hostAssign x v s).status = s.status := rfl
@[simp] theorem hostAssign_cmd (x : Nat) (v : Word) (s : State) : (hostAssign x v s).cmd = s.cmd := rfl
@[simp] theorem hostAssign_resHash (x : Nat) (v : Word) (s : State) : (hostAssign x v s).resHash = s.resHash := rfl
@[simp] theorem hostAssign_resHome (x : Nat) (v : Word) (s : State) : (hostAssign x v s).resHome = s.resHome := rfl
@[simp] theorem hostAssign_resIdx (x : Nat) (v : Word) (s : State) : (hostAssign x v s).resIdx = s.resIdx := rfl
@[simp] theorem hostAssign_resCount (x : Nat) (v : Word) (s : State) : (hostAssign x v s).resCount = s.resCount := rfl
@[simp] theorem hostAssign_resInfo (x : Nat) (v : Word) (s : State) : (hostAssign x v s).resInfo = s.resInfo := rfl
@[simp] theorem hostAssign_topkNum (x : Nat) (v : Word) (s : State) : (hostAssign x v s).topkNum = s.topkNum := rfl
@[simp] theorem hostAssign_topkIdx (x : Nat) (v : Word) (s : State) : (hostAssign x v s).topkIdx = s.topkIdx := rfl
@[simp] theorem hostAssign_topkCnt (x : Nat) (v : Word) (s : State) : (hostAssign x v s).topkCnt = s.topkCnt := rfl
@[simp] theorem hostAssign_keybuf (x : Nat) (v : Word) (s : State) : (hostAssign x v s).keybuf = s.keybuf := rfl
@[simp] theorem hostAssign_bktkey (x : Nat) (v : Word) (s : State) : (hostAssign x v s).bktkey = s.bktkey := rfl
@[simp] theorem hostAssign_table (x : Nat) (v : Word) (s : State) : (hostAssign x v s).table = s.table := rfl
@[simp] theorem hostAssign_pending (x : Nat) (v : Word) (s : State) : (hostAssign x v s).pending = s.pending := rfl
@[simp] theorem hostAssign_host (x : Nat) (v : Word) (s : State) : (hostAssign x v s).host = { s.host with vars := assignVar s.host.vars x v } := rfl
@[simp] theorem hostAssign_sched (x : Nat) (v : Word) (s : State) : (hostAssign x v s).sched = s.sched := rfl
@[simp] theorem hostAssign_tick (x : Nat) (v : Word) (s : State) : (hostAssign x v s).tick = s.tick := rfl
@[simp] theorem hostAssign_waited (x : Nat) (v : Word) (s : State) : (hostAssign x v s).waited = s.waited := rfl

@[simp] theorem Status.accepted_busy (f : Status) : (f.accepted).busy = true := rfl
@[simp] theorem Status.accepted_done (f : Status) : (f.accepted).done = false := rfl
@[simp] theorem Status.accepted_err (f : Status) : (f.accepted).err = false := rfl
@[simp] theorem Status.accepted_errs (f : Status) : (f.accepted).errs = f.errs := rfl
@[simp] theorem Status.accepted_ovr (f : Status) : (f.accepted).ovr = f.ovr := rfl
@[simp] theorem Status.accepted_cntOvf (f : Status) : (f.accepted).cntOvf = f.cntOvf := rfl
@[simp] theorem Status.accepted_init (f : Status) : (f.accepted).init = f.init := rfl
@[simp] theorem Status.accepted_errCode (f : Status) : (f.accepted).errCode = 0 := rfl

@[simp] theorem Status.dropped_busy (f : Status) : (f.dropped).busy = f.busy := rfl
@[simp] theorem Status.dropped_done (f : Status) : (f.dropped).done = f.done := rfl
@[simp] theorem Status.dropped_err (f : Status) : (f.dropped).err = f.err := rfl
@[simp] theorem Status.dropped_errs (f : Status) : (f.dropped).errs = f.errs := rfl
@[simp] theorem Status.dropped_ovr (f : Status) : (f.dropped).ovr = true := rfl
@[simp] theorem Status.dropped_cntOvf (f : Status) : (f.dropped).cntOvf = f.cntOvf := rfl
@[simp] theorem Status.dropped_init (f : Status) : (f.dropped).init = f.init := rfl
@[simp] theorem Status.dropped_errCode (f : Status) : (f.dropped).errCode = f.errCode := rfl

@[simp] theorem Status.completed_busy (f : Status) (overflow : Bool) : (f.completed overflow).busy = false := rfl
@[simp] theorem Status.completed_done (f : Status) (overflow : Bool) : (f.completed overflow).done = true := rfl
@[simp] theorem Status.completed_err (f : Status) (overflow : Bool) : (f.completed overflow).err = f.err := rfl
@[simp] theorem Status.completed_errs (f : Status) (overflow : Bool) : (f.completed overflow).errs = f.errs := rfl
@[simp] theorem Status.completed_ovr (f : Status) (overflow : Bool) : (f.completed overflow).ovr = f.ovr := rfl
@[simp] theorem Status.completed_cntOvf (f : Status) (overflow : Bool) : (f.completed overflow).cntOvf = (f.cntOvf || overflow) := rfl
@[simp] theorem Status.completed_init (f : Status) (overflow : Bool) : (f.completed overflow).init = f.init := rfl
@[simp] theorem Status.completed_errCode (f : Status) (overflow : Bool) : (f.completed overflow).errCode = f.errCode := rfl

@[simp] theorem Status.failed_busy (f : Status) (e : CmdError) : (f.failed e).busy = false := rfl
@[simp] theorem Status.failed_done (f : Status) (e : CmdError) : (f.failed e).done = true := rfl
@[simp] theorem Status.failed_err (f : Status) (e : CmdError) : (f.failed e).err = true := rfl
@[simp] theorem Status.failed_errs (f : Status) (e : CmdError) : (f.failed e).errs = true := rfl
@[simp] theorem Status.failed_ovr (f : Status) (e : CmdError) : (f.failed e).ovr = f.ovr := rfl
@[simp] theorem Status.failed_cntOvf (f : Status) (e : CmdError) : (f.failed e).cntOvf = f.cntOvf := rfl
@[simp] theorem Status.failed_init (f : Status) (e : CmdError) : (f.failed e).init = f.init := rfl
@[simp] theorem Status.failed_errCode (f : Status) (e : CmdError) : (f.failed e).errCode = errorCode e := rfl

@[simp] theorem Status.writeOneToClear_busy (f : Status) (v : Word) : (f.writeOneToClear v).busy = f.busy := rfl
@[simp] theorem Status.writeOneToClear_done (f : Status) (v : Word) : (f.writeOneToClear v).done = (f.done && !v.getLsbD 1) := rfl
@[simp] theorem Status.writeOneToClear_err (f : Status) (v : Word) : (f.writeOneToClear v).err = f.err := rfl
@[simp] theorem Status.writeOneToClear_errs (f : Status) (v : Word) : (f.writeOneToClear v).errs = (f.errs && !v.getLsbD 3) := rfl
@[simp] theorem Status.writeOneToClear_ovr (f : Status) (v : Word) : (f.writeOneToClear v).ovr = (f.ovr && !v.getLsbD 4) := rfl
@[simp] theorem Status.writeOneToClear_cntOvf (f : Status) (v : Word) : (f.writeOneToClear v).cntOvf = (f.cntOvf && !v.getLsbD 5) := rfl
@[simp] theorem Status.writeOneToClear_init (f : Status) (v : Word) : (f.writeOneToClear v).init = f.init := rfl
@[simp] theorem Status.writeOneToClear_errCode (f : Status) (v : Word) : (f.writeOneToClear v).errCode = f.errCode := rfl

@[simp] theorem Status.sweepEnded_busy (f : Status) : (f.sweepEnded).busy = false := rfl
@[simp] theorem Status.sweepEnded_done (f : Status) : (f.sweepEnded).done = f.done := rfl
@[simp] theorem Status.sweepEnded_err (f : Status) : (f.sweepEnded).err = f.err := rfl
@[simp] theorem Status.sweepEnded_errs (f : Status) : (f.sweepEnded).errs = f.errs := rfl
@[simp] theorem Status.sweepEnded_ovr (f : Status) : (f.sweepEnded).ovr = f.ovr := rfl
@[simp] theorem Status.sweepEnded_cntOvf (f : Status) : (f.sweepEnded).cntOvf = f.cntOvf := rfl
@[simp] theorem Status.sweepEnded_init (f : Status) : (f.sweepEnded).init = false := rfl
@[simp] theorem Status.sweepEnded_errCode (f : Status) : (f.sweepEnded).errCode = f.errCode := rfl

@[simp] theorem Status.sweeping_busy : Status.sweeping.busy = true := rfl
@[simp] theorem Status.sweeping_done : Status.sweeping.done = false := rfl
@[simp] theorem Status.sweeping_err : Status.sweeping.err = false := rfl
@[simp] theorem Status.sweeping_errs : Status.sweeping.errs = false := rfl
@[simp] theorem Status.sweeping_ovr : Status.sweeping.ovr = false := rfl
@[simp] theorem Status.sweeping_cntOvf : Status.sweeping.cntOvf = false := rfl
@[simp] theorem Status.sweeping_init : Status.sweeping.init = true := rfl
@[simp] theorem Status.sweeping_errCode : Status.sweeping.errCode = 0 := rfl

end Sys2Proof.Machine
end

