-- ==== Sys2Proof/Laws/Step.lean ====
section
/-! SUPPORT. What a step can do, said once: whose move it is, what each move does, and how each command ends. -/

namespace Sys2Proof.Machine

/-- Whose move a step is, on a state that differs from `s` only in the scheduling fields. -/
theorem step_cases {s t : State} (h : step s = .next t) :
    InContract s ∧ ∃ s', s' = { s with sched := s'.sched, tick := s'.tick, waited := s'.waited } ∧
      (hostMove s' = .next t ∨ coreMove s' = .next t ∨ (s' = dropMove s ∧ t = enterReset s')) := by
  unfold step at h
  split at h
  · cases h
  · rename_i hl
    split at h
    · cases h
    · rename_i hs
      refine ⟨⟨by simpa using hl, by simpa using hs⟩, ?_⟩
      split at h
      · unfold freeMove at h
        split at h
        · exact ⟨s, rfl, .inr (.inl h)⟩
        · split at h
          · exact ⟨hostFirst s, rfl, .inl h⟩
          · exact ⟨nextTick s, rfl, .inr (.inl h)⟩
        · exact ⟨s, rfl, .inl h⟩
      · rename_i m rest hm
        cases m with
        | host => exact ⟨dropMove s, rfl, .inl h⟩
        | core => exact ⟨dropMove s, rfl, .inr (.inl h)⟩
        | reset =>
          simp only [moveOf, Host.Outcome.next.injEq] at h
          exact ⟨dropMove s, rfl, .inr (.inr ⟨rfl, h.symm⟩)⟩

theorem step_of_coreMovesAt {s s' : State} (hc : InContract s) (h : CoreMovesAt s s')
    (hr : s.status.init = true ∨ s.pending ≠ none) : step s = coreMove s' := by
  have hready : coreReady s = true := by
    rcases hr with hr | hr
    · simp [coreReady, hr]
    · cases hp : s.pending with
      | none => exact absurd hp hr
      | some p => simp [coreReady, hp]
  unfold step
  simp only [hc.1, hc.2, Bool.not_true, Bool.false_eq_true, if_false]
  rcases h with ⟨rest, hs, rfl⟩ | ⟨hs, he, rfl⟩ | ⟨hs, he, ht, rfl⟩
  · rw [hs]; simp [moveOf, dropMove, hs]
  · rw [hs]; simp [freeMove, hready, he]
  · rw [hs]; simp [freeMove, hready, he, Nat.not_lt.2 ht, nextTick, hs]

theorem step_of_hostMovesAt {s s' : State} (hc : InContract s) (h : HostMovesAt s s') : step s = hostMove s' := by
  unfold step
  simp only [hc.1, hc.2, Bool.not_true, Bool.false_eq_true, if_false]
  rcases h with ⟨rest, hs, rfl⟩ | ⟨hs, hi, hp, rfl⟩ | ⟨hs, hr, he, ht, rfl⟩
  · rw [hs]; simp [moveOf, dropMove, hs]
  · rw [hs]; simp [freeMove, coreReady, hi, hp]
  · have hready : coreReady s = true := by
      rcases hr with hr | hr
      · simp [coreReady, hr]
      · cases hp : s.pending with
        | none => exact absurd hp hr
        | some p => simp [coreReady, hp]
    rw [hs]; simp [freeMove, hready, he, ht, hostFirst, hs]

/-- A move of the host changes only the schedule before it. -/
theorem hostMovesAt_eq {s s' : State} (h : HostMovesAt s s') : s' = { s with sched := s'.sched, tick := s'.tick, waited := s'.waited } := by
  rcases h with ⟨rest, hs, rfl⟩ | ⟨hs, hi, hp, rfl⟩ | ⟨hs, hr, he, ht, rfl⟩ <;> rfl

/-- A move of the sequencer changes only the schedule before it. -/
theorem coreMovesAt_eq {s s' : State} (h : CoreMovesAt s s') : s' = { s with sched := s'.sched, tick := s'.tick, waited := s'.waited } := by
  rcases h with ⟨rest, hs, rfl⟩ | ⟨hs, he, rfl⟩ | ⟨hs, he, ht, rfl⟩ <;> rfl

/-- Everything a move of the sequencer can do. -/
theorem coreMove_cases {s t : State} (h : coreMove s = .next t) :
    (s.status.init = true ∧ t = endSweep s) ∨
    (s.status.init = false ∧ s.pending = none ∧ t = s) ∨
    (∃ p i, s.status.init = false ∧ s.pending = some p ∧ decode p.word = .legal i ∧ exec i s = .next t) ∨
    (∃ p why, s.status.init = false ∧ s.pending = some p ∧ decode p.word = .illegal why ∧
      t = raise .illegalCommand s) := by
  unfold coreMove at h
  split at h
  · rename_i hi
    simp only [Host.Outcome.next.injEq] at h
    exact .inl ⟨hi, h.symm⟩
  · rename_i hi
    have hi : s.status.init = false := by simpa using hi
    split at h
    · rename_i hp
      simp only [Host.Outcome.next.injEq] at h
      exact .inr (.inl ⟨hi, hp, h.symm⟩)
    · rename_i p hp
      unfold performWord at h
      split at h
      · rename_i i hd
        exact .inr (.inr (.inl ⟨p, i, hi, hp, hd, h⟩))
      · rename_i why hd
        simp only [Host.Outcome.next.injEq] at h
        exact .inr (.inr (.inr ⟨p, why, hi, hp, hd, h.symm⟩))

/-- An access that is performed is within the contract. -/
theorem hostAccess_next {a : Access} {e t : State} (h : hostAccess a e = .next t) :
    a.width = 32 ∧ a.offset < 0x1000 ∧ a.offset % 4 = 0 ∧ t = e := by
  unfold hostAccess accessRefusal at h
  split at h
  · cases h
  · rename_i hn
    simp only [Host.Outcome.next.injEq] at h
    split at hn
    · cases hn
    · split at hn
      · cases hn
      · split at hn
        · cases hn
        · exact ⟨by omega, by omega, by omega, h.symm⟩

theorem hostAccess_of_ok {a : Access} (e : State) (h1 : a.width = 32) (h2 : a.offset < 0x1000) (h3 : a.offset % 4 = 0) :
    hostAccess a e = .next e := by
  have h4 : ¬ 0x1000 ≤ a.offset := by omega
  simp [hostAccess, accessRefusal, h1, h3, h4]

/-- Everything a move of the host can do. -/
theorem hostMove_cases {s t : State} (h : hostMove s = .next t) :
    t = s ∨
    (∃ a v, hostStmt s = some (.wr a v) ∧ a.width = 32 ∧ a.offset < 0x1000 ∧ a.offset % 4 = 0 ∧
      t = hostAdvance (hostWrite a.offset v s)) ∨
    (∃ a x, hostStmt s = some (.rd a x) ∧ t = hostAdvance (hostAssign x (hostRead a.offset s) s)) ∨
    (∃ i, hostStmt s = some (.cmd i) ∧ i.wellFormed = true ∧ t = hostAdvance (hostWrite 0x00C (encode i) s)) ∨
    (∃ l, t = hostGoto l s) := by
  unfold hostMove at h
  split at h
  · left; simpa using h.symm
  · left; simpa using h.symm
  · rename_i a v hst
    obtain ⟨h1, h2, h3, h4⟩ := hostAccess_next h
    exact .inr (.inl ⟨a, v, hst, h1, h2, h3, h4⟩)
  · rename_i a x hst
    obtain ⟨-, -, -, h4⟩ := hostAccess_next h
    exact .inr (.inr (.inl ⟨a, x, hst, h4⟩))
  · rename_i i hst
    unfold hostCmd at h
    split at h
    · rename_i hw
      simp only [Host.Outcome.next.injEq] at h
      exact .inr (.inr (.inr (.inl ⟨i, hst, hw, h.symm⟩)))
    · cases h
  · rename_i x mask l hst
    simp only [Host.Outcome.next.injEq] at h
    refine .inr (.inr (.inr (.inr ?_)))
    split at h
    · exact ⟨_, h.symm⟩
    · exact ⟨_, h.symm⟩
  · rename_i x mask l hst
    simp only [Host.Outcome.next.injEq] at h
    refine .inr (.inr (.inr (.inr ?_)))
    split at h
    · exact ⟨_, h.symm⟩
    · exact ⟨_, h.symm⟩
  · rename_i l hst
    simp only [Host.Outcome.next.injEq] at h
    exact .inr (.inr (.inr (.inr ⟨l, h.symm⟩)))

/-- Everything a register write can do (20_memory.md R72). -/
theorem writeReg_cases (r : Reg) (v : Word) (s : State) :
    (writeReg r v s = s) ∨
    (r = .ctrl ∧ v.getLsbD 31 = true ∧ writeReg r v s = enterReset s) ∨
    (r = .ctrl ∧ v.getLsbD 31 = false ∧ writeReg r v s = { s with ctrl := Ctrl.ofWord v }) ∨
    (r = .status ∧ writeReg r v s = writeStatus v s) ∨
    (s.status.busy = true ∧ writeReg r v s = dropWrite s) ∨
    (r = .cmd ∧ s.status.busy = false ∧ writeReg r v s = accept v s) ∨
    (∃ w, r = .keybuf w ∧ s.status.busy = false ∧
      writeReg r v s = { s with keybuf := s.keybuf.setIfInBounds w v }) := by
  cases r with
  | ctrl =>
    cases hv : v.getLsbD 31
    · exact .inr (.inr (.inl ⟨rfl, rfl, by unfold writeReg writeCtrl; rw [hv]; rfl⟩))
    · exact .inr (.inl ⟨rfl, rfl, by unfold writeReg writeCtrl; rw [hv]; rfl⟩)
  | status => simp [writeReg]
  | cmd => cases hb : s.status.busy <;> simp [writeReg, writeCmd, hb]
  | keybuf w => cases hb : s.status.busy <;> simp [writeReg, writeKeybuf, hb]
  | _ => left; rfl

theorem ite_ne_of_ne {α : Type} {c : Prop} [Decidable c] {a b r : α} (ha : a ≠ r) (hb : b ≠ r) :
    (if c then a else b) ≠ r := by
  split
  · exact ha
  · exact hb

theorem regAt_eq_ctrl {off : Nat} (h : regAt off = .ctrl) : off = 0x004 := by
  by_contra hne
  refine absurd h ?_
  unfold regAt
  refine ite_ne_of_ne nofun ?_
  rw [if_neg hne]
  iterate 14 refine ite_ne_of_ne nofun ?_
  exact nofun

theorem regAt_eq_status {off : Nat} (h : regAt off = .status) : off = 0x008 := by
  by_contra hne
  refine absurd h ?_
  unfold regAt
  iterate 2 refine ite_ne_of_ne nofun ?_
  rw [if_neg hne]
  iterate 13 refine ite_ne_of_ne nofun ?_
  exact nofun

/-- Everything a host write can do, by its offset (20_memory.md R72). -/
theorem hostWrite_cases (off : Nat) (v : Word) (s : State) :
    (hostWrite off v s = s) ∨
    (off = 0x004 ∧ v.getLsbD 31 = true ∧ hostWrite off v s = enterReset s) ∨
    (off = 0x004 ∧ v.getLsbD 31 = false ∧ hostWrite off v s = { s with ctrl := Ctrl.ofWord v }) ∨
    (off = 0x008 ∧ hostWrite off v s = writeStatus v s) ∨
    (s.status.busy = true ∧ hostWrite off v s = dropWrite s) ∨
    (s.status.busy = false ∧ hostWrite off v s = accept v s) ∨
    (∃ w, s.status.busy = false ∧ hostWrite off v s = { s with keybuf := s.keybuf.setIfInBounds w v }) := by
  unfold hostWrite
  rcases writeReg_cases (regAt off) v s with h | ⟨hr, hv, h⟩ | ⟨hr, hv, h⟩ | ⟨hr, h⟩ | ⟨hb, h⟩ | ⟨hr, hb, h⟩ | ⟨w, hr, hb, h⟩
  · exact .inl h
  · exact .inr (.inl ⟨regAt_eq_ctrl hr, hv, h⟩)
  · exact .inr (.inr (.inl ⟨regAt_eq_ctrl hr, hv, h⟩))
  · exact .inr (.inr (.inr (.inl ⟨regAt_eq_status hr, h⟩)))
  · exact .inr (.inr (.inr (.inr (.inl ⟨hb, h⟩))))
  · exact .inr (.inr (.inr (.inr (.inr (.inl ⟨hb, h⟩)))))
  · exact .inr (.inr (.inr (.inr (.inr (.inr ⟨w, hb, h⟩)))))

/-- A host write does not touch the schedule or the contract. -/
theorem hostWrite_schedule (off : Nat) (v : Word) (s : State) :
    (hostWrite off v s).sched = s.sched ∧ (hostWrite off v s).tick = s.tick ∧ (hostWrite off v s).waited = s.waited ∧
      (hostWrite off v s).params = s.params ∧ (hostWrite off v s).secondHost = s.secondHost := by
  rcases hostWrite_cases off v s with h | ⟨-, -, h⟩ | ⟨-, -, h⟩ | ⟨-, h⟩ | ⟨-, h⟩ | ⟨-, h⟩ | ⟨w, -, h⟩ <;> rw [h] <;>
    exact ⟨rfl, rfl, rfl, rfl, rfl⟩

/-- A move of the host does not touch the schedule or the contract. -/
theorem hostMove_schedule {s t : State} (h : hostMove s = .next t) :
    t.sched = s.sched ∧ t.tick = s.tick ∧ t.waited = s.waited ∧ t.params = s.params ∧ t.secondHost = s.secondHost := by
  rcases hostMove_cases h with rfl | ⟨a, v, -, -, -, -, rfl⟩ | ⟨a, x, -, rfl⟩ | ⟨i, -, -, rfl⟩ | ⟨l, rfl⟩
  · exact ⟨rfl, rfl, rfl, rfl, rfl⟩
  · exact hostWrite_schedule _ _ s
  · exact ⟨rfl, rfl, rfl, rfl, rfl⟩
  · exact hostWrite_schedule _ _ s
  · exact ⟨rfl, rfl, rfl, rfl, rfl⟩

/-- A reset leaves the sequencer with the end of the sweep to do (70_reset_and_hazards.md R210). -/
theorem coreReady_enterReset (s : State) : coreReady (enterReset s) = true := rfl

/-- No host write takes the sequencer's step away. -/
theorem coreReady_hostWrite (off : Nat) (v : Word) {s : State} (h : coreReady s = true) :
    coreReady (hostWrite off v s) = true := by
  rcases hostWrite_cases off v s with h' | ⟨-, -, h'⟩ | ⟨-, -, h'⟩ | ⟨-, h'⟩ | ⟨-, h'⟩ | ⟨-, h'⟩ | ⟨w, -, h'⟩ <;> rw [h']
  · exact h
  · rfl
  · exact h
  · exact h
  · exact h
  · simp [coreReady]
  · exact h

/-- No move of the host takes the sequencer's step away. -/
theorem coreReady_of_hostMove {s t : State} (h : coreReady s = true) (hm : hostMove s = .next t) : coreReady t = true := by
  rcases hostMove_cases hm with rfl | ⟨a, v, -, -, -, -, rfl⟩ | ⟨a, x, -, rfl⟩ | ⟨i, -, -, rfl⟩ | ⟨l, rfl⟩
  · exact h
  · exact coreReady_hostWrite _ _ h
  · exact h
  · exact coreReady_hostWrite _ _ h
  · exact h

/-! Runs, one step at a time. -/

theorem coreRun_of_next (M : Host.Core) {s t : M.State} (n : Nat) (h : M.step s = .next t) :
    M.run (n + 1) s = M.run n t := by
  rw [Host.Core.run, h]

theorem coreRun_of_refused (M : Host.Core) {s : M.State} {r : M.Refusal} (n : Nat) (h : M.step s = .refused r) :
    M.run (n + 1) s = .refused r := by
  rw [Host.Core.run, h]

theorem run_of_next {s t : State} (n : Nat) (h : step s = .next t) :
    Host.Core.run Sys2Proof.core (n + 1) s = Host.Core.run Sys2Proof.core n t :=
  coreRun_of_next Sys2Proof.core n h

theorem run_of_refused {s : State} {r : Refusal} (n : Nat) (h : step s = .refused r) :
    Host.Core.run Sys2Proof.core (n + 1) s = .refused r :=
  coreRun_of_refused Sys2Proof.core n h

/-! How each command ends: in an error, or in one success. -/

theorem execHash_cases (n : Nat) (s : State) :
    (s.params.maxKeyLen < n ∧ execHash n s = .next (raise .keyTooLong s)) ∨
    (n ≤ s.params.maxKeyLen ∧ execHash n s = .next (complete false
      { s with
        resHash := keyHash s.params (keyOf s n)
        resHome := indexWord (keyHome s.params (keyOf s n)) })) := by
  by_cases h : s.params.maxKeyLen < n
  · left; exact ⟨h, by simp [execHash, keyTooLong, h]⟩
  · right; exact ⟨by omega, by simp [execHash, keyTooLong, h, keyHome]⟩

theorem findOrInsert_of_ok {s : State} {n : Nat} (h0 : n ≠ 0) (h : n ≤ s.params.maxKeyLen) :
    findOrInsert s n = findOrInsertKey s.params s.table (keyOf s n) := by
  have : ¬ s.params.maxKeyLen < n := by omega
  simp [findOrInsert, keyTooLong, this, h0]

theorem execFind_cases (n : Nat) (s : State) :
    (∃ e, findOrInsert s n = .error e ∧ execFind n s = .next (raise e s)) ∨
    (∃ f, findOrInsert s n = .ok f ∧ execFind n s = .next (complete false
      { s with
        table := f.table
        resHash := f.hash
        resHome := indexWord f.home
        resIdx := indexWord f.bucket
        resCount := (f.table.read f.bucket).count
        resInfo := resInfoWord n (!f.claimed) f.claimed (f.attempt + 1) })) := by
  unfold execFind
  cases h : findOrInsert s n with
  | error e => left; exact ⟨e, rfl, rfl⟩
  | ok f => right; exact ⟨f, rfl, rfl⟩

theorem execCount_cases (n : Nat) (s : State) :
    (∃ e, findOrInsert s n = .error e ∧ execCount n s = .next (raise e s)) ∨
    (∃ f, findOrInsert s n = .ok f ∧
      execCount n s = .next (complete (countOverflows (f.table.read f.bucket).count)
        { s with
          table := incBucket f.table f.bucket (sampledSat s)
          resHash := f.hash
          resHome := indexWord f.home
          resIdx := indexWord f.bucket
          resCount := incCount (f.table.read f.bucket).count (sampledSat s)
          resInfo := resInfoWord n (!f.claimed) f.claimed (f.attempt + 1) })) := by
  unfold execCount
  cases h : findOrInsert s n with
  | error e => left; exact ⟨e, rfl, rfl⟩
  | ok f => right; exact ⟨f, rfl, rfl⟩

theorem execIncr_cases (idx : Nat) (s : State) :
    ((s.params.capacity ≤ idx ∨ (s.table.read idx).length = 0) ∧ execIncr idx s = .next (raise .badIndex s)) ∨
    (idx < s.params.capacity ∧ (s.table.read idx).length ≠ 0 ∧
      execIncr idx s = .next (complete (countOverflows (s.table.read idx).count)
        { s with
          table := incBucket s.table idx (sampledSat s)
          resIdx := indexWord idx
          resCount := incCount (s.table.read idx).count (sampledSat s)
          resInfo := resInfoWord (s.table.read idx).length false false 0 })) := by
  by_cases h : idx < s.params.capacity
  · by_cases hl : (s.table.read idx).length = 0
    · left; exact ⟨.inr hl, by simp [execIncr, indexInTable, h, hl]⟩
    · right; exact ⟨h, hl, by simp [execIncr, indexInTable, h, hl]⟩
  · left; exact ⟨.inl (by omega), by simp [execIncr, indexInTable, h]⟩

theorem execRdbkt_cases (idx : Nat) (s : State) :
    (s.params.capacity ≤ idx ∧ execRdbkt idx s = .next (raise .badIndex s)) ∨
    (idx < s.params.capacity ∧ execRdbkt idx s = .next (complete false
      { s with
        bktkey := packBytes fun j => if j < s.params.maxKeyLen then (s.table.read idx).byteAt j else 0
        resIdx := indexWord idx
        resCount := (s.table.read idx).count
        resInfo := resInfoWord (s.table.read idx).length false false 0 })) := by
  by_cases h : idx < s.params.capacity
  · right; exact ⟨h, by simp [execRdbkt, indexInTable, h]⟩
  · left; exact ⟨by omega, by simp [execRdbkt, indexInTable, h]⟩

theorem execTopk_eq (s : State) :
    execTopk s = .next (complete false
      { s with
        topkNum := indexWord (filledSlots (scan s.params s.table)).length
        topkIdx := publish s.params.k (filledSlots (scan s.params s.table)) topkIdxWord s.topkIdx
        topkCnt := publish s.params.k (filledSlots (scan s.params s.table)) Slot.count s.topkCnt }) := rfl

theorem execNop_eq (s : State) : execNop s = .next (complete false s) := rfl

/-- Everything findOrInsert answers for the key in KEYBUF, the length checks included. -/
theorem findOrInsert_cases (s : State) (n : Nat) :
    (s.params.maxKeyLen < n ∧ findOrInsert s n = .error .keyTooLong) ∨
    (n ≤ s.params.maxKeyLen ∧ n = 0 ∧ findOrInsert s n = .error .emptyKey) ∨
    (n ≤ s.params.maxKeyLen ∧ n ≠ 0 ∧ findOrInsert s n = findOrInsertKey s.params s.table (keyOf s n)) := by
  by_cases h : s.params.maxKeyLen < n
  · left; exact ⟨h, by simp [findOrInsert, keyTooLong, h]⟩
  · right
    by_cases h0 : n = 0
    · left; exact ⟨by omega, h0, by simp [findOrInsert, keyTooLong, h0]⟩
    · right; exact ⟨by omega, h0, findOrInsert_of_ok h0 (by omega)⟩

/-- The claim or the match of a successful findOrInsert. -/
theorem findOrInsert_ok {s : State} {n : Nat} {f : Found} (h : findOrInsert s n = .ok f) :
    n ≤ s.params.maxKeyLen ∧ n ≠ 0 ∧ findOrInsertKey s.params s.table (keyOf s n) = .ok f := by
  rcases findOrInsert_cases s n with ⟨-, h'⟩ | ⟨-, -, h'⟩ | ⟨h1, h2, h'⟩
  · rw [h'] at h; cases h
  · rw [h'] at h; cases h
  · rw [h'] at h; exact ⟨h1, h2, h⟩

end Sys2Proof.Machine
end

