-- ==== Sys2Proof/Laws/Exec.lean ====
section
/-! SUPPORT. What every command leaves unchanged, said once: it ends in `complete` of a state that differs in results
and table only, or in `raise` (10_state.md R33, 60_exceptions.md R186). -/

namespace Sys2Proof.Machine

/-- `u` differs from `s` at most in the result registers, the top-K file, BKTKEY and the table. -/
def OnlyResultsDiffer (s u : State) : Prop :=
  u.params = s.params ∧ u.secondHost = s.secondHost ∧ u.ctrl = s.ctrl ∧ u.status = s.status ∧ u.cmd = s.cmd ∧
    u.keybuf = s.keybuf ∧ u.pending = s.pending ∧ u.host = s.host ∧ u.sched = s.sched ∧ u.tick = s.tick ∧
    u.waited = s.waited

theorem OnlyResultsDiffer.refl (s : State) : OnlyResultsDiffer s s :=
  ⟨rfl, rfl, rfl, rfl, rfl, rfl, rfl, rfl, rfl, rfl, rfl⟩

/-- Everything a command can do, but for the values of its results. -/
theorem exec_cases {i : Instr} {s t : State} (h : exec i s = .next t) :
    (∃ overflow u, t = complete overflow u ∧ OnlyResultsDiffer s u) ∨ (∃ e, t = raise e s) := by
  have hok : ∀ (o : Bool) (u : State), Host.Outcome.next (complete o u) = (.next t : Host.Outcome State Fault Refusal) →
      OnlyResultsDiffer s u →
      (∃ overflow u, t = complete overflow u ∧ OnlyResultsDiffer s u) ∨ (∃ e, t = raise e s) := by
    intro o u hu hd
    simp only [Host.Outcome.next.injEq] at hu
    exact .inl ⟨o, u, hu.symm, hd⟩
  have herr : ∀ e : CmdError, Host.Outcome.next (raise e s) = (.next t : Host.Outcome State Fault Refusal) →
      (∃ overflow u, t = complete overflow u ∧ OnlyResultsDiffer s u) ∨ (∃ e, t = raise e s) := by
    intro e he
    simp only [Host.Outcome.next.injEq] at he
    exact .inr ⟨e, he.symm⟩
  cases i with
  | nop => exact hok _ _ h (.refl s)
  | topk => exact hok _ _ h (.refl s)
  | hash n =>
    simp only [exec] at h
    rcases execHash_cases n s with ⟨-, h'⟩ | ⟨-, h'⟩ <;> rw [h'] at h
    · exact herr _ h
    · exact hok _ _ h (.refl s)
  | find n =>
    simp only [exec] at h
    rcases execFind_cases n s with ⟨e, -, h'⟩ | ⟨f, -, h'⟩ <;> rw [h'] at h
    · exact herr _ h
    · exact hok _ _ h (.refl s)
  | count n =>
    simp only [exec] at h
    rcases execCount_cases n s with ⟨e, -, h'⟩ | ⟨f, -, h'⟩ <;> rw [h'] at h
    · exact herr _ h
    · exact hok _ _ h (.refl s)
  | incr idx =>
    simp only [exec] at h
    rcases execIncr_cases idx s with ⟨-, h'⟩ | ⟨-, -, h'⟩ <;> rw [h'] at h
    · exact herr _ h
    · exact hok _ _ h (.refl s)
  | rdbkt idx =>
    simp only [exec] at h
    rcases execRdbkt_cases idx s with ⟨-, h'⟩ | ⟨-, h'⟩ <;> rw [h'] at h
    · exact herr _ h
    · exact hok _ _ h (.refl s)

end Sys2Proof.Machine
end

