-- ==== Sys2Proof/Laws/Flags.lean ====
section
/-! SUPPORT. The fields of STATUS, CTRL, RES_INFO, PARAM_MISC and TOPK_IDX as bits of their words (10_state.md R25,
R29, R43, R48, R51). -/

namespace Sys2Proof.Machine

theorem getLsbD_ofBool_zero (b : Bool) : (BitVec.ofBool b).getLsbD 0 = b := by cases b <;> rfl

/-- Bit `i` of STATUS. -/
theorem Status.getLsbD_word (f : Status) (i : Nat) :
    f.word.getLsbD i =
      if i = 0 then f.busy else if i = 1 then f.done else if i = 2 then f.err else if i = 3 then f.errs
      else if i = 4 then f.ovr else if i = 5 then f.cntOvf else if i = 6 then f.init
      else if i < 8 then false else if i < 16 then f.errCode.getLsbD (i - 8) else false := by
  by_cases h : i < 8
  · interval_cases i <;> simp only [Status.word, BitVec.getLsbD_append] <;> simp
  · simp only [Status.word, BitVec.getLsbD_append]
    have h0 : ¬ i < 1 := by omega
    have h1 : ¬ i - 1 < 1 := by omega
    have h2 : ¬ i - 1 - 1 < 1 := by omega
    have h3 : ¬ i - 1 - 1 - 1 < 1 := by omega
    have h4 : ¬ i - 1 - 1 - 1 - 1 < 1 := by omega
    have h5 : ¬ i - 1 - 1 - 1 - 1 - 1 < 1 := by omega
    have h6 : ¬ i - 1 - 1 - 1 - 1 - 1 - 1 < 1 := by omega
    have h7 : ¬ i - 1 - 1 - 1 - 1 - 1 - 1 - 1 < 1 := by omega
    have e : i - 1 - 1 - 1 - 1 - 1 - 1 - 1 - 1 = i - 8 := by omega
    have g : (i - 8 < 8) ↔ i < 16 := by omega
    simp only [h0, h1, h2, h3, h4, h5, h6, h7, e, g, if_false, h]
    have k0 : i ≠ 0 := by omega
    have k1 : i ≠ 1 := by omega
    have k2 : i ≠ 2 := by omega
    have k3 : i ≠ 3 := by omega
    have k4 : i ≠ 4 := by omega
    have k5 : i ≠ 5 := by omega
    have k6 : i ≠ 6 := by omega
    simp [k0, k1, k2, k3, k4, k5, k6]

/-- Bit `i` of CTRL. -/
theorem Ctrl.getLsbD_word (c : Ctrl) (i : Nat) :
    c.word.getLsbD i = if i = 0 then c.ie else if i = 1 then c.cntSat else false := by
  by_cases h : i < 2
  · interval_cases i <;> simp only [Ctrl.word, BitVec.getLsbD_append] <;> simp
  · simp only [Ctrl.word, BitVec.getLsbD_append]
    have h0 : ¬ i < 1 := by omega
    have h1 : ¬ i - 1 < 1 := by omega
    have k0 : i ≠ 0 := by omega
    have k1 : i ≠ 1 := by omega
    simp [h0, h1, k0, k1]

/-- The field of `v` from bit `lo` on, of a concatenation whose lower part ends there. -/
theorem extract_append_high {n m k : Nat} (x : BitVec n) (y : BitVec m) (lo : Nat) :
    (x ++ y).extractLsb' (m + lo) k = x.extractLsb' lo k := by
  apply BitVec.eq_of_getLsbD_eq
  intro i hi
  simp only [BitVec.getLsbD_extractLsb', BitVec.getLsbD_append, hi, decide_true, Bool.true_and]
  have h : ¬ m + lo + i < m := by omega
  rw [if_neg h]
  congr 1
  omega

/-- A field that lies within the lower part of a concatenation. -/
theorem extract_append_low {n m k : Nat} (x : BitVec n) (y : BitVec m) (lo : Nat) (h : lo + k ≤ m) :
    (x ++ y).extractLsb' lo k = y.extractLsb' lo k := by
  apply BitVec.eq_of_getLsbD_eq
  intro i hi
  simp only [BitVec.getLsbD_extractLsb', BitVec.getLsbD_append, hi, decide_true, Bool.true_and]
  have h : lo + i < m := by omega
  rw [if_pos h]

theorem extract_full {n : Nat} (x : BitVec n) : x.extractLsb' 0 n = x := by
  apply BitVec.eq_of_getLsbD_eq
  intro i hi
  simp [hi]

theorem extract_lowest {n m : Nat} (x : BitVec n) (y : BitVec m) : (x ++ y).extractLsb' 0 m = y := by
  rw [extract_append_low x y 0 (by omega), extract_full]

/-- RES_INFO.LEN (10_state.md R43). -/
theorem resInfoWord_len (len : Nat) (matched claimed : Bool) (probes : Nat) :
    (resInfoWord len matched claimed probes).extractLsb' 16 8 = BitVec.ofNat 8 len := by
  apply BitVec.eq_of_getLsbD_eq
  intro i hi
  interval_cases i <;> simp only [resInfoWord, BitVec.getLsbD_extractLsb', BitVec.getLsbD_append] <;> simp

/-- RES_INFO.MATCHED, CLAIMED and the bit between CLAIMED and PROBES (10_state.md R43). -/
theorem resInfoWord_flags (len : Nat) (matched claimed : Bool) (probes : Nat) :
    (resInfoWord len matched claimed probes).getLsbD 9 = matched ∧
      (resInfoWord len matched claimed probes).getLsbD 8 = claimed ∧
      (resInfoWord len matched claimed probes).getLsbD 7 = false := by
  refine ⟨?_, ?_, ?_⟩ <;> simp only [resInfoWord, BitVec.getLsbD_append] <;> simp

/-- RES_INFO.PROBES (10_state.md R43). -/
theorem resInfoWord_probes (len : Nat) (matched claimed : Bool) (probes : Nat) :
    (resInfoWord len matched claimed probes).extractLsb' 0 7 = BitVec.ofNat 7 probes := by
  apply BitVec.eq_of_getLsbD_eq
  intro i hi
  interval_cases i <;> simp only [resInfoWord, BitVec.getLsbD_extractLsb', BitVec.getLsbD_append] <;> simp

/-- The reserved bits of RES_INFO read 0 (10_state.md R43). -/
theorem resInfoWord_reserved (len : Nat) (matched claimed : Bool) (probes : Nat) :
    resInfoWord len matched claimed probes &&& 0xFF00FC80 = 0 := by
  apply BitVec.eq_of_getLsbD_eq
  intro i hi
  interval_cases i <;> simp only [resInfoWord, BitVec.getLsbD_and, BitVec.getLsbD_append] <;> simp

/-- RES_INFO as INCR and RDBKT write it: LEN alone (10_state.md R43). -/
theorem resInfoWord_length_only (len : Nat) : resInfoWord len false false 0 = 0#8 ++ BitVec.ofNat 8 len ++ 0#16 := by
  apply BitVec.eq_of_getLsbD_eq
  intro i hi
  interval_cases i <;> simp only [resInfoWord, BitVec.getLsbD_append] <;> simp

/-- A filled slot's TOPK_IDX: VALID set, the six bits below clear, the index in 23:0 (10_state.md R48). -/
theorem topkIdxWord_fields (x : BitVec 24) :
    (1#1 ++ 0#7 ++ x).extractLsb' 24 8 = 0x80#8 ∧ (1#1 ++ 0#7 ++ x).extractLsb' 0 24 = x := by
  constructor
  · exact (extract_append_high (1#1 ++ 0#7) x 0).trans (by decide)
  · exact extract_lowest _ _

end Sys2Proof.Machine
end

