-- ==== Sys2Proof/Laws/Host.lean ====
section
/-! SUPPORT. Host variables, and what the offsets of the window name (10_state.md R23, 30_encoding.md R95). -/

namespace Sys2Proof.Machine

/-- A variable is read back as it was assigned. -/
theorem readVar_assignVar_self (vars : List (Nat × Word)) (x : Nat) (v : Word) : readVar (assignVar vars x v) x = v := by
  induction vars with
  | nil => simp [assignVar, readVar]
  | cons c vars ih =>
    obtain ⟨y, u⟩ := c
    unfold assignVar
    split
    · simp [readVar]
    · split
      · simp [readVar]
      · rename_i h1 h2
        simp [readVar, ih, Ne.symm h2]

/-- An assignment leaves every other variable alone. -/
theorem readVar_assignVar_other (vars : List (Nat × Word)) {x y : Nat} (v : Word) (h : y ≠ x) :
    readVar (assignVar vars x v) y = readVar vars y := by
  induction vars with
  | nil => simp [assignVar, readVar, h.symm]
  | cons c vars ih =>
    obtain ⟨z, u⟩ := c
    unfold assignVar
    split
    · simp [readVar, h.symm]
    · split
      · rename_i h2
        subst h2
        simp [readVar, h.symm]
      · simp [readVar, ih]

theorem regAt_keybuf {w : Nat} (hw : w < 32) : regAt (0x100 + 4 * w) = .keybuf w := by
  interval_cases w <;> rfl

/-- A KEYBUF write by its word (10_state.md R49). -/
theorem hostWrite_keybuf {w : Nat} (hw : w < 32) (v : Word) (s : State) :
    hostWrite (0x100 + 4 * w) v s = writeKeybuf w v s := by
  rw [hostWrite, regAt_keybuf hw]
  rfl

theorem hostWrite_ctrl (v : Word) (s : State) : hostWrite 0x004 v s = writeCtrl v s := rfl

theorem hostWrite_status (v : Word) (s : State) : hostWrite 0x008 v s = writeStatus v s := rfl

theorem hostWrite_cmd (v : Word) (s : State) : hostWrite 0x00C v s = writeCmd v s := rfl

theorem hostRead_ctrl (s : State) : hostRead 0x004 s = s.ctrl.word := rfl

theorem hostRead_status (s : State) : hostRead 0x008 s = s.status.word := rfl

/-- A host that has ended makes no move (30_encoding.md R95). -/
theorem hostMove_of_ended {s : State} (h : hostEnded s = true) : hostMove s = .next s := by
  unfold hostEnded at h
  unfold hostMove
  split at h <;> simp_all

end Sys2Proof.Machine
end

