-- ==== Sys2Proof/Laws/PerInstr.lean ====
section
/-! SUPPORT. Per command, as syntax: its word has its opcode in OPC and its operand in OPND (30_encoding.md R86, R94). -/

namespace Sys2Proof.Laws.Fields

/-- The two fields of the word of a command. -/
def Statement (i : Instr) : Prop :=
  opcField (encode i) = opcodeOf i ∧ (i.wellFormed = true → opndField (encode i) = operandOf i)

theorem opcField_encode (i : Instr) : opcField (encode i) = opcodeOf i :=
  Machine.extract_lowest _ _

theorem opndField_encode (i : Instr) : opndField (encode i) = operandOf i % 2 ^ 24 := by
  unfold opndField encode
  rw [show (BitVec.ofNat 24 (operandOf i) ++ opcodeOf i).extractLsb' 8 24 =
    (BitVec.ofNat 24 (operandOf i)).extractLsb' 0 24 from Machine.extract_append_high _ _ 0, Machine.extract_full]
  simp

theorem nop : Statement .nop := ⟨opcField_encode _, fun _ => opndField_encode _⟩

theorem hash (n : Nat) : Statement (.hash n) :=
  ⟨opcField_encode _, fun h => by
    rw [opndField_encode]
    exact Nat.mod_eq_of_lt (of_decide_eq_true h)⟩

theorem find (n : Nat) : Statement (.find n) :=
  ⟨opcField_encode _, fun h => by
    rw [opndField_encode]
    exact Nat.mod_eq_of_lt (of_decide_eq_true h)⟩

theorem incr (idx : Nat) : Statement (.incr idx) :=
  ⟨opcField_encode _, fun h => by
    rw [opndField_encode]
    exact Nat.mod_eq_of_lt (of_decide_eq_true h)⟩

theorem count (n : Nat) : Statement (.count n) :=
  ⟨opcField_encode _, fun h => by
    rw [opndField_encode]
    exact Nat.mod_eq_of_lt (of_decide_eq_true h)⟩

theorem topk : Statement .topk := ⟨opcField_encode _, fun _ => opndField_encode _⟩

theorem rdbkt (idx : Nat) : Statement (.rdbkt idx) :=
  ⟨opcField_encode _, fun h => by
    rw [opndField_encode]
    exact Nat.mod_eq_of_lt (of_decide_eq_true h)⟩

end Sys2Proof.Laws.Fields
end

