-- ==== Sys2Proof/Laws/Table.lean ====
section
/-! SUPPORT. The table invariant through the two writes of the table, a claim and an increment, and the indices and
occupancy of what findOrInsert returns (10_state.md R45, 41_table_lookup.md R123, R126, 42_counter.md R140). -/

namespace Sys2Proof.Machine

/-- The bounds of a legal instance (00_scope.md R6). -/
theorem paramsLegal_bounds {p : Params} (h : paramsLegal p = true) :
    1 ≤ p.capacity ∧ p.capacity ≤ 2 ^ 24 ∧ 1 ≤ p.maxKeyLen ∧ p.maxKeyLen ≤ 128 ∧ 1 ≤ p.probeLimit ∧
      p.probeLimit ≤ 127 ∧ 1 ≤ p.k ∧ p.k ≤ 16 := by
  simp [paramsLegal] at h
  omega

/-- An index of a legal table is not cut by the 32-bit register. -/
theorem indexWord_toNat {p : Params} (h : paramsLegal p = true) {b : Nat} (hb : b < p.capacity) :
    (indexWord b).toNat = b := by
  have := paramsLegal_bounds h
  simp [indexWord]
  omega

/-- The index findOrInsert returns is in the table. -/
theorem findOrInsertKey_bucket_lt {p : Params} {m : Memory} {k : List Byte} {f : Found} (hc : 1 ≤ p.capacity)
    (h : findOrInsertKey p m k = .ok f) : f.bucket < p.capacity ∧ f.home < p.capacity ∧ f.attempt < p.probeLimit := by
  rcases findOrInsertKey_cases p m k with ⟨_, h2⟩ | ⟨j, h1, _, h2⟩ | ⟨j, h1, _, _, h2⟩ <;> rw [h2] at h <;> cases h
  · exact ⟨probe_lt _ _ _ hc, keyHome_lt _ _ hc, ((firstStop_eq_some_iff _ _ _ _ _).1 h1).1⟩
  · exact ⟨probe_lt _ _ _ hc, keyHome_lt _ _ hc, ((firstStop_eq_some_iff _ _ _ _ _).1 h1).1⟩

/-- The bucket findOrInsert returns is occupied. -/
theorem findOrInsertKey_occupied {p : Params} {m : Memory} {k : List Byte} {f : Found} (hk : k ≠ [])
    (h : findOrInsertKey p m k = .ok f) : (f.table.read f.bucket).length ≠ 0 := by
  have hk' : k.length ≠ 0 := by simpa using hk
  rcases findOrInsertKey_cases p m k with ⟨_, h2⟩ | ⟨j, _, _, h2⟩ | ⟨j, _, h3, _, h2⟩ <;> rw [h2] at h <;> cases h
  · rw [Memory.read_write_self _ _ (ne_empty_of_length (by simpa using hk'))]
    simpa using hk'
  · exact h3

theorem keyAt_congr {m m' : Memory} {b : Nat} (h1 : (m'.read b).length = (m.read b).length)
    (h2 : ∀ j, (m'.read b).byteAt j = (m.read b).byteAt j) : keyAt m' b = keyAt m b := by
  unfold keyAt Bucket.storedKey
  rw [h1]
  exact List.map_congr_left fun j _ => h2 j

/-- A table that differs in counts of occupied buckets only keeps the invariant. -/
theorem TableInv.of_same_keys {p : Params} {m m' : Memory} (h : TableInv p m) (hw : Memory.wf m' = true)
    (hl : ∀ b, (m'.read b).length = (m.read b).length) (hb : ∀ b j, (m'.read b).byteAt j = (m.read b).byteAt j)
    (he : ∀ b, ¬ occupiedAt m b → m'.read b = m.read b) : TableInv p m' := by
  have ho : ∀ b, occupiedAt m' b ↔ occupiedAt m b := fun b => by unfold occupiedAt; rw [hl]
  have hk : ∀ b, keyAt m' b = keyAt m b := fun b => keyAt_congr (hl b) (hb b)
  refine ⟨hw, ?_, ?_, ?_, ?_, ?_, ?_⟩
  · intro b h'
    exact h.inTable b ((ho b).1 h')
  · intro b
    rw [hl]
    exact h.lengthBound b
  · intro b h'
    have := (not_congr (ho b)).1 h'
    rw [he b this]
    exact h.emptyIsBlank b this
  · intro b j h'
    rw [hb]
    exact h.zeroBeyondLength b j (by rw [← hl]; exact h')
  · intro b c h1 h2 h3
    rw [hk, hk] at h3
    exact h.noTwoEqualKeys b c ((ho b).1 h1) ((ho c).1 h2) h3
  · intro b h'
    obtain ⟨i, h1, h2, h3⟩ := h.onOwnProbeSequence b ((ho b).1 h')
    rw [hk]
    exact ⟨i, h1, h2, fun j hj => (ho _).2 (h3 j hj)⟩

/-- An increment of an occupied bucket keeps the table invariant (42_counter.md R140). -/
theorem TableInv.incBucket {p : Params} {m : Memory} (h : TableInv p m) {b : Nat} (ho : (m.read b).length ≠ 0)
    (sat : Bool) : TableInv p (Sys2Proof.Machine.incBucket m b sat) := by
  have hs := read_incBucket_self m b sat ho
  have hother := fun c (hc : c ≠ b) => read_incBucket_other m b sat hc
  refine h.of_same_keys (Memory.wf_write h.canonical _ _) ?_ ?_ ?_
  · intro c
    by_cases hc : c = b
    · subst hc; rw [hs]
    · rw [hother c hc]
  · intro c j
    by_cases hc : c = b
    · subst hc; rw [hs]; rfl
    · rw [hother c hc]
  · intro c hc
    by_cases hcb : c = b
    · subst hcb; exact absurd ho hc
    · exact hother c hcb

/-- A claim of the first empty bucket of a key's probe keeps the table invariant (41_table_lookup.md R123). -/
theorem TableInv.claim {p : Params} {m : Memory} (h : TableInv p m) (hp : paramsLegal p = true) {k : List Byte} {i : Nat}
    (hk : k ≠ []) (hkl : k.length ≤ p.maxKeyLen) (hi : firstStop p m k (keyHome p k) = some i)
    (he : (m.read (probe p (keyHome p k) i)).length = 0) :
    TableInv p (m.write (probe p (keyHome p k) i) (claimed (m.read (probe p (keyHome p k) i)) k)) := by
  have hbd := paramsLegal_bounds hp
  obtain ⟨g1, -, g3⟩ := (firstStop_eq_some_iff _ _ _ _ _).1 hi
  generalize hb : probe p (keyHome p k) i = b at *
  have hk0 : k.length ≠ 0 := by simpa using hk
  have hs : (m.write b (claimed (m.read b) k)).read b = claimed (m.read b) k :=
    Memory.read_write_self _ _ (ne_empty_of_length (by simpa using hk0))
  have hother := fun c (hc : c ≠ b) => Memory.read_write_other m (claimed (m.read b) k) hc
  have hblank := h.emptyIsBlank b (by simpa [occupiedAt] using he)
  have hwf : Memory.wf (m.write b (claimed (m.read b) k)) = true := Memory.wf_write h.canonical _ _
  generalize m.write b (claimed (m.read b) k) = m' at *
  have hkey : keyAt m' b = k := by
    unfold keyAt
    rw [hs]
    exact claimed_storedKey _ (by omega)
  have hkeyo : ∀ c, c ≠ b → keyAt m' c = keyAt m c := by
    intro c hc
    unfold keyAt
    rw [hother c hc]
  have hocc : ∀ c, occupiedAt m c → occupiedAt m' c := by
    intro c hc
    unfold occupiedAt
    by_cases hcb : c = b
    · subst hcb; rw [hs]; simpa using hk0
    · rw [hother c hcb]; exact hc
  have hnew : ∀ c, occupiedAt m c → keyAt m c ≠ k := by
    intro c hc hck
    obtain ⟨ic, -, h2, h3⟩ := h.onOwnProbeSequence c hc
    rw [hck] at h2 h3
    rcases lt_trichotomy ic i with hl | hl | hl
    · have := g3 ic hl
      rw [← Bool.not_eq_true, stopsAt_iff, h2] at this
      exact this (.inr hck)
    · subst hl; rw [hb] at h2; subst h2; exact hc he
    · have := h3 i hl
      rw [hb] at this
      exact this he
  have hoccOf : ∀ c, c ≠ b → occupiedAt m' c → occupiedAt m c := by
    intro c hc h'
    unfold occupiedAt at h'
    rw [hother c hc] at h'
    exact h'
  refine ⟨hwf, ?_, ?_, ?_, ?_, ?_, ?_⟩
  · intro c hc
    by_cases hcb : c = b
    · subst hcb; rw [← hb]; exact probe_lt _ _ _ hbd.1
    · exact h.inTable c (hoccOf c hcb hc)
  · intro c
    by_cases hcb : c = b
    · subst hcb; rw [hs]; simpa using hkl
    · rw [hother c hcb]; exact h.lengthBound c
  · intro c hc
    by_cases hcb : c = b
    · subst hcb; unfold occupiedAt at hc; rw [hs] at hc; exact absurd (by simpa using hk0) hc
    · rw [hother c hcb]; exact h.emptyIsBlank c (fun h' => hc (hocc c h'))
  · intro c j hj
    by_cases hcb : c = b
    · subst hcb
      rw [hs] at hj ⊢
      rw [claimed_byteAt_ge _ _ (by simpa using hj), hblank]
      simp
    · rw [hother c hcb] at hj ⊢; exact h.zeroBeyondLength c j hj
  · intro c d hc hd hcd
    by_cases hcb : c = b
    · by_cases hdb : d = b
      · rw [hcb, hdb]
      · subst hcb; rw [hkey, hkeyo d hdb] at hcd; exact absurd hcd.symm (hnew d (hoccOf d hdb hd))
    · by_cases hdb : d = b
      · subst hdb; rw [hkey, hkeyo c hcb] at hcd; exact absurd hcd (hnew c (hoccOf c hcb hc))
      · rw [hkeyo c hcb, hkeyo d hdb] at hcd
        exact h.noTwoEqualKeys c d (hoccOf c hcb hc) (hoccOf d hdb hd) hcd
  · intro c hc
    by_cases hcb : c = b
    · subst hcb
      rw [hkey]
      refine ⟨i, g1, hb, fun j hj => hocc _ ?_⟩
      have := g3 j hj
      rw [← Bool.not_eq_true, stopsAt_iff] at this
      by_contra hno
      exact this (.inl hno)
    · rw [hkeyo c hcb]
      obtain ⟨ic, h1, h2, h3⟩ := h.onOwnProbeSequence c (hoccOf c hcb hc)
      exact ⟨ic, h1, h2, fun j hj => hocc _ (h3 j hj)⟩

/-- findOrInsert keeps the table invariant (10_state.md R45, 41_table_lookup.md R126). -/
theorem TableInv.findOrInsert {p : Params} {m : Memory} (h : TableInv p m) (hp : paramsLegal p = true) {k : List Byte}
    {f : Found} (hk : k ≠ []) (hkl : k.length ≤ p.maxKeyLen) (hf : findOrInsertKey p m k = .ok f) :
    TableInv p f.table := by
  rcases findOrInsertKey_cases p m k with ⟨_, h2⟩ | ⟨j, h1, h2, h4⟩ | ⟨j, h1, h2, h3, h4⟩
  · rw [h2] at hf; cases hf
  · rw [h4] at hf; cases hf
    exact h.claim hp hk hkl h1 h2
  · rw [h4] at hf; cases hf
    exact h

/-- The table of the reset sweep meets the invariant (10_state.md R46). -/
theorem TableInv.empty (p : Params) : TableInv p [] := by
  refine ⟨rfl, ?_, ?_, ?_, ?_, ?_, ?_⟩ <;> intro b <;> simp [occupiedAt]

/-- The attempts before `i` neither claim nor match, in terms of KEYBUF (41_table_lookup.md R126). -/
theorem stopsAt_false_iff (s : State) (n j : Nat) :
    stopsAt s.params s.table (keyOf s n) (keyHome s.params (keyOf s n)) j = false ↔
      (occupiedAt s.table (attemptBucket s n j) ∧ ¬ HoldsKeybuf s n (attemptBucket s n j)) := by
  rw [← Bool.not_eq_true, stopsAt_iff, ← storedKey_eq_keyOf_iff]
  simp [attemptBucket, keyAt]

end Sys2Proof.Machine
end

