-- ==== Sys2Proof/Laws/TopK.lean ====
section
/-! SUPPORT. The result slots: an insertion keeps their number, at most K are filled, and what is published where
(43_topk.md R155, R156). -/

namespace Sys2Proof.Machine

theorem insertSlot_length (b : Slot) (l : List (Option Slot)) : (insertSlot b l).length = l.length := by
  induction l with
  | nil => rfl
  | cons e l ih =>
    cases e with
    | none => simp [insertSlot]
    | some e =>
      simp only [insertSlot]
      split <;> simp [ih]

theorem scanStep_length (m : Memory) (l : List (Option Slot)) (b : Nat) : (scanStep m l b).length = l.length := by
  simp only [scanStep]
  split
  · rfl
  · exact insertSlot_length _ _

theorem foldl_scanStep_length (m : Memory) (bs : List Nat) (l : List (Option Slot)) :
    (bs.foldl (scanStep m) l).length = l.length := by
  induction bs generalizing l with
  | nil => rfl
  | cons b bs ih => rw [List.foldl_cons, ih, scanStep_length]

theorem scan_length (p : Params) (m : Memory) : (scan p m).length = p.k := by
  simp [scan, foldl_scanStep_length]

/-- At most K slots are filled (43_topk.md R161). -/
theorem filledSlots_scan_length_le (p : Params) (m : Memory) : (filledSlots (scan p m)).length ≤ p.k :=
  (List.length_filterMap_le _ _).trans (scan_length p m).le

/-- What TOPK publishes in slot register `j` (43_topk.md R155). -/
theorem wordAt_publish (k : Nat) (r : List Slot) (f : Slot → Word) (old : Vector Word 16) {j : Nat} (hj : j < 16) :
    wordAt (publish k r f old) j = match r[j]? with
      | some e => f e
      | none => if j < k then 0 else wordAt old j := by
  have h : wordAt (publish k r f old) j = _ := wordAt_ofFn _ hj
  exact h.trans (wordAt_of_lt old hj ▸ rfl)

/-- The first `k` slots after an insertion are the insertion into the first `k` slots. -/
theorem take_insertSlot (b : Slot) (l : List (Option Slot)) (k : Nat) :
    (insertSlot b l).take k = insertSlot b (l.take k) := by
  induction l generalizing k with
  | nil => simp [insertSlot]
  | cons e l ih =>
    cases k with
    | zero => simp [insertSlot]
    | succ k =>
      have hdrop : ∀ e : Option Slot, ((e :: l).dropLast).take k = (e :: l.take k).dropLast := by
        intro e
        rw [List.dropLast_eq_take, List.dropLast_eq_take, List.take_take, ← List.take_succ_cons, List.take_take]
        congr 1
        simp
      cases e with
      | none => simp only [insertSlot, List.take_succ_cons, hdrop]
      | some e =>
        simp only [insertSlot, List.take_succ_cons]
        split
        · simp only [List.take_succ_cons, hdrop]
        · simp only [List.take_succ_cons, ih]

end Sys2Proof.Machine
end

