-- ==== Sys2Proof/Tests/Slice0.lean ====
section
/-! SUPPORT. Own tests: the well-formedness smoke, decoding of words written out from 30_encoding.md R86 and R89, one step of
each command with the values of 95_test_vectors.md, and a witness for every statement that has hypotheses. -/

namespace Sys2Proof.Tests

open Sys2Proof.Machine

/-! ## Ill-formed commands are refused (30_encoding.md R94) -/

theorem test_hash_operand_too_wide : (Instr.hash 16777216).wellFormed = false := by decide

theorem test_find_operand_too_wide : (Instr.find 16777216).wellFormed = false := by decide

theorem test_incr_operand_too_wide : (Instr.incr 16777216).wellFormed = false := by decide

theorem test_count_operand_too_wide : (Instr.count 16777216).wellFormed = false := by decide

theorem test_rdbkt_operand_too_wide : (Instr.rdbkt 16777216).wellFormed = false := by decide

theorem test_largest_operand_fits : (Instr.count 16777215).wellFormed = true := by decide

/-! ## Words written out bit by bit: OPND in 31:8, OPC in 7:0 (30_encoding.md R86, R89) -/

theorem test_decode_nop : decode 0b000000000000000000000000_00000000#32 = .legal .nop := by decide

theorem test_decode_hash : decode 0b000000000000000000000011_00000001#32 = .legal (.hash 3) := by decide

theorem test_decode_find : decode 0b000000000000000000000101_00000010#32 = .legal (.find 5) := by decide

theorem test_decode_incr : decode 0b000010001110100100101010_00000011#32 = .legal (.incr 583978) := by decide

theorem test_decode_count : decode 0b111111111111111111111111_00000100#32 = .legal (.count 16777215) := by decide

theorem test_decode_topk : decode 0b000000000000000000000000_00000101#32 = .legal .topk := by decide

theorem test_decode_rdbkt : decode 0b001000000000000000000000_00000110#32 = .legal (.rdbkt 2097152) := by decide

/-- 95_test_vectors.md E-9 to E-13 and X-8. -/
theorem test_illegal_words :
    decode 0x00000007#32 = .illegal (.reservedOpcode 0x07) ∧ decode 0x000000FF#32 = .illegal (.reservedOpcode 0xFF) ∧
    decode 0x00000105#32 = .illegal (.operandNotZero 0x05 1) ∧ decode 0x0000C800#32 = .illegal (.operandNotZero 0x00 200) ∧
    decode 0x80000000#32 = .illegal (.operandNotZero 0x00 0x800000) ∧
    decode 0x12345678#32 = .illegal (.reservedOpcode 0x78) := by decide

theorem test_table_words :
    decodeTableWord 32 0x00000301 = some (.hash 3) ∧ decodeTableWord 8 0x00000301 = some (.hash 0) ∧
    decodeTableWord 32 0x00000105 = none := by decide

/-- An operand given to NOP, none given to HASH, or one of 25 bits is refused (30_encoding.md R94). -/
theorem test_assembler_refuses :
    assembleCommand "NOP" (some 0) = none ∧ assembleCommand "HASH" none = none ∧
    assembleCommand "COUNT" (some 16777216) = none := by decide

/-! ## Small states -/

/-- `s` with the key in KEYBUF, the other key bytes 0. -/
def withKey (s : State) (key : String) : State :=
  { s with keybuf := packBytes fun j => (bytesOf key)[j]?.getD 0 }

/-- The state after one whole command, `s` itself if there is none. -/
def after (i : Instr) (s : State) : State := (nextOf (runCommand i s)).getD s

/-- A bucket with a key and a count. -/
def bucketOf (key : String) (count : Word) : Bucket :=
  { key := Vector.ofFn fun j => (bytesOf key)[j.val]?.getD 0, length := key.length, count := count }

/-- A small instance: CAPACITY 5, K 2 (the parameters of 95_test_vectors.md L3-4). -/
def small : State := { State.reset with params := { defaultParams with capacity := 5, k := 2 } }

/-! ## One command each, from 95_test_vectors.md -/

/-- L1-1: the hash and home of "the". -/
theorem test_hash_the :
    (after (.hash 3) (withKey State.reset "the")).resHash = 0xE6C8F060#32 ∧
    (after (.hash 3) (withKey State.reset "the")).resHome = 583978#32 := by decide +kernel

/-- H-15 and H-18: a tail byte of 0x80 and above is sign-extended. -/
theorem test_hash_signed_tail :
    keyHash defaultParams [0xFF] = 0x00000000#32 ∧ keyHash defaultParams [0x61, 0x62, 0x80] = 0x81AA4BD5#32 := by
  decide +kernel

/-- F-1. -/
theorem test_find_claims :
    (after (.find 3) (withKey State.reset "byg")).resIdx = 1355282#32 ∧
    (after (.find 3) (withKey State.reset "byg")).resInfo = 0x00030101#32 := by decide +kernel

/-- F-2: the same home, occupied, so attempt 2 claims the next bucket. -/
theorem test_find_second_key_of_one_home :
    (after (.find 3) (withKey { State.reset with table := [(1355282, bucketOf "byg" 0)] } "cvu")).resIdx = 1355283#32 ∧
    (after (.find 3) (withKey { State.reset with table := [(1355282, bucketOf "byg" 0)] } "cvu")).resInfo =
      0x00030103#32 := by
  decide +kernel

/-- N-2: wraparound at 0xFFFFFFFF, with CNT_OVF. -/
theorem test_incr_wraps :
    (after (.incr 7) { State.reset with table := [(7, bucketOf "a" 0xFFFFFFFF)] }).resCount = 0#32 ∧
    (after (.incr 7) { State.reset with table := [(7, bucketOf "a" 0xFFFFFFFF)] }).status.word = 0x00000022#32 := by
  decide +kernel

/-- N-3: saturation at 0xFFFFFFFF, with CNT_OVF. -/
theorem test_incr_saturates :
    (after (.incr 7) { State.reset with table := [(7, bucketOf "a" 0xFFFFFFFF)], ctrl := { ie := false, cntSat := true } }).resCount =
      0xFFFFFFFF#32 ∧
    (after (.incr 7)
      { State.reset with table := [(7, bucketOf "a" 0xFFFFFFFF)], ctrl := { ie := false, cntSat := true } }).status.word =
      0x00000022#32 := by
  decide +kernel

/-- CT-1: a claim and an increment. -/
theorem test_count_claims :
    (after (.count 3) (withKey State.reset "the")).resInfo = 0x00030101#32 ∧
    (after (.count 3) (withKey State.reset "the")).table.read 583978 = bucketOf "the" 1 := by
  decide +kernel

/-- L3-4: "r" finds the buckets 0, 1 and 4 only, all occupied. -/
theorem test_count_exhausts :
    (after (.count 1) (withKey
      { small with table := [(0, bucketOf "b" 1), (1, bucketOf "h" 1), (4, bucketOf "m" 1)] } "r")).status.word =
      0x0000020E#32 := by
  decide +kernel

/-- K-4: the highest count first, whatever the order of the indices. -/
theorem test_topk_selects :
    (after .topk { small with table := [(0, bucketOf "a" 1), (1, bucketOf "a" 3), (2, bucketOf "a" 2), (4, bucketOf "a" 1)] }).topkNum = 2#32 ∧
    (wordAt (after .topk
      { small with table := [(0, bucketOf "a" 1), (1, bucketOf "a" 3), (2, bucketOf "a" 2), (4, bucketOf "a" 1)] }).topkIdx 0) = 0x80000001#32 ∧
    (wordAt (after .topk
      { small with table := [(0, bucketOf "a" 1), (1, bucketOf "a" 3), (2, bucketOf "a" 2), (4, bucketOf "a" 1)] }).topkIdx 1) = 0x80000002#32 := by
  decide +kernel

/-- I-3. -/
theorem test_rdbkt_reads_key :
    wordAt (after (.rdbkt 583978) { State.reset with table := [(583978, bucketOf "the" 1)] }).bktkey 0 = 0x00656874#32 ∧
    (after (.rdbkt 583978) { State.reset with table := [(583978, bucketOf "the" 1)] }).resInfo = 0x00030000#32 := by
  decide +kernel

/-- I-5: the index CAPACITY. -/
theorem test_rdbkt_bad_index : (after (.rdbkt 2097153) State.reset).status.word = 0x0000040E#32 := by decide +kernel

/-- I-1: NOP after an error keeps ERRS and clears ERR and ERR_CODE. -/
theorem test_nop_after_error : (after .nop (after (.find 0) State.reset)).status.word = 0x0000000A#32 := by decide +kernel

/-- The first step after reset runs the command loaded into the latch. -/
theorem test_step_runs_fetched_word :
    ((nextOf (step (State.reset.withFetchWord 32 0x00000006))).map fun t => (t.resIdx, t.status.word)) =
      some (0#32, 0x00000002#32) := by decide +kernel

/-! ## Registers a host program may name (10_state.md R23): the ends of each array and range, and just beyond -/

theorem test_register_names : [Reg.status, .topkIdx 15, .keybuf 31, .bktkey 31, .reserved 0x030, .reserved 0xFFC].all regNamed = true ∧
    [Reg.topkIdx 16, .topkCnt 16, .keybuf 32, .bktkey 32, .reserved 0x100, .reserved 0x1000, .reserved 0x031].any regNamed = false := by
  decide

/-! ## Witnesses: concrete states and operands that meet the hypotheses of a statement -/

theorem next_of_any {o : Host.Outcome State Fault Refusal} {P : State → Bool} (h : (nextOf o).any P = true) :
    ∃ t, o = .next t ∧ P t = true := by
  cases o with
  | next t => exact ⟨t, rfl, h⟩
  | fault r => cases h
  | refused r => cases h

theorem next_of_isSome {o : Host.Outcome State Fault Refusal} (h : (nextOf o).isSome = true) : ∃ t, o = .next t := by
  cases o with
  | next t => exact ⟨t, rfl⟩
  | fault r => cases h
  | refused r => cases h

theorem defaultParams_legal : paramsLegal defaultParams = true := by decide

/-- A command pending, the host ended. -/
def pendingState (i : Instr) : State := accept (encode i) (withKey State.reset "the")

/-- A host about to run one statement, the CORE idle. -/
def atStmt (st : Stmt) : State := { State.reset with host := { program := [st, .halt], pc := 0, vars := [] } }

theorem pendingState_moves (i : Instr) :
    InContract (pendingState i) ∧ CoreMovesAt (pendingState i) (pendingState i) ∧
      (pendingState i).status.init = false :=
  ⟨⟨defaultParams_legal, rfl⟩, .inr (.inl ⟨rfl, rfl, rfl⟩), rfl⟩

theorem atStmt_moves (st : Stmt) : InContract (atStmt st) ∧ HostMovesAt (atStmt st) (atStmt st) :=
  ⟨⟨defaultParams_legal, rfl⟩, .inr (.inl ⟨rfl, rfl, rfl, rfl⟩)⟩

theorem resultsInv_of_zero {s : State} (hp : paramsLegal s.params = true) (h1 : s.resHome = 0) (h2 : s.resIdx = 0)
    (h3 : s.resInfo = 0) (h4 : s.topkNum = 0) (h5 : s.topkIdx = Vector.replicate 16 0)
    (h6 : s.topkCnt = Vector.replicate 16 0) : ResultsInv s := by
  have hbd := paramsLegal_bounds hp
  refine ⟨?_, ?_, ?_, ?_, ?_, ?_, ?_, ?_, ?_⟩
  · rw [h1]; simp; omega
  · rw [h2]; simp; omega
  · rw [h3]; simp
  · rw [h3]; simp
  · rw [h3]; simp
  · rw [h4]; simp
  · rw [h4]; intro j hj; simp at hj
  · rw [h5, h6]; intro j _; simp
  · rw [h4]; intro j hj; simp at hj

/-- A table that holds the key "the", from a claim on the empty one. -/
@[irreducible] def theTable : Memory :=
  match findOrInsertKey defaultParams [] (bytesOf "the") with
  | .ok f => f.table
  | .error _ => []

theorem theTable_inv : TableInv defaultParams theTable := by
  have hk : (findOrInsertKey defaultParams [] (bytesOf "the")).isOk = true := by decide +kernel
  unfold theTable
  cases hf : findOrInsertKey defaultParams [] (bytesOf "the") with
  | error e => rw [hf] at hk; cases hk
  | ok f => exact (TableInv.empty defaultParams).findOrInsert defaultParams_legal (by decide) (by decide) hf

theorem theTable_occupied : occupiedAt theTable 583978 := by
  unfold occupiedAt
  decide +kernel

/-- A state that holds `theTable` and no results meets the invariant if its STATUS and latch agree. -/
theorem machineInv_of_status {s : State} (hp : s.params = defaultParams) (ht : s.table = theTable) (hs : StatusInv s)
    (h1 : s.resHome = 0) (h2 : s.resIdx = 0) (h3 : s.resInfo = 0) (h4 : s.topkNum = 0)
    (h5 : s.topkIdx = Vector.replicate 16 0) (h6 : s.topkCnt = Vector.replicate 16 0) : MachineInv s :=
  ⟨by rw [hp]; exact defaultParams_legal, by rw [hp, ht]; exact theTable_inv, hs,
    resultsInv_of_zero (by rw [hp]; exact defaultParams_legal) h1 h2 h3 h4 h5 h6⟩

/-- A state with an occupied bucket and a command pending. -/
def busyState (i : Instr) : State := { pendingState i with table := theTable }

theorem busyState_statusInv (i : Instr) : StatusInv (busyState i) := by
  refine ⟨rfl, nofun, fun _ => rfl, fun _ => rfl, ?_, ?_⟩
  · simp [busyState, pendingState, accept, Status.accepted]
  · intro q hq
    simp only [busyState, pendingState, accept, Option.some.injEq] at hq
    rw [← hq]
    rfl

theorem busyState_inv (i : Instr) : MachineInv (busyState i) :=
  machineInv_of_status rfl rfl (busyState_statusInv i) rfl rfl rfl rfl rfl rfl

/-- An idle state with an occupied bucket. -/
def idleState : State := { withKey State.reset "the" with table := theTable }

theorem idleState_statusInv : StatusInv idleState := ⟨rfl, nofun, nofun, nofun, rfl, nofun⟩

theorem idleState_inv : MachineInv idleState :=
  machineInv_of_status rfl rfl idleState_statusInv rfl rfl rfl rfl rfl rfl

theorem witness_DecodeInvertsEncode : decode 0xFFFFFF06#32 = .legal (.rdbkt 16777215) ∧
    (Instr.rdbkt 16777215).wellFormed = true ∧ encode (.rdbkt 16777215) = 0xFFFFFF06#32 := by decide

theorem witness_OpcodeMapDecides :
    decode 0x00000104#32 = .legal (.count 1) ∧ opcodeRow (.count 1) ∈ opcodeTable ∧
      0x00000104#32 &&& (opcodeRow (.count 1)).mask = (opcodeRow (.count 1)).pattern := by decide

theorem witness_DisassemblyAssemblesBack :
    decode 0x00000301#32 = .legal (.hash 3) ∧ decode 0x00000107#32 = .illegal (.reservedOpcode 0x07) := by decide

theorem witness_StepPerformsPendingCommand :
    InContract (pendingState (.count 3)) ∧ CoreMovesAt (pendingState (.count 3)) (pendingState (.count 3)) ∧
      (pendingState (.count 3)).status.init = false ∧
      (pendingState (.count 3)).pending = some { word := 0x00000304#32, sat := false } ∧
      decode 0x00000304#32 = .legal (.count 3) :=
  ⟨(pendingState_moves _).1, (pendingState_moves _).2.1, rfl, by decide, by decide⟩

/-- The boundary opcode 0x07, and NOP and TOPK with operand 1. -/
theorem witness_IllegalWordRaisesIllegalCommand : ∀ w ∈ [0x00000007#32, 0x00000100#32, 0x00000105#32],
    ∃ s : State, InContract s ∧ CoreMovesAt s s ∧ s.status.init = false ∧
      s.pending = some { word := w, sat := false } ∧
      (0x07 ≤ (w.extractLsb' 0 8).toNat ∨
        (((w.extractLsb' 0 8).toNat = 0x00 ∨ (w.extractLsb' 0 8).toNat = 0x05) ∧ (w.extractLsb' 8 24).toNat ≠ 0)) := by
  intro w hw
  refine ⟨accept w State.reset, ⟨defaultParams_legal, rfl⟩, .inr (.inl ⟨rfl, rfl, rfl⟩), rfl, rfl, ?_⟩
  simp only [List.mem_cons, List.not_mem_nil, or_false] at hw
  rcases hw with rfl | rfl | rfl <;> decide

/-- A command pending while the host runs, with no move fixed, and with five moves of the host fixed before the sequencer's. -/
theorem witness_CompletionOrderIsOpenAndFair :
    (InContract (accept 0 (atStmt (.goto 0))) ∧ coreReady (accept 0 (atStmt (.goto 0))) = true ∧
      (accept 0 (atStmt (.goto 0))).status.init = false ∧ (accept 0 (atStmt (.goto 0))).pending.isSome = true ∧
      hostEnded (accept 0 (atStmt (.goto 0))) = false ∧ (accept 0 (atStmt (.goto 0))).sched = []) ∧
    ∃ t, Host.Core.run Sys2Proof.core 5
      { accept 0 (atStmt (.goto 0)) with sched := List.replicate 5 Move.host ++ .core :: [] } = .next t := by
  refine ⟨⟨⟨defaultParams_legal, rfl⟩, rfl, rfl, rfl, rfl, rfl⟩, ?_⟩
  have h : (nextOf (Host.Core.run Sys2Proof.core 5
      { accept 0 (atStmt (.goto 0)) with sched := List.replicate 5 Move.host ++ .core :: [] })).isSome = true := by
    decide +kernel
  exact next_of_isSome h

theorem witness_HaltedRunCompletesThenIdles :
    (InContract (busyState .topk) ∧ MachineInv (busyState .topk) ∧ (busyState .topk).sched = [] ∧
      hostEnded (busyState .topk) = true ∧ (busyState .topk).status.busy = true) ∧
    (InContract idleState ∧ MachineInv idleState ∧ idleState.sched = [] ∧ runEnded idleState = true) :=
  ⟨⟨⟨defaultParams_legal, rfl⟩, busyState_inv _, rfl, rfl, rfl⟩, ⟨⟨defaultParams_legal, rfl⟩, idleState_inv, rfl, rfl⟩⟩

/-- One value past each bound of 00_scope.md R6, and a second host. -/
theorem witness_OutsideContractIsRefused :
    (2 ^ 24 < ({ State.reset with params := { defaultParams with capacity := 2 ^ 24 + 1 } } : State).params.capacity) ∧
    (({ State.reset with params := { defaultParams with maxKeyLen := 0 } } : State).params.maxKeyLen < 1) ∧
    (127 < ({ State.reset with params := { defaultParams with probeLimit := 128 } } : State).params.probeLimit) ∧
    (16 < ({ State.reset with params := { defaultParams with k := 17 } } : State).params.k) ∧
    (31 < ({ State.reset with params := { defaultParams with shifts := { defaultShifts with v6 := 32 } } } :
      State).params.shifts.v6) ∧
    ({ State.reset with secondHost := true } : State).secondHost = true := by decide

theorem witness_CmdWriteAcceptsOrDrops :
    (pendingState .nop).status.busy = true ∧ State.reset.status.busy = false ∧ State.reset.status.init = false := by decide

theorem witness_KeybufWriteStoresLittleEndian :
    31 < 32 ∧ (pendingState .nop).status.busy = true ∧ State.reset.status.busy = false ∧ 3 < 4 ∧ 127 / 4 ≠ 30 := by decide

theorem witness_CtrlWriteActsAtOnce :
    (0x7FFFFFFF#32).getLsbD 31 = false ∧ (pendingState .nop).pending.isSome = true := by decide

/-- The offsets next to the writable ones. -/
theorem witness_OtherWritesHaveNoEffect : ∀ off ∈ [0x000, 0x010, 0x0FC, 0x180, 0xFFC],
    off % 4 = 0 ∧ off ≤ 0xFFC ∧ off ≠ 0x004 ∧ off ≠ 0x008 ∧ off ≠ 0x00C ∧ ¬ (0x100 ≤ off ∧ off < 0x180) := by decide

/-- Both ends of each reserved range, and the last register of each array. -/
theorem witness_RegisterMapReads : State.reset.params = defaultParams ∧ 15 < 16 ∧ 31 < 32 ∧
    ∀ off ∈ [0x030, 0x03C, 0x0C0, 0x0FC, 0x200, 0xFFC],
      (0x030 ≤ off ∧ off < 0x040) ∨ (0x0C0 ≤ off ∧ off < 0x100) ∨ (0x200 ≤ off ∧ off ≤ 0xFFC) := by decide

/-- A performed access at the last offset, and one refused for each of the three reasons. -/
theorem witness_AccessOutsideContractIsRefused : ∀ a ∈ [Access.mk 0xFFC 32, ⟨0x000, 8⟩, ⟨0x002, 32⟩, ⟨0x1000, 32⟩],
    ∃ s : State, InContract s ∧ HostMovesAt s s ∧ hostStmt s = some (.rd a 0) := by
  intro a _
  exact ⟨atStmt (.rd a 0), (atStmt_moves _).1, (atStmt_moves _).2, rfl⟩

theorem witness_HostStatements :
    (∀ st ∈ [Stmt.wr (regAccess (.keybuf 31)) 7, .rd (regAccess (.bktkey 31)) 2, .cmd (.count 16777215), .bnz 0 1 0,
        .bz 0 1 0, .goto 5, .halt],
      InContract (atStmt st) ∧ HostMovesAt (atStmt st) (atStmt st) ∧ hostStmt (atStmt st) = some st) ∧
    (regOffset (.keybuf 31) % 4 = 0 ∧ regOffset (.keybuf 31) < 0x1000) ∧
    (regOffset (.bktkey 31) % 4 = 0 ∧ regOffset (.bktkey 31) < 0x1000) ∧ (Instr.count 16777215).wellFormed = true :=
  ⟨fun st _ => ⟨(atStmt_moves st).1, (atStmt_moves st).2, rfl⟩, by decide, by decide, by decide⟩

/-- Keys of 0, 5 and 128 bytes. -/
theorem witness_KeyExpansionWritesKey : ∀ n ∈ [0, 5, 128],
    (List.replicate n (0x61#8)).length ≤ 128 ∧ State.reset.status.busy = false := by
  simp [State.reset, Status.reset]

/-- A host at a POLL. -/
def pollState : State :=
  { State.reset with host := { program := pollStmts 0 0, pc := 0, vars := [] }, sched := [.host, .host] }

theorem witness_PollWaitsForBusyZero :
    InContract pollState ∧ pollState.sched = .host :: .host :: [] ∧
      hostStmt pollState = some (.rd (regAccess .status) 0) ∧
      pollState.host.program[pollState.host.pc + 1]? = some (.bnz 0 0x1 pollState.host.pc) ∧
      pollState.status.busy = false ∧ (accept 0 pollState).status.busy = true :=
  ⟨⟨defaultParams_legal, rfl⟩, rfl, rfl, rfl, rfl, rfl⟩

theorem witness_ResetValues : (0x7FFFFFFF#32).getLsbD 31 = false ∧ 15 < 16 ∧ 31 < 32 := by decide

theorem witness_ResetSourcesAreIdentical :
    InContract (pendingState (.count 3)) ∧ (0x80000001#32).getLsbD 31 = true :=
  ⟨(pendingState_moves _).1, by decide⟩

theorem witness_SweepEndClearsTable :
    InContract (enterReset idleState) ∧ CoreMovesAt (enterReset idleState) (enterReset idleState) ∧
      (enterReset idleState).status.init = true :=
  ⟨⟨defaultParams_legal, rfl⟩, .inr (.inl ⟨rfl, rfl, rfl⟩), rfl⟩

theorem witness_WritesDuringSweep :
    31 < 32 ∧ (0x00000003#32).getLsbD 31 = false ∧ (0x80000000#32).getLsbD 31 = true := by decide

theorem witness_CommandEndsInOneOfTwoWays : (pendingState (.count 3)).status.err = false := by decide

theorem witness_ErrorChangesOnlyStatus : (pendingState (.find 0)).status.err = false ∧
    ∃ t, exec (.find 0) (pendingState (.find 0)) = .next t ∧ t.status.err = true :=
  ⟨rfl, next_of_any (P := fun t => t.status.err) (by decide +kernel)⟩

theorem witness_KeyLengthErrors : State.reset.params.maxKeyLen < 126 := by decide

theorem witness_BadIndexRaised :
    (State.reset.params.capacity ≤ 2097153) ∧ ¬ occupiedAt State.reset.table 5 :=
  ⟨by decide, fun h => h rfl⟩

/-- One bucket, and it holds another key (95_test_vectors.md CT-3). -/
def fullState : State :=
  { withKey State.reset "b" with params := { defaultParams with capacity := 1 }, table := [(0, bucketOf "a" 1)] }

theorem fullState_reaches : ProbeReaches fullState 1 64 := by
  intro j _
  have hb : attemptBucket fullState 1 j = 0 := by
    have := probe_lt fullState.params (keyHome fullState.params (keyOf fullState 1)) j (by decide)
    have hc : fullState.params.capacity = 1 := rfl
    unfold attemptBucket
    omega
  rw [hb]
  refine ⟨by unfold occupiedAt; decide, fun h => ?_⟩
  exact absurd (h.2 0 (by omega)) (by decide +kernel)

theorem witness_ExhaustedProbeRaisesInsertionExhausted :
    1 ≤ 1 ∧ 1 ≤ fullState.params.maxKeyLen ∧ ProbeReaches fullState 1 fullState.params.probeLimit :=
  ⟨by decide, by decide, fullState_reaches⟩

/-- Words of each case of the priority list, the boundary values among them: `n` = 0, 1, 125 and 126, `idx` = CAPACITY - 1
and CAPACITY. -/
def priorityWords : List Word :=
  [0x0000C800, 0x00000000, 0x00000005, 0x00007E01, 0x00007D01, 0x00000002, 0x00000102, 0x00000004, 0x00000104,
    0x20000103, 0x20000003, 0x20000106, 0x20000006]

theorem witness_ErrorsInPriorityOrder :
    State.reset.status.err = false ∧ ∀ w ∈ priorityWords, ∃ t, performWord w State.reset = .next t := by
  have h : (priorityWords.all fun w => (nextOf (performWord w State.reset)).isSome) = true := by decide +kernel
  exact ⟨rfl, fun w hw => next_of_isSome (List.all_eq_true.1 h w hw)⟩

theorem witness_NopOnlyCompletes :
    (∃ t, runCommand .nop { State.reset with ctrl := { ie := true, cntSat := false } } = .next t) :=
  ⟨_, rfl⟩

/-- The longest key. -/
theorem witness_HashResult : 125 ≤ State.reset.params.maxKeyLen := by decide

/-- Two states whose KEYBUF differs at and beyond the key's length only. -/
theorem witness_HashDependsOnKeyOnly :
    (withKey State.reset "the").params = (withKey State.reset "then").params ∧
    (∀ j < 3, bufByte (withKey State.reset "the").keybuf j = bufByte (withKey State.reset "then").keybuf j) ∧
    (∃ u, exec (.hash 3) (withKey State.reset "the") = .next u) ∧
    (∃ v, exec (.hash 3) (withKey State.reset "then") = .next v) ∧ 3 ≤ (withKey State.reset "the").params.maxKeyLen :=
  ⟨rfl, by decide +kernel, next_of_isSome (by decide +kernel), next_of_isSome (by decide +kernel), by decide⟩

theorem witness_ZeroHashes : defaultParams.hashTailSigned = true := by decide

theorem witness_ProbedIndexInTable : 1 ≤ ({ defaultParams with capacity := 1 } : Params).capacity := by decide

theorem witness_ProbeCoverage :
    0 < ({ defaultParams with capacity := 1 } : Params).capacity ∧
    1922 < ({ defaultParams with capacity := 1923 } : Params).capacity ∧
    1922 < ({ defaultParams with capacity := 1923 } : Params).capacity ∧ 63 < 64 := by decide

/-- "the" on the empty table, at attempt 0. -/
theorem witness_FindClaimsEmptyBucket :
    paramsLegal (withKey State.reset "the").params = true ∧ 1 ≤ 3 ∧ 3 ≤ (withKey State.reset "the").params.maxKeyLen ∧
      0 < (withKey State.reset "the").params.probeLimit ∧ ProbeReaches (withKey State.reset "the") 3 0 ∧
      ¬ occupiedAt (withKey State.reset "the").table (attemptBucket (withKey State.reset "the") 3 0) :=
  ⟨defaultParams_legal, by decide, by decide, by decide, fun j hj => absurd hj (by omega), fun h => h rfl⟩

theorem witness_CountClaimsWithCountOne :
    paramsLegal (pendingState (.count 3)).params = true ∧ 1 ≤ 3 ∧ 3 ≤ (pendingState (.count 3)).params.maxKeyLen ∧
      0 < (pendingState (.count 3)).params.probeLimit ∧ ProbeReaches (pendingState (.count 3)) 3 0 ∧
      ¬ occupiedAt (pendingState (.count 3)).table (attemptBucket (pendingState (.count 3)) 3 0) :=
  ⟨defaultParams_legal, by decide, by decide, by decide, fun j hj => absurd hj (by omega), fun h => h rfl⟩

theorem idleState_holds : HoldsKeybuf idleState 3 (attemptBucket idleState 3 0) := by
  constructor
  · decide +kernel
  · decide +kernel

/-- "the" on a table that holds it, at attempt 0. -/
theorem witness_FindReturnsMatchingBucket :
    1 ≤ 3 ∧ 3 ≤ idleState.params.maxKeyLen ∧ 0 < idleState.params.probeLimit ∧ ProbeReaches idleState 3 0 ∧
      HoldsKeybuf idleState 3 (attemptBucket idleState 3 0) :=
  ⟨by decide, by decide, by decide, fun j hj => absurd hj (by omega), idleState_holds⟩

theorem witness_CountIncrementsMatchingBucket :
    (busyState (.count 3)).pending = some { word := 0x00000304#32, sat := false } ∧ 1 ≤ 3 ∧
      3 ≤ (busyState (.count 3)).params.maxKeyLen ∧ 0 < (busyState (.count 3)).params.probeLimit ∧
      ProbeReaches (busyState (.count 3)) 3 0 ∧
      HoldsKeybuf (busyState (.count 3)) 3 (attemptBucket (busyState (.count 3)) 3 0) :=
  ⟨by decide, by decide, by decide, by decide, fun j hj => absurd hj (by omega), idleState_holds⟩

theorem witness_IncrResult :
    (busyState (.incr 583978)).pending = some { word := 0x08E92A03#32, sat := false } ∧
      583978 < (busyState (.incr 583978)).params.capacity ∧ occupiedAt (busyState (.incr 583978)).table 583978 :=
  ⟨by decide, by decide, theTable_occupied⟩

/-- The last index of the table. -/
theorem witness_RdbktResult : 2097152 < State.reset.params.capacity := by decide

theorem witness_TopkPublishesScan :
    paramsLegal idleState.params = true ∧ 0 < idleState.params.k ∧
      (filledSlots (scan idleState.params idleState.table))[0]?.isSome = true ∧
      (filledSlots (scan idleState.params idleState.table))[1]? = none := by decide +kernel

theorem witness_ScanVisitsEveryBucket : Memory.wf theTable = true := theTable_inv.canonical

/-- A table with an occupied bucket that K = 1 does not select. -/
theorem witness_TopkCharacterisation :
    Memory.wf [(0, bucketOf "a" 1), (3, bucketOf "a" 2)] = true ∧
      0 ∈ occupiedBuckets { defaultParams with capacity := 5, k := 1 } [(0, bucketOf "a" 1), (3, bucketOf "a" 2)] ∧
      slotOf [(0, bucketOf "a" 1), (3, bucketOf "a" 2)] 0 ∉
        filledSlots (scan { defaultParams with capacity := 5, k := 1 } [(0, bucketOf "a" 1), (3, bucketOf "a" 2)]) := by
  decide +kernel

theorem witness_TopkBoundedAndSorted :
    paramsLegal State.reset.params = true ∧ (∃ t, exec .topk State.reset = .next t) ∧
      (∀ b, ¬ occupiedAt State.reset.table b) :=
  ⟨defaultParams_legal, ⟨_, rfl⟩, fun _ h => h rfl⟩

theorem witness_SmallerSelectionIsInitialSlots : 0 ≤ defaultParams.k ∧ 10 ≤ defaultParams.k := by decide

/-- Each command answers a next state. -/
theorem witness_CommandFrame : ∀ i ∈ [Instr.nop, .hash 3, .find 3, .incr 583978, .count 3, .topk, .rdbkt 583978],
    ∃ t, exec i (busyState i) = .next t := by
  intro i hi
  refine next_of_isSome ?_
  revert i
  decide +kernel

/-- Each command answers a next state; FIND returns a bucket, and an error. -/
theorem witness_TableFrame :
    (∀ i ∈ [Instr.nop, .hash 3, .find 3, .incr 583978, .count 3, .topk, .rdbkt 583978],
      ∃ t, exec i (busyState i) = .next t) ∧
    (∃ f, findOrInsert (busyState (.find 3)) 3 = .ok f) ∧ (∃ e, findOrInsert (busyState (.find 0)) 0 = .error e) := by
  refine ⟨witness_CommandFrame, ?_, ⟨.emptyKey, by decide +kernel⟩⟩
  have h : (findOrInsert (busyState (.find 3)) 3).isOk = true := by decide +kernel
  cases hf : findOrInsert (busyState (.find 3)) 3 with
  | ok f => exact ⟨f, rfl⟩
  | error e => rw [hf] at h; cases h

theorem witness_CountIsFindThenIncr :
    paramsLegal idleState.params = true ∧ ∃ t, runCommand (.count 3) idleState = .next t ∧ t.status.err = false := by
  refine ⟨defaultParams_legal, ?_⟩
  obtain ⟨t, h, hp⟩ := next_of_any (o := runCommand (.count 3) idleState) (P := fun t => !t.status.err) (by decide +kernel)
  exact ⟨t, h, by simpa using hp⟩

theorem witness_CounterModesAgreeBelowTop :
    idleState.status.cntOvf = false ∧
      ∃ t, exec (.count 3) { idleState with pending := some { word := 0x00000304#32, sat := true } } = .next t ∧
        t.status.cntOvf = false := by
  refine ⟨rfl, ?_⟩
  obtain ⟨t, h, hp⟩ := next_of_any
    (o := exec (.count 3) { idleState with pending := some { word := 0x00000304#32, sat := true } })
    (P := fun t => !t.status.cntOvf) (by decide +kernel)
  exact ⟨t, h, by simpa using hp⟩

/-- An idle state with "fox" in KEYBUF, which the table does not hold, in either counter mode. -/
def foxState (sat : Bool) : State :=
  { idleState with keybuf := (withKey State.reset "fox").keybuf, ctrl := { ie := false, cntSat := sat } }

/-- A first COUNT of "fox" under wraparound and under saturating. -/
theorem witness_RepeatedCountCounts (sat : Bool) :
    MachineInv (foxState sat) ∧
    ∃ t, runCommand (.count 3) (foxState sat) = .next t ∧ t.status.err = false ∧ t.resInfo.getLsbD 8 = true := by
  refine ⟨machineInv_of_status rfl rfl ⟨rfl, nofun, nofun, nofun, rfl, nofun⟩ rfl rfl rfl rfl rfl rfl, ?_⟩
  obtain ⟨t, h, hp⟩ := next_of_any (o := runCommand (.count 3) (foxState sat))
    (P := fun t => !t.status.err && t.resInfo.getLsbD 8) (by revert sat; decide +kernel)
  exact ⟨t, h, by simpa using hp⟩

theorem witness_StoredKeyIsFoundInItsBucket :
    (TableInv defaultParams theTable ∧ occupiedAt theTable 583978) ∧
    (bytesOf "the" ≠ [] ∧ (bytesOf "the").length ≤ 128 ∧ ∃ f, findOrInsertKey defaultParams theTable (bytesOf "the") = .ok f) := by
  refine ⟨⟨theTable_inv, theTable_occupied⟩, by decide, by decide, ?_⟩
  have h : (findOrInsertKey defaultParams theTable (bytesOf "the")).isOk = true := by decide +kernel
  cases hf : findOrInsertKey defaultParams theTable (bytesOf "the") with
  | ok f => exact ⟨f, rfl⟩
  | error e => rw [hf] at h; cases h

theorem witness_EveryStepKeepsMachineInv :
    MachineInv (busyState (.count 3)) ∧ ∃ t, step (busyState (.count 3)) = .next t :=
  ⟨busyState_inv _, next_of_isSome (by decide +kernel)⟩

theorem witness_OccupiedBucketsStay :
    MachineInv (busyState (.count 3)) ∧ (∃ t, step (busyState (.count 3)) = .next t) ∧
      occupiedAt (busyState (.count 3)).table 583978 :=
  ⟨busyState_inv _, next_of_isSome (by decide +kernel), theTable_occupied⟩

/-- ERRS cleared by a W1C write, and by a soft reset. -/
theorem witness_ErrsIsSticky : ∀ st ∈ [Stmt.wr (regAccess .status) 0x8, .wr (regAccess .ctrl) 0x80000000],
    ∃ t, step { atStmt st with status := { Status.reset with errs := true } } = .next t ∧ t.status.errs = false := by
  intro st hst
  have h : (nextOf (step { atStmt st with status := { Status.reset with errs := true } })).any (fun t => !t.status.errs) = true := by
    revert st
    decide +kernel
  obtain ⟨t, ht, hp⟩ := next_of_any h
  exact ⟨t, ht, by simpa using hp⟩

/-- irq rising at a completion, and at a write of IE with DONE = 1. -/
theorem witness_IrqRisesOnlyAtCompletionOrEnable :
    (irq { pendingState .nop with ctrl := { ie := true, cntSat := false } } = false ∧
      ∃ t, step { pendingState .nop with ctrl := { ie := true, cntSat := false } } = .next t ∧ irq t = true) ∧
    (irq { atStmt (.wr (regAccess .ctrl) 0x1) with status := { Status.reset with done := true } } = false ∧
      ∃ t, step { atStmt (.wr (regAccess .ctrl) 0x1) with status := { Status.reset with done := true } } = .next t ∧
        irq t = true) :=
  ⟨⟨rfl, next_of_any (P := irq) (by decide +kernel)⟩, ⟨rfl, next_of_any (P := irq) (by decide +kernel)⟩⟩

/-- A host write of RES_HASH's neighbour CMD while a command is pending: dropped. -/
theorem witness_ResultsStayUntilCompletion :
    (accept 0 (atStmt (.cmd .topk))).status.busy = true ∧
      ∃ t, hostMove (accept 0 (atStmt (.cmd .topk))) = .next t :=
  ⟨rfl, next_of_isSome (by decide +kernel)⟩

end Sys2Proof.Tests
end

section
/-! ## How a command ends, with its results -/

namespace Sys2Proof.Machine

/-- The ends of a command: an error, or the one success of its mnemonic with the results it writes (10_state.md R55).
`exec_ends` ties it to `exec`. -/
inductive Ends (s : State) : Instr → State → Prop where
  | raised (i : Instr) (e : CmdError) : Ends s i (raise e s)
  | nop : Ends s .nop (complete false s)
  | hash (n : Nat) : Ends s (.hash n) (complete false
      { s with
        resHash := keyHash s.params (keyOf s n)
        resHome := indexWord (keyHome s.params (keyOf s n)) })
  | find {n : Nat} {f : Found} (hf : findOrInsert s n = .ok f) : Ends s (.find n) (complete false
      { s with
        table := f.table
        resHash := f.hash
        resHome := indexWord f.home
        resIdx := indexWord f.bucket
        resCount := (f.table.read f.bucket).count
        resInfo := resInfoWord n (!f.claimed) f.claimed (f.attempt + 1) })
  | incr {idx : Nat} (hidx : idx < s.params.capacity) (hocc : occupiedAt s.table idx) :
      Ends s (.incr idx) (complete (countOverflows (s.table.read idx).count)
        { s with
          table := incBucket s.table idx (sampledSat s)
          resIdx := indexWord idx
          resCount := incCount (s.table.read idx).count (sampledSat s)
          resInfo := resInfoWord (s.table.read idx).length false false 0 })
  | count {n : Nat} {f : Found} (hf : findOrInsert s n = .ok f) :
      Ends s (.count n) (complete (countOverflows (f.table.read f.bucket).count)
        { s with
          table := incBucket f.table f.bucket (sampledSat s)
          resHash := f.hash
          resHome := indexWord f.home
          resIdx := indexWord f.bucket
          resCount := incCount (f.table.read f.bucket).count (sampledSat s)
          resInfo := resInfoWord n (!f.claimed) f.claimed (f.attempt + 1) })
  | topk : Ends s .topk (complete false
      { s with
        topkNum := indexWord (filledSlots (scan s.params s.table)).length
        topkIdx := publish s.params.k (filledSlots (scan s.params s.table)) topkIdxWord s.topkIdx
        topkCnt := publish s.params.k (filledSlots (scan s.params s.table)) Slot.count s.topkCnt })
  | rdbkt {idx : Nat} (hidx : idx < s.params.capacity) : Ends s (.rdbkt idx) (complete false
      { s with
        bktkey := packBytes fun j => if j < s.params.maxKeyLen then (s.table.read idx).byteAt j else 0
        resIdx := indexWord idx
        resCount := (s.table.read idx).count
        resInfo := resInfoWord (s.table.read idx).length false false 0 })

/-- Every command answers a next state, one of its ends. -/
theorem exec_ends (i : Instr) (s : State) : ∃ t, exec i s = .next t ∧ Ends s i t := by
  cases i with
  | nop => exact ⟨_, execNop_eq s, .nop⟩
  | hash n =>
    rcases execHash_cases n s with ⟨-, h⟩ | ⟨-, h⟩
    · exact ⟨_, h, .raised _ _⟩
    · exact ⟨_, h, .hash n⟩
  | find n =>
    rcases execFind_cases n s with ⟨e, -, h⟩ | ⟨f, hf, h⟩
    · exact ⟨_, h, .raised _ _⟩
    · exact ⟨_, h, .find hf⟩
  | incr idx =>
    rcases execIncr_cases idx s with ⟨-, h⟩ | ⟨hidx, hocc, h⟩
    · exact ⟨_, h, .raised _ _⟩
    · exact ⟨_, h, .incr hidx hocc⟩
  | count n =>
    rcases execCount_cases n s with ⟨e, -, h⟩ | ⟨f, hf, h⟩
    · exact ⟨_, h, .raised _ _⟩
    · exact ⟨_, h, .count hf⟩
  | topk => exact ⟨_, execTopk_eq s, .topk⟩
  | rdbkt idx =>
    rcases execRdbkt_cases idx s with ⟨-, h⟩ | ⟨hidx, h⟩
    · exact ⟨_, h, .raised _ _⟩
    · exact ⟨_, h, .rdbkt hidx⟩

theorem ends_of_exec {i : Instr} {s t : State} (h : exec i s = .next t) : Ends s i t := by
  obtain ⟨u, hu, hends⟩ := exec_ends i s
  rw [h] at hu
  cases hu
  exact hends

/-- An error sets ERR and a success leaves it. -/
theorem Status.completed_ne_failed {f : Status} (herr : f.err = false) (o : Bool) (e : CmdError) :
    f.completed o ≠ f.failed e := by
  intro heq
  have := congrArg Status.err heq
  simp [herr] at this

/-- Settles O25: a next state by `exec_ends`, its STATUS and latch by `exec_cases`; where ERR was 0, it tells the
two ends apart. -/
theorem commandEndsInOneOfTwoWays : Obligations.CommandEndsInOneOfTwoWays := by
  intro i s
  obtain ⟨t, ht, -⟩ := exec_ends i s
  refine ⟨t, ht, ?_, ?_, ?_⟩
  · rcases exec_cases ht with ⟨o, u, rfl, -⟩ | ⟨e, rfl⟩ <;> rfl
  · rcases exec_cases ht with ⟨o, u, rfl, hu⟩ | ⟨e, rfl⟩
    · obtain ⟨-, -, -, hstatus, -⟩ := hu
      exact .inl ⟨o, by rw [complete_status, hstatus]; rfl⟩
    · exact .inr ⟨e, rfl⟩
  · rintro herr ⟨⟨o, ho⟩, e, he⟩
    exact Status.completed_ne_failed herr o e (ho.symm.trans he)

/-- What the host and the environment set, no command changes. -/
theorem exec_inputs {i : Instr} {s t : State} (h : exec i s = .next t) :
    t.params = s.params ∧ t.secondHost = s.secondHost ∧ t.ctrl = s.ctrl ∧ t.cmd = s.cmd ∧ t.keybuf = s.keybuf ∧
      t.host = s.host ∧ t.sched = s.sched ∧ t.tick = s.tick ∧ t.status.ovr = s.status.ovr ∧
      t.status.init = s.status.init := by
  rcases exec_cases h with ⟨o, u, rfl, hp, h2, hc, hs, hcmd, hk, -, hh, hsch, ht, -⟩ | ⟨e, rfl⟩
  · simp [hp, h2, hc, hs, hcmd, hk, hh, hsch, ht]
  · simp

/-- Settles O49: the inputs by `exec_inputs`; a register that only some mnemonics write, by the ends of the others. -/
theorem commandFrame : Obligations.CommandFrame := by
  intro i s t h
  obtain ⟨h1, h2, h3, h4, h5, h6, h7, h8, h9, h10⟩ := exec_inputs h
  have hends := ends_of_exec h
  refine ⟨h1, h2, h3, h4, h5, h6, h7, h8, h9, h10, fun hi => ?_, fun hi => ?_, fun hi => ?_, fun hi => ?_, fun hi => ?_⟩
  · cases hends with
    | rdbkt => exact absurd rfl (hi _)
    | _ => rfl
  · cases hends with
    | topk => exact absurd rfl hi
    | _ => exact ⟨rfl, rfl, rfl⟩
  · cases hends with
    | hash n => exact absurd rfl (hi n).1
    | find => exact absurd rfl (hi _).2.1
    | count => exact absurd rfl (hi _).2.2
    | _ => exact ⟨rfl, rfl⟩
  · cases hends with
    | find => exact absurd rfl (hi _).1
    | count => exact absurd rfl (hi _).2.1
    | incr => exact absurd rfl (hi _).2.2.1
    | rdbkt => exact absurd rfl (hi _).2.2.2
    | _ => exact ⟨rfl, rfl, rfl⟩
  · cases hends with
    | count => exact absurd rfl (hi _).1
    | incr => exact absurd rfl (hi _).2
    | _ => simp

/-- findOrInsert writes no bucket but the one it returns (41_table_lookup.md R132). -/
theorem findOrInsert_read_other {s : State} {n : Nat} {f : Found} (hf : findOrInsert s n = .ok f) {b : Nat}
    (hb : b ≠ f.bucket) : f.table.read b = s.table.read b := by
  obtain ⟨-, -, hfk⟩ := findOrInsert_ok hf
  rcases findOrInsertKey_cases s.params s.table (keyOf s n) with ⟨-, h⟩ | ⟨i, -, -, h⟩ | ⟨i, -, -, -, h⟩ <;>
    rw [h] at hfk <;> cases hfk
  · exact Memory.read_write_other _ _ hb
  · rfl

/-- With findOrInsert's answer known, FIND's and COUNT's part of the table frame is about its one bucket. -/
theorem tableFrame_of_found {s : State} {n : Nat} {f : Found} {m : Memory} (hf : findOrInsert s n = .ok f)
    (h : ∀ b, b ≠ f.bucket → m.read b = s.table.read b) :
    (∀ g, findOrInsert s n = .ok g → ∀ b, b ≠ g.bucket → m.read b = s.table.read b) ∧
      (∀ e, findOrInsert s n = .error e → ∀ b, m.read b = s.table.read b) := by
  rw [hf]
  constructor
  · rintro _ ⟨⟩
    exact h
  · nofun

/-- Settles O50, by the ends of a command: only INCR, FIND and COUNT write the table, each one bucket of it. -/
theorem tableFrame : Obligations.TableFrame := by
  intro i s t h
  cases ends_of_exec h with
  | raised => exact ⟨fun _ _ => rfl, fun _ _ _ _ => rfl, fun _ _ => ⟨fun _ _ _ _ => rfl, fun _ _ _ => rfl⟩⟩
  | nop => exact ⟨fun _ _ => rfl, nofun, nofun⟩
  | hash => exact ⟨fun _ _ => rfl, nofun, nofun⟩
  | topk => exact ⟨fun _ _ => rfl, nofun, nofun⟩
  | rdbkt => exact ⟨fun _ _ => rfl, nofun, nofun⟩
  | incr =>
    refine ⟨by simp, ?_, nofun⟩
    rintro _ ⟨⟩ b hb
    exact read_incBucket_other _ _ _ hb
  | find hf =>
    refine ⟨by simp, nofun, ?_⟩
    rintro _ (⟨⟨⟩⟩ | ⟨⟨⟩⟩)
    exact tableFrame_of_found hf fun b hb => findOrInsert_read_other hf hb
  | count hf =>
    refine ⟨by simp, nofun, ?_⟩
    rintro _ (⟨⟨⟩⟩ | ⟨⟨⟩⟩)
    exact tableFrame_of_found hf fun b hb => (read_incBucket_other _ _ _ hb).trans (findOrInsert_read_other hf hb)

end Sys2Proof.Machine
end

section
/-! ## The result slots of a scan (43_topk.md R156, R161) -/

namespace Sys2Proof.Machine

/-- The order of neighbouring result slots: counts do not increase, and EMPTY slots come last (43_topk.md R161). -/
def slotBefore : Option Slot → Option Slot → Prop
  | _, none => True
  | some e, some f => f.count ≤ e.count
  | none, some _ => False

theorem slotBefore_trans {b e : Slot} {y : Option Slot} (hbe : e.count ≤ b.count) (hy : slotBefore (some e) y) :
    slotBefore (some b) y := by
  cases y with
  | none => trivial
  | some f => exact BitVec.le_trans hy hbe

/-- An insertion brings in the new slot alone. -/
theorem mem_insertSlot {b : Slot} {l : List (Option Slot)} {x : Option Slot} (h : x ∈ insertSlot b l) :
    x = some b ∨ x ∈ l := by
  induction l with
  | nil => cases h
  | cons e l ih =>
    have hfront : x ∈ some b :: (e :: l).dropLast → x = some b ∨ x ∈ e :: l := fun h =>
      (List.mem_cons.1 h).imp_right (List.dropLast_subset _ ·)
    cases e with
    | none => exact hfront h
    | some e =>
      simp only [insertSlot] at h
      split at h
      · exact hfront h
      · rcases List.mem_cons.1 h with h | h
        · exact .inr (by simp [h])
        · exact (ih h).imp_right (List.mem_cons_of_mem _)

/-- An insertion keeps the slots in order: the new slot goes before the first that is EMPTY or smaller. -/
theorem pairwise_insertSlot (b : Slot) {l : List (Option Slot)} (h : l.Pairwise slotBefore) :
    (insertSlot b l).Pairwise slotBefore := by
  induction l with
  | nil => exact .nil
  | cons e l ih =>
    have hfront : (∀ y ∈ e :: l, slotBefore (some b) y) → (some b :: (e :: l).dropLast).Pairwise slotBefore := fun hb =>
      List.pairwise_cons.2 ⟨fun y hy => hb y (List.dropLast_subset _ hy), h.sublist (List.dropLast_sublist _)⟩
    obtain ⟨he, hl⟩ := List.pairwise_cons.1 h
    cases e with
    | none =>
      refine hfront fun y hy => ?_
      rcases List.mem_cons.1 hy with rfl | hy
      · trivial
      · cases y with
        | none => trivial
        | some f => exact (he _ hy).elim
    | some e =>
      simp only [insertSlot]
      split
      · rename_i hlt
        refine hfront fun y hy => ?_
        rcases List.mem_cons.1 hy with rfl | hy
        · exact BitVec.le_of_lt hlt
        · exact slotBefore_trans (BitVec.le_of_lt hlt) (he y hy)
      · rename_i hge
        refine List.pairwise_cons.2 ⟨fun y hy => ?_, ih hl⟩
        rcases mem_insertSlot hy with rfl | hy
        · exact BitVec.not_lt.1 hge
        · exact he y hy

theorem scanStep_pairwise (m : Memory) (b : Nat) {l : List (Option Slot)} (h : l.Pairwise slotBefore) :
    (scanStep m l b).Pairwise slotBefore := by
  simp only [scanStep]
  split
  · exact h
  · exact pairwise_insertSlot _ h

/-- A step of the scan brings in the visited bucket alone. -/
theorem mem_scanStep {m : Memory} {l : List (Option Slot)} {b : Nat} {e : Slot} (h : some e ∈ scanStep m l b) :
    e.bucket = b ∨ some e ∈ l := by
  simp only [scanStep] at h
  split at h
  · exact .inr h
  · rcases mem_insertSlot h with h | h
    · left
      cases h
      rfl
    · exact .inr h

theorem scan_pairwise (p : Params) (m : Memory) : (scan p m).Pairwise slotBefore :=
  List.foldlRecOn _ _ (List.pairwise_replicate.2 (.inr trivial)) fun _ h b _ => scanStep_pairwise m b h

/-- A slot of the scan holds an index of the table. -/
theorem bucket_lt_of_mem_scan {p : Params} {m : Memory} {e : Slot} (h : some e ∈ scan p m) : e.bucket < p.capacity := by
  have hall : ∀ e, some e ∈ scan p m → e.bucket < p.capacity := by
    refine List.foldlRecOn (motive := fun l : List (Option Slot) => ∀ e, some e ∈ l → e.bucket < p.capacity)
      _ _ (fun e he => ?_) fun l hl b hb e he => ?_
    · simp at he
    · rcases mem_scanStep he with rfl | he
      · simpa using (List.mem_filter.1 hb).2
      · exact hl e he
  exact hall e h

theorem bucket_lt_of_mem_filledSlots {p : Params} {m : Memory} {e : Slot} (h : e ∈ filledSlots (scan p m)) :
    e.bucket < p.capacity :=
  bucket_lt_of_mem_scan (by simpa [filledSlots] using h)

/-- The counts of the filled slots do not increase (43_topk.md R161). -/
theorem filledSlots_scan_sorted (p : Params) (m : Memory) :
    (filledSlots (scan p m)).Pairwise fun e f => f.count ≤ e.count := by
  refine List.pairwise_filterMap.2 ((scan_pairwise p m).imp ?_)
  rintro x y hxy e rfl f rfl
  exact hxy

end Sys2Proof.Machine
end

section
/-! ## The shape of the result registers, part by part (10_state.md R40 to R43, R48) -/

namespace Sys2Proof.Machine

/-- The shape of RES_INFO (10_state.md R43). -/
structure InfoShape (p : Params) (info : Word) : Prop where
  reserved : info &&& 0xFF00FC80 = 0
  probes : (info.extractLsb' 0 7).toNat ≤ p.probeLimit
  len : (info.extractLsb' 16 8).toNat ≤ p.maxKeyLen

/-- The shape of the top-K file (10_state.md R48, 43_topk.md R161). -/
structure TopkShape (p : Params) (num : Word) (idx cnt : Vector Word 16) : Prop where
  filled : num.toNat ≤ p.k
  valid : ∀ j, j < num.toNat →
    (wordAt idx j).extractLsb' 24 8 = 0x80 ∧ ((wordAt idx j).extractLsb' 0 24).toNat < p.capacity
  invalid : ∀ j, num.toNat ≤ j → wordAt idx j = 0 ∧ wordAt cnt j = 0
  sorted : ∀ j, j + 1 < num.toNat → wordAt cnt (j + 1) ≤ wordAt cnt j

/-- The invariant of the results is one of RES_HOME, of RES_IDX, of RES_INFO and of the top-K file, each on its own. -/
theorem resultsInv_iff (s : State) :
    ResultsInv s ↔ s.resHome.toNat < s.params.capacity ∧ s.resIdx.toNat < s.params.capacity ∧
      InfoShape s.params s.resInfo ∧ TopkShape s.params s.topkNum s.topkIdx s.topkCnt := by
  constructor
  · intro h
    exact ⟨h.home, h.idx, ⟨h.infoReserved, h.infoProbes, h.infoLen⟩,
      ⟨h.topkNum, h.topkValid, h.topkInvalid, h.topkSorted⟩⟩
  · rintro ⟨home, idx, info, topk⟩
    exact ⟨home, idx, info.reserved, info.probes, info.len, topk.filled, topk.valid, topk.invalid, topk.sorted⟩

theorem infoShape_zero (p : Params) : InfoShape p 0 := ⟨by simp, by simp, by simp⟩

theorem infoShape_resInfoWord {p : Params} {len probes : Nat} (matched claimed : Bool) (hlen : len ≤ p.maxKeyLen)
    (hprobes : probes ≤ p.probeLimit) : InfoShape p (resInfoWord len matched claimed probes) := by
  refine ⟨resInfoWord_reserved _ _ _ _, ?_, ?_⟩
  · rw [resInfoWord_probes, BitVec.toNat_ofNat]
    exact (Nat.mod_le _ _).trans hprobes
  · rw [resInfoWord_len, BitVec.toNat_ofNat]
    exact (Nat.mod_le _ _).trans hlen

theorem topkShape_zero (p : Params) : TopkShape p 0 (Vector.replicate 16 0) (Vector.replicate 16 0) :=
  ⟨by simp, by simp, by simp, by simp⟩

/-- A published slot below the number of filled ones. -/
theorem wordAt_publish_filled (k : Nat) (r : List Slot) (f : Slot → Word) (old : Vector Word 16) {j : Nat}
    (hj : j < r.length) (hr : r.length ≤ 16) : wordAt (publish k r f old) j = f r[j] := by
  rw [wordAt_publish _ _ _ _ (hj.trans_le hr), List.getElem?_eq_getElem hj]

/-- A published slot from the number of filled ones on, where the registers from K on are 0. -/
theorem wordAt_publish_unfilled (k : Nat) (r : List Slot) (f : Slot → Word) {old : Vector Word 16} {j : Nat}
    (hj : r.length ≤ j) (hold : k ≤ j → wordAt old j = 0) : wordAt (publish k r f old) j = 0 := by
  by_cases h16 : j < 16
  · rw [wordAt_publish _ _ _ _ h16, List.getElem?_eq_none hj]
    by_cases hk : j < k
    · simp [hk]
    · simpa [hk] using hold (not_lt.1 hk)
  · exact wordAt_of_ge _ (not_lt.1 h16)

/-- What TOPK publishes has the shape of 10_state.md R48, if the registers from K on were 0. -/
theorem topkShape_publish {p : Params} (hp : paramsLegal p = true) (m : Memory) {num : Word} {idx cnt : Vector Word 16}
    (h : TopkShape p num idx cnt) :
    TopkShape p (indexWord (filledSlots (scan p m)).length) (publish p.k (filledSlots (scan p m)) topkIdxWord idx)
      (publish p.k (filledSlots (scan p m)) Slot.count cnt) := by
  have hbd := paramsLegal_bounds hp
  have hlen := filledSlots_scan_length_le p m
  have hmem : ∀ e ∈ filledSlots (scan p m), e.bucket < p.capacity := fun _ => bucket_lt_of_mem_filledSlots
  have hsorted := filledSlots_scan_sorted p m
  generalize filledSlots (scan p m) = r at *
  have hr : r.length ≤ 16 := by omega
  have hnum : (indexWord r.length).toNat = r.length := by
    simp only [indexWord, BitVec.toNat_ofNat]
    omega
  constructor <;> rw [hnum]
  · exact hlen
  · intro j hj
    rw [wordAt_publish_filled _ _ _ _ hj hr]
    obtain ⟨hvalid, hindex⟩ := topkIdxWord_fields (BitVec.ofNat 24 r[j].bucket)
    refine ⟨hvalid, ?_⟩
    rw [topkIdxWord, hindex, BitVec.toNat_ofNat]
    exact (Nat.mod_le _ _).trans_lt (hmem _ (List.getElem_mem hj))
  · intro j hj
    exact ⟨wordAt_publish_unfilled _ _ _ hj fun hk => (h.invalid j (h.filled.trans hk)).1,
      wordAt_publish_unfilled _ _ _ hj fun hk => (h.invalid j (h.filled.trans hk)).2⟩
  · intro j hj
    rw [wordAt_publish_filled _ _ _ _ hj hr, wordAt_publish_filled _ _ _ _ (Nat.lt_of_succ_lt hj) hr]
    exact List.pairwise_iff_getElem.1 hsorted j (j + 1) _ hj (Nat.lt_succ_self j)

end Sys2Proof.Machine
end

section
/-! ## STATUS and the latch through each update of the state (10_state.md R30 to R37, R53) -/

namespace Sys2Proof.Machine

/-- An idle CORE accepts a command; it is not in a sweep then. -/
theorem StatusInv.init_of_idle {s : State} (h : StatusInv s) (hb : s.status.busy = false) : s.status.init = false := by
  have hbusy := h.busyIff
  rw [hb] at hbusy
  exact (Bool.or_eq_false_iff.1 hbusy.symm).2

theorem StatusInv.busy_of_init {s : State} (h : StatusInv s) (hi : s.status.init = true) : s.status.busy = true := by
  simp [h.busyIff, hi]

theorem statusInv_accept {s : State} (h : StatusInv s) (hb : s.status.busy = false) (w : Word) :
    StatusInv (accept w s) where
  busyIff := rfl
  sweepEmptiesLatch hi := by simp [h.init_of_idle hb] at hi
  doneNotBusy _ := rfl
  errNotBusy _ := rfl
  errCode := by simp
  latchInCmd := by rintro _ ⟨⟩; rfl

theorem statusInv_dropWrite {s : State} (h : StatusInv s) : StatusInv (dropWrite s) :=
  ⟨h.busyIff, h.sweepEmptiesLatch, h.doneNotBusy, h.errNotBusy, h.errCode, h.latchInCmd⟩

theorem statusInv_writeStatus {s : State} (h : StatusInv s) (v : Word) : StatusInv (writeStatus v s) where
  busyIff := h.busyIff
  sweepEmptiesLatch := h.sweepEmptiesLatch
  doneNotBusy hb := by simp [h.doneNotBusy hb]
  errNotBusy := h.errNotBusy
  errCode := h.errCode
  latchInCmd := h.latchInCmd

theorem statusInv_enterReset (s : State) : StatusInv (enterReset s) :=
  ⟨rfl, fun _ => rfl, fun _ => rfl, fun _ => rfl, by simp, nofun⟩

theorem statusInv_endSweep {s : State} (h : StatusInv s) (hi : s.status.init = true) : StatusInv (endSweep s) where
  busyIff := by simp [h.sweepEmptiesLatch hi]
  sweepEmptiesLatch := nofun
  doneNotBusy := nofun
  errNotBusy := nofun
  errCode := h.errCode
  latchInCmd := h.latchInCmd

theorem statusInv_raise {s : State} (hi : s.status.init = false) (e : CmdError) : StatusInv (raise e s) where
  busyIff := by simp [hi]
  sweepEmptiesLatch _ := rfl
  doneNotBusy := nofun
  errNotBusy := nofun
  errCode := by simp
  latchInCmd := nofun

theorem statusInv_complete {s : State} (h : StatusInv s) (hi : s.status.init = false) (o : Bool) {u : State}
    (hu : u.status = s.status) : StatusInv (complete o u) where
  busyIff := by simp [hu, hi]
  sweepEmptiesLatch _ := rfl
  doneNotBusy := nofun
  errNotBusy := nofun
  errCode := by simpa [hu] using h.errCode
  latchInCmd := nofun

end Sys2Proof.Machine
end

section
/-! ## The invariant of the machine through a step -/

namespace Sys2Proof.Machine

/-- The invariant does not speak of the host, the schedule, CTRL, the two buffers, RES_HASH and RES_COUNT. -/
theorem MachineInv.of_unwatched {s t : State} (h : MachineInv s)
    (ht : t =
      { s with
        secondHost := t.secondHost, ctrl := t.ctrl, resHash := t.resHash, resCount := t.resCount
        keybuf := t.keybuf, bktkey := t.bktkey
        host := t.host, sched := t.sched, tick := t.tick, waited := t.waited }) : MachineInv t := by
  obtain ⟨legal, table, status, results⟩ := h
  rw [ht]
  exact ⟨legal, table,
    ⟨status.busyIff, status.sweepEmptiesLatch, status.doneNotBusy, status.errNotBusy, status.errCode,
      status.latchInCmd⟩,
    (resultsInv_iff _).2 ((resultsInv_iff s).1 results)⟩

/-- An update of STATUS, the latch and CMD keeps the invariant if the three agree after it. -/
theorem MachineInv.withStatus {s : State} (h : MachineInv s) {f : Status} {q : Option Pending} {w : Word}
    (hs : StatusInv { s with status := f, pending := q, cmd := w }) :
    MachineInv { s with status := f, pending := q, cmd := w } :=
  ⟨h.legal, h.table, hs, (resultsInv_iff _).2 ((resultsInv_iff s).1 h.results)⟩

/-- A success keeps the invariant if its table and its results meet it. -/
theorem MachineInv.of_complete {s u : State} (h : MachineInv s) (hi : s.status.init = false) (o : Bool)
    (hstatus : u.status = s.status) (hparams : u.params = s.params) (htable : TableInv s.params u.table)
    (hresults : ResultsInv u) : MachineInv (complete o u) where
  legal := by simpa [hparams] using h.legal
  table := by simpa [hparams] using htable
  status := statusInv_complete h.status hi o hstatus
  results := (resultsInv_iff _).2 ((resultsInv_iff u).1 hresults)

/-- Registers at their reset values have their stated shape (10_state.md R57). -/
theorem resultsInv_zero {s : State} (hp : paramsLegal s.params = true) (hhome : s.resHome = 0) (hidx : s.resIdx = 0)
    (hinfo : s.resInfo = 0) (hnum : s.topkNum = 0) (htopkIdx : s.topkIdx = Vector.replicate 16 0)
    (htopkCnt : s.topkCnt = Vector.replicate 16 0) : ResultsInv s := by
  have hcap : (0 : Word).toNat < s.params.capacity := (paramsLegal_bounds hp).1
  rw [resultsInv_iff, hhome, hidx, hinfo, hnum, htopkIdx, htopkCnt]
  exact ⟨hcap, hcap, infoShape_zero _, topkShape_zero _⟩

/-- Settles O55: an empty table, every result register 0, STATUS idle. -/
theorem resetMeetsMachineInv : Obligations.ResetMeetsMachineInv := by
  have hlegal : paramsLegal State.reset.params = true := by decide
  exact ⟨hlegal, TableInv.empty _, ⟨rfl, nofun, nofun, nofun, rfl, nofun⟩,
    resultsInv_zero hlegal rfl rfl rfl rfl rfl rfl⟩

theorem machineInv_enterReset {s : State} (h : MachineInv s) : MachineInv (enterReset s) :=
  ⟨h.legal, h.table, statusInv_enterReset s, resultsInv_zero h.legal rfl rfl rfl rfl rfl rfl⟩

theorem machineInv_endSweep {s : State} (h : MachineInv s) (hi : s.status.init = true) : MachineInv (endSweep s) :=
  ⟨h.legal, TableInv.empty _, statusInv_endSweep h.status hi, (resultsInv_iff _).2 ((resultsInv_iff s).1 h.results)⟩

theorem machineInv_hostWrite {s : State} (h : MachineInv s) (off : Nat) (v : Word) : MachineInv (hostWrite off v s) := by
  rcases hostWrite_cases off v s with
    hw | ⟨-, -, hw⟩ | ⟨-, -, hw⟩ | ⟨-, hw⟩ | ⟨-, hw⟩ | ⟨hidle, hw⟩ | ⟨w, -, hw⟩ <;> rw [hw]
  · exact h
  · exact machineInv_enterReset h
  · exact h.of_unwatched rfl
  · exact h.withStatus (statusInv_writeStatus h.status v)
  · exact h.withStatus (statusInv_dropWrite h.status)
  · exact h.withStatus (statusInv_accept h.status hidle v)
  · exact h.of_unwatched rfl

theorem machineInv_hostMove {s t : State} (h : MachineInv s) (hm : hostMove s = .next t) : MachineInv t := by
  rcases hostMove_cases hm with rfl | ⟨a, v, -, -, -, -, rfl⟩ | ⟨a, x, -, rfl⟩ | ⟨i, -, -, rfl⟩ | ⟨l, rfl⟩
  · exact h
  · exact (machineInv_hostWrite h _ _).of_unwatched rfl
  · exact h.of_unwatched rfl
  · exact (machineInv_hostWrite h _ _).of_unwatched rfl
  · exact h.of_unwatched rfl

/-- What FIND and COUNT need of findOrInsert: its table and its bucket, and the registers written from its answer. -/
theorem findOrInsert_inv {s : State} (h : MachineInv s) {n : Nat} {f : Found} (hf : findOrInsert s n = .ok f) :
    TableInv s.params f.table ∧ occupiedAt f.table f.bucket ∧ (indexWord f.home).toNat < s.params.capacity ∧
      (indexWord f.bucket).toNat < s.params.capacity ∧
      InfoShape s.params (resInfoWord n (!f.claimed) f.claimed (f.attempt + 1)) := by
  obtain ⟨hn, h0, hfk⟩ := findOrInsert_ok hf
  obtain ⟨hbucket, hhome, hattempt⟩ := findOrInsertKey_bucket_lt (paramsLegal_bounds h.legal).1 hfk
  have hkey := keyOf_ne_nil s h0
  refine ⟨h.table.findOrInsert h.legal hkey (by simpa using hn) hfk, findOrInsertKey_occupied hkey hfk, ?_, ?_,
    infoShape_resInfoWord _ _ hn hattempt⟩
  · rwa [indexWord_toNat h.legal hhome]
  · rwa [indexWord_toNat h.legal hbucket]

theorem machineInv_exec {i : Instr} {s t : State} (h : MachineInv s) (hi : s.status.init = false)
    (hx : exec i s = .next t) : MachineInv t := by
  obtain ⟨hhome, hidx, hinfo, htopk⟩ := (resultsInv_iff s).1 h.results
  have hlen (b : Nat) : InfoShape s.params (resInfoWord (s.table.read b).length false false 0) :=
    infoShape_resInfoWord _ _ (h.table.lengthBound b) (Nat.zero_le _)
  cases ends_of_exec hx with
  | raised _ e => exact h.withStatus (statusInv_raise hi e)
  | nop => exact h.of_complete hi _ rfl rfl h.table h.results
  | hash n =>
    refine h.of_complete hi _ rfl rfl h.table ((resultsInv_iff _).2 ⟨?_, hidx, hinfo, htopk⟩)
    have hlt := keyHome_lt s.params (keyOf s n) (paramsLegal_bounds h.legal).1
    exact (indexWord_toNat h.legal hlt).trans_lt hlt
  | find hf =>
    obtain ⟨htable, -, hhome', hidx', hinfo'⟩ := findOrInsert_inv h hf
    exact h.of_complete hi _ rfl rfl htable ((resultsInv_iff _).2 ⟨hhome', hidx', hinfo', htopk⟩)
  | incr hlt hocc =>
    exact h.of_complete hi _ rfl rfl (h.table.incBucket hocc _)
      ((resultsInv_iff _).2 ⟨hhome, (indexWord_toNat h.legal hlt).trans_lt hlt, hlen _, htopk⟩)
  | count hf =>
    obtain ⟨htable, hocc, hhome', hidx', hinfo'⟩ := findOrInsert_inv h hf
    exact h.of_complete hi _ rfl rfl (htable.incBucket hocc _)
      ((resultsInv_iff _).2 ⟨hhome', hidx', hinfo', htopk⟩)
  | topk =>
    exact h.of_complete hi _ rfl rfl h.table
      ((resultsInv_iff _).2 ⟨hhome, hidx, hinfo, topkShape_publish h.legal _ htopk⟩)
  | rdbkt hlt =>
    exact h.of_complete hi _ rfl rfl h.table
      ((resultsInv_iff _).2 ⟨hhome, (indexWord_toNat h.legal hlt).trans_lt hlt, hlen _, htopk⟩)

theorem machineInv_coreMove {s t : State} (h : MachineInv s) (hm : coreMove s = .next t) : MachineInv t := by
  rcases coreMove_cases hm with ⟨hi, rfl⟩ | ⟨-, -, rfl⟩ | ⟨p, i, hi, -, -, hx⟩ | ⟨p, why, hi, -, -, rfl⟩
  · exact machineInv_endSweep h hi
  · exact h
  · exact machineInv_exec h hi hx
  · exact h.withStatus (statusInv_raise hi _)

/-- Settles O56: the choice of the move touches nothing the invariant speaks of, and each of the three moves keeps it. -/
theorem everyStepKeepsMachineInv : Obligations.EveryStepKeepsMachineInv := by
  intro s t h hstep
  obtain ⟨-, s', hs', hmove⟩ := step_cases hstep
  have h' : MachineInv s' := h.of_unwatched (hs' ▸ rfl)
  rcases hmove with hm | hm | ⟨-, rfl⟩
  · exact machineInv_hostMove h' hm
  · exact machineInv_coreMove h' hm
  · exact machineInv_enterReset h'

end Sys2Proof.Machine
end

section
/-! ## Occupied buckets and ERRS through a step (10_state.md R34, R45) -/

namespace Sys2Proof.Machine

/-- Every occupied bucket of `m` is occupied in `m'` with the same key. -/
def KeepsKeys (m m' : Memory) : Prop :=
  ∀ b, occupiedAt m b → (m'.read b).length = (m.read b).length ∧ keyAt m' b = keyAt m b

theorem KeepsKeys.refl (m : Memory) : KeepsKeys m m := fun _ _ => ⟨rfl, rfl⟩

/-- An increment changes a bucket's count alone (42_counter.md R140). -/
theorem KeepsKeys.incBucket {m m' : Memory} (h : KeepsKeys m m') {b : Nat} (hb : occupiedAt m' b) (sat : Bool) :
    KeepsKeys m (incBucket m' b sat) := by
  intro c hc
  obtain ⟨hlen, hkey⟩ := h c hc
  by_cases hcb : c = b
  · subst hcb
    have hread := read_incBucket_self m' c sat hb
    exact ⟨by rw [hread, hlen], (keyAt_congr (by rw [hread]) fun j => by rw [hread]; rfl).trans hkey⟩
  · rw [keyAt, read_incBucket_other m' b sat hcb]
    exact ⟨hlen, hkey⟩

/-- findOrInsert writes a bucket only where it was empty (41_table_lookup.md R123). -/
theorem keepsKeys_findOrInsert {s : State} {n : Nat} {f : Found} (hf : findOrInsert s n = .ok f) :
    KeepsKeys s.table f.table := by
  obtain ⟨-, -, hfk⟩ := findOrInsert_ok hf
  rcases findOrInsertKey_cases s.params s.table (keyOf s n) with ⟨-, h⟩ | ⟨i, -, hempty, h⟩ | ⟨i, -, -, -, h⟩ <;>
    rw [h] at hfk <;> cases hfk
  · intro b hb
    have hne : b ≠ probe s.params (keyHome s.params (keyOf s n)) i := by
      rintro rfl
      exact hb hempty
    rw [keyAt, Memory.read_write_other _ _ hne]
    exact ⟨rfl, rfl⟩
  · exact .refl _

theorem keepsKeys_exec {i : Instr} {s t : State} (h : MachineInv s) (hx : exec i s = .next t) :
    KeepsKeys s.table t.table := by
  cases ends_of_exec hx with
  | find hf => exact keepsKeys_findOrInsert hf
  | incr _ hocc => exact (KeepsKeys.refl _).incBucket hocc _
  | count hf =>
    obtain ⟨-, hocc, -⟩ := findOrInsert_inv h hf
    exact (keepsKeys_findOrInsert hf).incBucket hocc _
  | _ => exact .refl _

/-- The host cannot address the table (20_memory.md R60, R66). -/
theorem hostWrite_table (off : Nat) (v : Word) (s : State) : (hostWrite off v s).table = s.table := by
  rcases hostWrite_cases off v s with h | ⟨-, -, h⟩ | ⟨-, -, h⟩ | ⟨-, h⟩ | ⟨-, h⟩ | ⟨-, h⟩ | ⟨w, -, h⟩ <;> rw [h] <;> rfl

theorem hostMove_table {s t : State} (hm : hostMove s = .next t) : t.table = s.table := by
  rcases hostMove_cases hm with rfl | ⟨a, v, -, -, -, -, rfl⟩ | ⟨a, x, -, rfl⟩ | ⟨i, -, -, rfl⟩ | ⟨l, rfl⟩
  · rfl
  · exact hostWrite_table _ _ s
  · rfl
  · exact hostWrite_table _ _ s
  · rfl

/-- A step keeps the keys of the table, or it is the end of the reset sweep. -/
theorem step_keepsKeys {s t : State} (h : MachineInv s) (hstep : step s = .next t) :
    KeepsKeys s.table t.table ∨ (s.status.init = true ∧ t.status.init = false) := by
  obtain ⟨-, s', hs', hmove⟩ := step_cases hstep
  have h' : MachineInv s' := h.of_unwatched (hs' ▸ rfl)
  have htable : s'.table = s.table := by rw [hs']
  have hinit : s'.status.init = s.status.init := by rw [hs']
  rw [← htable, ← hinit]
  rcases hmove with hm | hm | ⟨-, rfl⟩
  · left
    rw [hostMove_table hm]
    exact .refl _
  · rcases coreMove_cases hm with ⟨hi, rfl⟩ | ⟨-, -, rfl⟩ | ⟨p, i, -, -, -, hx⟩ | ⟨p, why, -, -, -, rfl⟩
    · exact .inr ⟨hi, rfl⟩
    · exact .inl (.refl _)
    · exact .inl (keepsKeys_exec h' hx)
    · exact .inl (.refl _)
  · exact .inl (.refl _)

/-- Settles O57, by `step_keepsKeys`. -/
theorem occupiedBucketsStay : Obligations.OccupiedBucketsStay := by
  intro s t b h hstep hb
  refine (step_keepsKeys h hstep).imp_left fun hkeep => ?_
  obtain ⟨hlen, hkey⟩ := hkeep b hb
  exact ⟨by rwa [occupiedAt, hlen], hkey, hlen⟩

/-- A host write clears ERRS only by W1C or by a soft reset. -/
theorem hostWrite_clears_errs {off : Nat} {v : Word} {s : State} (hs : s.status.errs = true)
    (ht : (hostWrite off v s).status.errs = false) :
    (off = 0x008 ∧ v.getLsbD 3 = true) ∨ (off = 0x004 ∧ v.getLsbD 31 = true) := by
  rcases hostWrite_cases off v s with
    h | ⟨hoff, hv, -⟩ | ⟨-, -, h⟩ | ⟨hoff, h⟩ | ⟨-, h⟩ | ⟨-, h⟩ | ⟨w, -, h⟩
  case inr.inl => exact .inr ⟨hoff, hv⟩
  case inr.inr.inr.inl => exact .inl ⟨hoff, by simpa [h, hs] using ht⟩
  all_goals simp [h, hs] at ht

/-- No move of the sequencer clears ERRS. -/
theorem coreMove_keeps_errs {s t : State} (hs : s.status.errs = true) (hm : coreMove s = .next t) :
    t.status.errs = true := by
  rcases coreMove_cases hm with ⟨-, rfl⟩ | ⟨-, -, rfl⟩ | ⟨p, i, -, -, -, hx⟩ | ⟨p, why, -, -, -, rfl⟩
  · exact hs
  · exact hs
  · rcases exec_cases hx with ⟨o, u, rfl, hu⟩ | ⟨e, rfl⟩
    · obtain ⟨-, -, -, hstatus, -⟩ := hu
      simpa [hstatus] using hs
    · rfl
  · rfl

/-- Settles O58: of the three moves only a host write and the reset input clear ERRS, and a CMD statement writes at
another offset. -/
theorem errsIsSticky : Obligations.ErrsIsSticky := by
  intro s t hstep hs ht
  obtain ⟨-, s', hs', hmove⟩ := step_cases hstep
  have hs1 : s'.status.errs = true := by rw [hs']; exact hs
  have hstmt : hostStmt s' = hostStmt s := by rw [hs']; rfl
  rcases hmove with hm | hm | ⟨rfl, rfl⟩
  · right
    rw [← hstmt]
    rcases hostMove_cases hm with rfl | ⟨a, v, hst, -, -, -, rfl⟩ | ⟨a, x, -, rfl⟩ | ⟨i, -, -, rfl⟩ | ⟨l, rfl⟩
    · simp [hs1] at ht
    · exact ⟨a, v, hst, hostWrite_clears_errs hs1 ht⟩
    · simp [hs1] at ht
    · have hoff := hostWrite_clears_errs hs1 ht
      omega
    · simp [hs1] at ht
  · simp [coreMove_keeps_errs hs1 hm] at ht
  · exact .inl rfl

end Sys2Proof.Machine
end

section
/-! ## The latch and the register window (10_state.md R23 to R57) -/

namespace Sys2Proof.Machine

theorem coreMove_of_pending {s : State} {p : Pending} (hi : s.status.init = false) (hp : s.pending = some p) :
    coreMove s = performWord p.word s := by
  simp [coreMove, hi, hp]

theorem performWord_of_legal {w : Word} {i : Instr} (hd : decode w = .legal i) (s : State) :
    performWord w s = exec i s := by
  simp [performWord, hd]

/-- Settles O6: the step is the sequencer's move, and the choice of it leaves STATUS and the latch. -/
theorem stepPerformsPendingCommand : Obligations.StepPerformsPendingCommand := by
  intro s s' w sat i hcontract hmoves hi hp hd
  have hs' := coreMovesAt_eq hmoves
  have hi' : s'.status.init = false := by rw [hs']; exact hi
  have hp' : s'.pending = some { word := w, sat := sat } := by rw [hs']; exact hp
  rw [step_of_coreMovesAt hcontract hmoves (.inr (by simp [hp])), coreMove_of_pending hi' hp', performWord_of_legal hd]

theorem hostRead_cmd (s : State) : hostRead 0x00C s = s.cmd := rfl

theorem hostWrite_cmd_of_busy {s : State} (hb : s.status.busy = true) (w : Word) :
    hostWrite 0x00C w s = dropWrite s := by
  rw [hostWrite_cmd, writeCmd, if_pos hb]

theorem hostWrite_cmd_of_idle {s : State} (hb : s.status.busy = false) (w : Word) :
    hostWrite 0x00C w s = accept w s := by
  rw [hostWrite_cmd, writeCmd, if_neg (Bool.eq_false_iff.1 hb)]

/-- Settles O11: the write is `dropWrite` or `accept`, and what was accepted is what the sequencer performs. -/
theorem cmdWriteAcceptsOrDrops : Obligations.CmdWriteAcceptsOrDrops := by
  intro s w
  refine ⟨rfl, fun hb => ?_, fun hb => ?_⟩
  · rw [hostWrite_cmd_of_busy hb]
    exact ⟨rfl, rfl⟩
  · rw [hostWrite_cmd_of_idle hb]
    exact ⟨rfl, rfl, fun hi => coreMove_of_pending (s := accept w s) hi rfl⟩

/-- STATUS.ERR_CODE and the reserved half of STATUS (10_state.md R29). -/
theorem Status.word_fields (f : Status) : f.word.extractLsb' 8 8 = f.errCode ∧ f.word.extractLsb' 16 16 = 0 := by
  constructor <;> apply BitVec.eq_of_getLsbD_eq <;> intro i hi <;>
    simp only [BitVec.getLsbD_extractLsb', hi, decide_true, Bool.true_and, Status.getLsbD_word]
  · repeat rw [if_neg (by omega)]
    rw [if_pos (by omega), Nat.add_sub_cancel_left]
  · repeat rw [if_neg (by omega)]
    simp

/-- A write of STATUS clears, in the word the host reads, the written bits among 1, 3, 4 and 5 (10_state.md R29). -/
theorem Status.word_writeOneToClear (f : Status) (v : Word) :
    (f.writeOneToClear v).word = f.word &&& ~~~ (v &&& 0x0000003A) := by
  apply BitVec.eq_of_getLsbD_eq
  intro i hi
  simp only [BitVec.getLsbD_and, BitVec.getLsbD_not, Status.getLsbD_word]
  interval_cases i <;> simp

/-- Settles O14: the fields by `Status.getLsbD_word`, the write by `Status.word_writeOneToClear`. -/
theorem statusFieldsAndW1C : Obligations.StatusFieldsAndW1C := by
  intro s v
  obtain ⟨hcode, hreserved⟩ := Status.word_fields s.status
  refine ⟨?_, ?_, by decide, by rw [hostRead_status, enterReset_status]; decide, _, hostWrite_status v s⟩
  · simp only [hostRead_status, hcode, hreserved, Status.getLsbD_word]
    simp
  · rw [hostWrite_status, hostRead_status, hostRead_status]
    exact Status.word_writeOneToClear s.status v

theorem regAt_topkIdx {j : Nat} (hj : j < 16) : regAt (0x040 + 4 * j) = .topkIdx j := by
  interval_cases j <;> rfl

theorem regAt_topkCnt {j : Nat} (hj : j < 16) : regAt (0x080 + 4 * j) = .topkCnt j := by
  interval_cases j <;> rfl

theorem regAt_bktkey {w : Nat} (hw : w < 32) : regAt (0x180 + 4 * w) = .bktkey w := by
  interval_cases w <;> rfl

theorem regAt_reserved {off : Nat}
    (h : (0x030 ≤ off ∧ off < 0x040) ∨ (0x0C0 ≤ off ∧ off < 0x100) ∨ (0x200 ≤ off ∧ off ≤ 0xFFC)) :
    regAt off = .reserved off := by
  unfold regAt
  repeat rw [if_neg (by omega)]

theorem hostRead_topkIdx {j : Nat} (hj : j < 16) (s : State) :
    hostRead (0x040 + 4 * j) s = if j < s.params.k then wordAt s.topkIdx j else 0 := by
  rw [hostRead, regAt_topkIdx hj, readReg]

theorem hostRead_topkCnt {j : Nat} (hj : j < 16) (s : State) :
    hostRead (0x080 + 4 * j) s = if j < s.params.k then wordAt s.topkCnt j else 0 := by
  rw [hostRead, regAt_topkCnt hj, readReg]

theorem hostRead_keybuf {w : Nat} (hw : w < 32) (s : State) : hostRead (0x100 + 4 * w) s = wordAt s.keybuf w := by
  rw [hostRead, regAt_keybuf hw, readReg]

theorem hostRead_bktkey {w : Nat} (hw : w < 32) (s : State) : hostRead (0x180 + 4 * w) s = wordAt s.bktkey w := by
  rw [hostRead, regAt_bktkey hw, readReg]

/-- The four bytes of PARAM_MISC (10_state.md R51). -/
theorem paramMiscWord_fields (p : Params) :
    (paramMiscWord p).extractLsb' 0 8 = BitVec.ofNat 8 p.maxKeyLen ∧
      (paramMiscWord p).extractLsb' 8 8 = BitVec.ofNat 8 p.probeLimit ∧
      (paramMiscWord p).extractLsb' 16 8 = BitVec.ofNat 8 p.k ∧ (paramMiscWord p).extractLsb' 24 8 = 0 :=
  extract_packWord (BitVec.ofNat 8 p.maxKeyLen) (BitVec.ofNat 8 p.probeLimit) (BitVec.ofNat 8 p.k) 0

/-- Settles O16: each offset names its register, and PARAM_MISC's bytes are `paramMiscWord_fields`. -/
theorem registerMapReads : Obligations.RegisterMapReads := by
  intro s
  refine ⟨rfl, rfl, rfl, rfl, rfl, rfl, rfl, rfl, rfl, rfl, paramMiscWord_fields s.params, fun hp => ?_,
    fun j hj => hostRead_topkIdx hj s, fun j hj => hostRead_topkCnt hj s, fun w hw => hostRead_keybuf hw s,
    fun w hw => hostRead_bktkey hw s, fun off hoff => ?_⟩
  · have hcap : hostRead 0x028 s = BitVec.ofNat 32 s.params.capacity := rfl
    have hmisc : hostRead 0x02C s = paramMiscWord s.params := rfl
    rw [hcap, hmisc, hp]
    decide
  · rw [hostRead, regAt_reserved hoff, readReg]

/-- A write of CMD in a sweep is dropped and leaves OVR, and nothing else, set in STATUS (70_reset_and_hazards.md
R212). -/
theorem status_cmd_write_in_sweep (s : State) (v : Word) :
    (endSweep (hostWrite 0x00C v (enterReset s))).status = { Status.reset with ovr := true } := by
  rw [hostWrite_cmd_of_busy (s := enterReset s) rfl]
  rfl

/-- A write of CTRL without SRST stores bits 1 and 0 (10_state.md R25). -/
theorem Ctrl.word_ofWord (v : Word) : (Ctrl.ofWord v).word = v &&& 0x00000003 := by
  apply BitVec.eq_of_getLsbD_eq
  intro i hi
  simp only [BitVec.getLsbD_and, Ctrl.getLsbD_word, Ctrl.ofWord]
  interval_cases i <;> simp

theorem hostWrite_ctrl_of_not_srst {v : Word} (hv : v.getLsbD 31 = false) (s : State) :
    hostWrite 0x004 v s = { s with ctrl := Ctrl.ofWord v } := by
  rw [hostWrite_ctrl, writeCtrl, if_neg (Bool.eq_false_iff.1 hv)]

/-- Settles O21: the registers of `State.reset` by the register map, and the writes during a sweep by what they
leave in STATUS and CTRL. -/
theorem resetValues : Obligations.ResetValues := by
  refine ⟨by decide, by decide, by decide, by decide, by decide, by decide, by decide, by decide, by decide, by decide,
    by decide, by decide, fun j hj => ⟨?_, ?_⟩, fun w hw => ⟨?_, ?_⟩, fun b => ⟨rfl, rfl, byteAt_empty⟩, rfl, rfl,
    fun s => rfl, fun s v => ?_, fun s v hv => ?_⟩
  · rw [hostRead_topkIdx hj]
    simp [State.reset]
  · rw [hostRead_topkCnt hj]
    simp [State.reset]
  · rw [hostRead_keybuf hw]
    simp [State.reset]
  · rw [hostRead_bktkey hw]
    simp [State.reset]
  · rw [hostRead_status, status_cmd_write_in_sweep]
    decide
  · rw [hostRead_ctrl, endSweep_ctrl, hostWrite_ctrl_of_not_srst hv]
    exact Ctrl.word_ofWord v

end Sys2Proof.Machine
end

section
/-! ## The host port: the writes without effect, the refused accesses, and what BUSY holds back (20_memory.md R62, R63,
R71, R72) -/

namespace Sys2Proof.Machine

theorem regAt_eq_cmd {off : Nat} (h : regAt off = .cmd) : off = 0x00C := by
  by_contra hne
  refine absurd h ?_
  unfold regAt
  iterate 3 refine ite_ne_of_ne nofun ?_
  rw [if_neg hne]
  iterate 12 refine ite_ne_of_ne nofun ?_
  exact nofun

theorem regAt_eq_keybuf {off w : Nat} (h : regAt off = .keybuf w) : 0x100 ≤ off ∧ off < 0x180 := by
  by_contra hne
  refine absurd h ?_
  unfold regAt
  iterate 14 refine ite_ne_of_ne nofun ?_
  rw [if_neg hne]
  exact ite_ne_of_ne nofun nofun

/-- The writable registers are CTRL, STATUS, CMD and KEYBUF (20_memory.md R72). -/
theorem writeReg_of_readOnly {r : Reg} (hctrl : r ≠ .ctrl) (hstatus : r ≠ .status) (hcmd : r ≠ .cmd)
    (hkeybuf : ∀ w, r ≠ .keybuf w) (v : Word) (s : State) : writeReg r v s = s := by
  cases r with
  | ctrl => exact absurd rfl hctrl
  | status => exact absurd rfl hstatus
  | cmd => exact absurd rfl hcmd
  | keybuf w => exact absurd rfl (hkeybuf w)
  | _ => rfl

/-- Settles O15: the offset names none of the four writable registers. -/
theorem otherWritesHaveNoEffect : Obligations.OtherWritesHaveNoEffect := by
  intro off v s _ _ hctrl hstatus hcmd hkeybuf
  exact writeReg_of_readOnly (mt regAt_eq_ctrl hctrl) (mt regAt_eq_status hstatus) (mt regAt_eq_cmd hcmd)
    (fun _ => mt regAt_eq_keybuf hkeybuf) v s

/-- No outcome is a fault (60_exceptions.md R207). -/
theorem next_or_refused (o : Host.Outcome State Fault Refusal) : (∃ t, o = .next t) ∨ ∃ r, o = .refused r := by
  cases o with
  | next t => exact .inl ⟨t, rfl⟩
  | fault e => cases e
  | refused r => exact .inr ⟨r, rfl⟩

theorem hostAccess_of_outside {a : Access} (h : a.width ≠ 32 ∨ a.offset % 4 ≠ 0 ∨ 0x1000 ≤ a.offset) (e : State) :
    ∃ r, hostAccess a e = .refused r := by
  rcases next_or_refused (hostAccess a e) with ⟨t, ht⟩ | hr
  · obtain ⟨hwidth, hlt, halign, -⟩ := hostAccess_next ht
    omega
  · exact hr

/-- A WR and a RD are performed as an access. -/
theorem hostMove_of_access {s : State} {a : Access}
    (h : (∃ v, hostStmt s = some (.wr a v)) ∨ ∃ x, hostStmt s = some (.rd a x)) :
    ∃ e, hostMove s = hostAccess a e := by
  rcases h with ⟨v, hst⟩ | ⟨x, hst⟩ <;> simp [hostMove, hst]

/-- The choice of the host's move leaves the statement it is at. -/
theorem hostStmt_of_hostMovesAt {s s' : State} (h : HostMovesAt s s') : hostStmt s' = hostStmt s := by
  rw [hostMovesAt_eq h]
  rfl

/-- Settles O17: the step is the access, refused outside the contract and performed inside it. -/
theorem accessOutsideContractIsRefused : Obligations.AccessOutsideContractIsRefused := by
  intro s s' a hcontract hmoves hst
  rw [← hostStmt_of_hostMovesAt hmoves] at hst
  obtain ⟨e, he⟩ := hostMove_of_access hst
  rw [step_of_hostMovesAt hcontract hmoves, he]
  by_cases hout : a.width ≠ 32 ∨ a.offset % 4 ≠ 0 ∨ 0x1000 ≤ a.offset
  · obtain ⟨r, hr⟩ := hostAccess_of_outside hout e
    rw [hr]
    exact ⟨iff_of_true hout ⟨r, rfl⟩, iff_of_false (not_not_intro hout) (by simp)⟩
  · have hok : hostAccess a e = .next e := hostAccess_of_ok e (by omega) (by omega) (by omega)
    rw [hok]
    exact ⟨iff_of_false hout (by simp), iff_of_true hout ⟨e, rfl⟩⟩

/-- `t` differs from `s` at most in CTRL, the host, and the fields of STATUS other than BUSY, ERR and ERR_CODE. -/
def OnlyHostSideDiffers (s t : State) : Prop :=
  ∃ c f a, t = { s with ctrl := c, status := f, host := a } ∧ f.busy = s.status.busy ∧ f.err = s.status.err ∧
    f.errCode = s.status.errCode

/-- A change of the host alone. -/
theorem onlyHostSideDiffers_host (s : State) (a : HostAgent) : OnlyHostSideDiffers s { s with host := a } :=
  ⟨s.ctrl, s.status, a, rfl, rfl, rfl, rfl⟩

theorem OnlyHostSideDiffers.hostAdvance {s t : State} (h : OnlyHostSideDiffers s t) :
    OnlyHostSideDiffers s (hostAdvance t) := by
  obtain ⟨c, f, a, rfl, hf⟩ := h
  exact ⟨c, f, _, rfl, hf⟩

/-- With BUSY = 1 a write of CMD or KEYBUF is dropped, so that only CTRL and W1C writes act (10_state.md R35,
20_memory.md R71). -/
theorem hostWrite_of_busy {s : State} (hb : s.status.busy = true) (off : Nat) (v : Word) :
    (off = 0x004 ∧ v.getLsbD 31 = true) ∨ OnlyHostSideDiffers s (hostWrite off v s) := by
  rcases hostWrite_cases off v s with
    h | ⟨hoff, hv, -⟩ | ⟨-, -, h⟩ | ⟨-, h⟩ | ⟨-, h⟩ | ⟨hidle, -⟩ | ⟨w, hidle, -⟩
  · exact .inr (h.symm ▸ onlyHostSideDiffers_host s s.host)
  · exact .inl ⟨hoff, hv⟩
  · exact .inr ⟨_, s.status, s.host, h, rfl, rfl, rfl⟩
  · exact .inr ⟨s.ctrl, _, s.host, h, rfl, rfl, rfl⟩
  · exact .inr ⟨s.ctrl, _, s.host, h, rfl, rfl, rfl⟩
  · simp [hb] at hidle
  · simp [hb] at hidle

theorem hostMove_of_busy {s t : State} (hb : s.status.busy = true) (hm : hostMove s = .next t) :
    (∃ a v, hostStmt s = some (.wr a v) ∧ a.offset = 0x004 ∧ v.getLsbD 31 = true) ∨ OnlyHostSideDiffers s t := by
  rcases hostMove_cases hm with rfl | ⟨a, v, hst, -, -, -, rfl⟩ | ⟨a, x, -, rfl⟩ | ⟨i, -, -, rfl⟩ | ⟨l, rfl⟩
  · exact .inr (onlyHostSideDiffers_host t t.host)
  · rcases hostWrite_of_busy hb a.offset v with hsrst | h
    · exact .inl ⟨a, v, hst, hsrst⟩
    · exact .inr h.hostAdvance
  · exact .inr (onlyHostSideDiffers_host s _)
  · rcases hostWrite_of_busy hb 0x00C (encode i) with ⟨hoff, -⟩ | h
    · cases hoff
    · exact .inr h.hostAdvance
  · exact .inr (onlyHostSideDiffers_host s _)

/-- Settles O60, by `hostMove_of_busy`. -/
theorem resultsStayUntilCompletion : Obligations.ResultsStayUntilCompletion := by
  intro s t hb hm
  refine (hostMove_of_busy hb hm).imp_right ?_
  rintro ⟨c, f, a, rfl, hbusy, herr, hcode⟩
  exact ⟨rfl, rfl, rfl, rfl, rfl, rfl, rfl, rfl, rfl, rfl, rfl, rfl, rfl, rfl, hbusy.trans hb, herr, hcode⟩

end Sys2Proof.Machine
end

section
/-! ## Whose move comes next (20_memory.md R75, 70_reset_and_hazards.md R229) -/

namespace Sys2Proof.Machine

theorem coreReady_iff (s : State) : coreReady s = true ↔ s.status.init = true ∨ s.pending ≠ none := by
  simp [coreReady, Option.isSome_iff_ne_none]

theorem InContract.of_hostMove {s t : State} (h : InContract s) (hm : hostMove s = .next t) : InContract t := by
  obtain ⟨-, -, -, hparams, hsecond⟩ := hostMove_schedule hm
  rw [InContract, hparams, hsecond]
  exact h

theorem step_of_reset {s : State} {rest : List Move} (hc : InContract s) (hs : s.sched = .reset :: rest) :
    step s = .next (enterReset (dropMove s)) := by
  obtain ⟨hlegal, hsecond⟩ := hc
  simp [step, hlegal, hsecond, hs, moveOf]

/-- The most moves that can come before the sequencer's: those the environment has fixed, and those the free value still
leaves to the host. -/
def movesBeforeCore (s : State) : Nat := s.sched.length + (Config.hostMovesBefore s.tick - s.waited)

theorem movesBeforeCore_of_hostMove {s t : State} (hm : hostMove s = .next t) :
    movesBeforeCore t = movesBeforeCore s := by
  obtain ⟨hsched, htick, hwaited, -, -⟩ := hostMove_schedule hm
  rw [movesBeforeCore, hsched, htick, hwaited]
  rfl

/-- With a step of the sequencer open, the next move is its own, one of the host, or a scheduled reset; the host's takes
one off the moves that can come before. -/
theorem moves_of_coreReady {s : State} (hr : coreReady s = true) :
    (∃ s', CoreMovesAt s s') ∨
    (∃ s', HostMovesAt s s' ∧ coreReady s' = true ∧ movesBeforeCore s' < movesBeforeCore s) ∨
    ∃ rest, s.sched = .reset :: rest := by
  cases hs : s.sched with
  | nil =>
    cases he : hostEnded s with
    | true => exact .inl ⟨s, .inr (.inl ⟨hs, he, rfl⟩)⟩
    | false =>
      rcases le_or_gt (Config.hostMovesBefore s.tick) s.waited with hle | hlt
      · exact .inl ⟨_, .inr (.inr ⟨hs, he, hle, rfl⟩)⟩
      · refine .inr (.inl ⟨_, .inr (.inr ⟨hs, (coreReady_iff s).1 hr, he, hlt, rfl⟩), hr, ?_⟩)
        simp only [movesBeforeCore]
        omega
  | cons m rest =>
    cases m with
    | host => exact .inr (.inl ⟨_, .inl ⟨rest, hs, rfl⟩, hr, by simp [movesBeforeCore, hs]⟩)
    | core => exact .inl ⟨_, .inl ⟨rest, hs, rfl⟩⟩
    | reset => exact .inr (.inr ⟨rest, rfl⟩)

/-- A step before the sequencer's is one of those that can come before; it is refused, or leaves the sequencer's step
open with fewer to come. -/
theorem step_of_coreReady {s : State} (hc : InContract s) (hr : coreReady s = true) :
    (∃ s', CoreMovesAt s s') ∨ 0 < movesBeforeCore s ∧ ((∃ r, step s = .refused r) ∨
      ∃ t, step s = .next t ∧ InContract t ∧ coreReady t = true ∧ movesBeforeCore t < movesBeforeCore s) := by
  rcases moves_of_coreReady hr with hcore | ⟨s', hhost, hr', hlt⟩ | ⟨rest, hs⟩
  · exact .inl hcore
  · refine .inr ⟨Nat.zero_lt_of_lt hlt, ?_⟩
    have hc' : InContract s' := by
      rw [hostMovesAt_eq hhost]
      exact hc
    rw [step_of_hostMovesAt hc hhost]
    rcases next_or_refused (hostMove s') with ⟨t, ht⟩ | hrefused
    · exact .inr ⟨t, ht, hc'.of_hostMove ht, coreReady_of_hostMove hr' ht, by rwa [movesBeforeCore_of_hostMove ht]⟩
    · exact .inl hrefused
  · have hlt : movesBeforeCore (enterReset (dropMove s)) < movesBeforeCore s := by simp [movesBeforeCore, hs]
    exact .inr ⟨Nat.zero_lt_of_lt hlt, .inr ⟨_, step_of_reset hc hs, hc, rfl, hlt⟩⟩

/-- The open step of the sequencer comes, by induction on the moves that can come before it. -/
theorem core_move_comes {n : Nat} {s : State} (hc : InContract s) (hr : coreReady s = true)
    (hn : movesBeforeCore s ≤ n) :
    ∃ m ≤ n, (∃ r, Host.Core.run Sys2Proof.core m s = .refused r) ∨
      ∃ t t', Host.Core.run Sys2Proof.core m s = .next t ∧ coreReady t = true ∧ CoreMovesAt t t' := by
  induction n generalizing s with
  | zero =>
    rcases step_of_coreReady hc hr with ⟨s', hcore⟩ | ⟨hpos, -⟩
    · exact ⟨0, le_rfl, .inr ⟨s, s', rfl, hr, hcore⟩⟩
    · omega
  | succ n ih =>
    rcases step_of_coreReady hc hr with ⟨s', hcore⟩ | ⟨-, ⟨r, hrefused⟩ | ⟨t, ht, hct, hrt, hlt⟩⟩
    · exact ⟨0, Nat.zero_le _, .inr ⟨s, s', rfl, hr, hcore⟩⟩
    · exact ⟨1, by omega, .inl ⟨r, run_of_refused 0 hrefused⟩⟩
    · obtain ⟨m, hm, hrun⟩ := ih hct hrt (by omega)
      refine ⟨m + 1, by omega, ?_⟩
      rwa [run_of_next m ht]

/-- With no move fixed and both agents ready, either may move. -/
theorem step_of_unscheduled {s : State} (hc : InContract s) (hr : coreReady s = true) (he : hostEnded s = false)
    (hs : s.sched = []) : step s = coreMove (nextTick s) ∨ step s = hostMove (hostFirst s) := by
  have hopen := (coreReady_iff s).1 hr
  rcases le_or_gt (Config.hostMovesBefore s.tick) s.waited with hle | hlt
  · exact .inl (step_of_coreMovesAt hc (.inr (.inr ⟨hs, he, hle, rfl⟩)) hopen)
  · exact .inr (step_of_hostMovesAt hc (.inr (.inr ⟨hs, hopen, he, hlt, rfl⟩)))

/-- Scheduled moves of the host leave the rest of the schedule to come. -/
theorem sched_of_run_hostMoves {k : Nat} {rest : List Move} {s t : State} (hc : InContract s)
    (hs : s.sched = List.replicate k .host ++ rest) (h : Host.Core.run Sys2Proof.core k s = .next t) :
    t.sched = rest := by
  induction k generalizing s with
  | zero =>
    cases h
    exact hs
  | succ k ih =>
    have hstep := step_of_hostMovesAt hc (.inl ⟨_, hs, rfl⟩)
    rcases next_or_refused (hostMove { s with sched := List.replicate k .host ++ rest }) with ⟨u, hu⟩ | ⟨r, hr⟩
    · obtain ⟨hsched, -⟩ := hostMove_schedule hu
      have hcu : InContract u := .of_hostMove (s := { s with sched := List.replicate k .host ++ rest }) hc hu
      rw [run_of_next k (hstep.trans hu)] at h
      exact ih hcu hsched h
    · rw [run_of_refused k (hstep.trans hr)] at h
      cases h

/-- Settles O8: the order is open by `step_of_unscheduled` and `sched_of_run_hostMoves`, and fair by
`core_move_comes`. -/
theorem completionOrderIsOpenAndFair : Obligations.CompletionOrderIsOpenAndFair := by
  constructor
  · intro s hc _ hp he
    have hr : coreReady s = true := by simp [coreReady, hp]
    have hopen := (coreReady_iff s).1 hr
    refine ⟨step_of_unscheduled hc hr he, fun rest => ?_, fun rest => ?_, fun k rest t h => ?_⟩
    · exact step_of_coreMovesAt (s := { s with sched := .core :: rest }) hc (.inl ⟨rest, rfl, rfl⟩) hopen
    · exact step_of_hostMovesAt (s := { s with sched := .host :: rest }) hc (.inl ⟨rest, rfl, rfl⟩)
    · have hsched : t.sched = .core :: rest :=
        sched_of_run_hostMoves (s := { s with sched := List.replicate k .host ++ .core :: rest }) hc rfl h
      exact .inl ⟨rest, hsched, rfl⟩
  · intro s hc hr
    refine core_move_comes hc hr ?_
    rw [movesBeforeCore]
    omega

end Sys2Proof.Machine
end

section
/-! ## Words and commands by their two fields (30_encoding.md R86 to R94, R101) -/

namespace Sys2Proof.Machine

/-- The operand is what a command's well-formedness is about (30_encoding.md R94). -/
theorem wellFormed_iff (i : Instr) : i.wellFormed = true ↔ operandOf i < 2 ^ 24 := by
  cases i with
  | nop => decide
  | topk => decide
  | _ => exact decide_eq_true_iff

theorem opndField_lt (w : Word) : opndField w < 2 ^ 24 := (w.extractLsb' 8 24).isLt

/-- The word with the given OPND and OPC (30_encoding.md R86). -/
def joinFields (f : BitVec 24 × Byte) : Word := f.1 ++ f.2

@[simp] theorem opcField_joinFields (f : BitVec 24 × Byte) : opcField (joinFields f) = f.2 := extract_lowest _ _

@[simp] theorem opndField_joinFields (f : BitVec 24 × Byte) : opndField (joinFields f) = f.1.toNat :=
  congrArg BitVec.toNat ((extract_append_high f.1 f.2 0).trans (extract_full f.1))

@[simp] theorem joinFields_fields (w : Word) : joinFields (w.extractLsb' 8 24, opcField w) = w :=
  BitVec.extractLsb'_append_extractLsb'

theorem joinFields_injective : Function.Injective joinFields := fun f g h =>
  Prod.ext (BitVec.eq_of_toNat_eq (by simpa using congrArg opndField h)) (by simpa using congrArg opcField h)

/-- The encoding of a command with an operand of 24 bits is the word with the command's two fields. -/
theorem wellFormed_and_encode_eq_iff (w : Word) (i : Instr) :
    (i.wellFormed = true ∧ encode i = w) ↔ opcField w = opcodeOf i ∧ opndField w = operandOf i := by
  rw [wellFormed_iff]
  constructor
  · rintro ⟨hfits, rfl⟩
    exact ⟨Laws.Fields.opcField_encode i, (Laws.Fields.opndField_encode i).trans (Nat.mod_eq_of_lt hfits)⟩
  · rintro ⟨hopc, hopnd⟩
    refine ⟨hopnd ▸ opndField_lt w, ?_⟩
    calc encode i = joinFields (BitVec.ofNat 24 (opndField w), opcField w) := by rw [hopc, hopnd]; rfl
      _ = joinFields (w.extractLsb' 8 24, opcField w) := by rw [opndField, BitVec.ofNat_toNat, BitVec.setWidth_eq]
      _ = w := joinFields_fields w

/-- A reserved opcode, or an operand given to NOP or TOPK (30_encoding.md R91, R92). -/
def IllegalFields (w : Word) : Prop :=
  0x07 ≤ (opcField w).toNat ∨ (((opcField w).toNat = 0x00 ∨ (opcField w).toNat = 0x05) ∧ opndField w ≠ 0)

/-- What decoding says of the fields of a word. -/
def FieldsAgree (w : Word) : Decoded → Prop
  | .legal i => opcField w = opcodeOf i ∧ opndField w = operandOf i
  | .illegal _ => IllegalFields w

theorem fieldsAgree_decodeFormN {w : Word} {i : Instr} (hopc : opcField w = opcodeOf i) (hopnd : operandOf i = 0)
    (hrow : (opcField w).toNat = 0x00 ∨ (opcField w).toNat = 0x05) : FieldsAgree w (decodeFormN w i) := by
  unfold decodeFormN
  split
  next h => exact ⟨hopc, h.trans hopnd.symm⟩
  next h => exact .inr ⟨hrow, h⟩

/-- The decoder looks at all bits of both fields, row by row of the opcode map (30_encoding.md R90). -/
theorem fieldsAgree_decode (w : Word) : FieldsAgree w (decode w) := by
  unfold decode
  split
  next h => exact fieldsAgree_decodeFormN (BitVec.eq_of_toNat_eq h) rfl (.inl h)
  next h => exact ⟨BitVec.eq_of_toNat_eq h, rfl⟩
  next h => exact ⟨BitVec.eq_of_toNat_eq h, rfl⟩
  next h => exact ⟨BitVec.eq_of_toNat_eq h, rfl⟩
  next h => exact ⟨BitVec.eq_of_toNat_eq h, rfl⟩
  next h => exact fieldsAgree_decodeFormN (BitVec.eq_of_toNat_eq h) rfl (.inr h)
  next h => exact ⟨BitVec.eq_of_toNat_eq h, rfl⟩
  next => exact .inl (by grind)

theorem decode_of_fields {w : Word} {i : Instr} (hopc : opcField w = opcodeOf i) (hopnd : opndField w = operandOf i) :
    decode w = .legal i := by
  unfold decode
  rw [hopc]
  cases i with
  | nop => exact if_pos hopnd
  | topk => exact if_pos hopnd
  | hash n => exact congrArg (fun x => Decoded.legal (.hash x)) hopnd
  | find n => exact congrArg (fun x => Decoded.legal (.find x)) hopnd
  | incr idx => exact congrArg (fun x => Decoded.legal (.incr x)) hopnd
  | count n => exact congrArg (fun x => Decoded.legal (.count x)) hopnd
  | rdbkt idx => exact congrArg (fun x => Decoded.legal (.rdbkt x)) hopnd

/-- A word spells the command that has its two fields. -/
theorem decode_eq_legal_iff (w : Word) (i : Instr) :
    decode w = .legal i ↔ opcField w = opcodeOf i ∧ opndField w = operandOf i := by
  constructor
  · intro h
    have hagree := fieldsAgree_decode w
    rwa [h] at hagree
  · rintro ⟨hopc, hopnd⟩
    exact decode_of_fields hopc hopnd

/-- Settles O1: both sides say that the word has the command's two fields. -/
theorem decodeInvertsEncode : Obligations.DecodeInvertsEncode := by
  intro w i
  rw [decode_eq_legal_iff, wellFormed_and_encode_eq_iff]

theorem not_illegalFields {w : Word} {i : Instr} (hopc : opcField w = opcodeOf i) (hopnd : opndField w = operandOf i) :
    ¬ IllegalFields w := by
  rw [IllegalFields, hopc, hopnd]
  cases i <;> simp [opcodeOf, operandOf]

/-- The partition of the words by their fields (30_encoding.md R93). -/
theorem legal_iff_not_illegalFields (w : Word) : (∃ i, decode w = .legal i) ↔ ¬ IllegalFields w := by
  have hagree := fieldsAgree_decode w
  cases hd : decode w with
  | legal i =>
    rw [hd] at hagree
    obtain ⟨hopc, hopnd⟩ := hagree
    exact iff_of_true ⟨i, rfl⟩ (not_illegalFields hopc hopnd)
  | illegal why =>
    rw [hd] at hagree
    exact iff_of_false nofun (not_not_intro hagree)

theorem illegal_iff_not_legal (w : Word) : (∃ why, decode w = .illegal why) ↔ ¬ ∃ i, decode w = .legal i := by
  cases decode w <;> simp

/-- The field pairs of the legal words: any operand with the opcode of a form-K or form-I command, operand 0 with
that of NOP or TOPK (30_encoding.md R93). -/
def legalFields : Set (BitVec 24 × Byte) := {0} ×ˢ {0x00, 0x05} ∪ Set.univ ×ˢ {0x01, 0x02, 0x03, 0x04, 0x06}

theorem ncard_legalFields : legalFields.ncard = 2 + 5 * 2 ^ 24 := by
  have hdisj : Disjoint (({0} : Set (BitVec 24)) ×ˢ ({0x00, 0x05} : Set Byte))
      (Set.univ ×ˢ {0x01, 0x02, 0x03, 0x04, 0x06}) := by
    rw [Set.disjoint_prod]
    exact .inr (by simp)
  have hopnds : (Set.univ : Set (BitVec 24)).ncard = 2 ^ 24 := by
    rw [Set.ncard_univ, Nat.card_congr BitVec.equivFin.toEquiv, Nat.card_fin]
  have hopcs : ({0x01, 0x02, 0x03, 0x04, 0x06} : Set Byte).ncard = 5 := by
    rw [Set.ncard_eq_toFinset_card']
    rfl
  rw [legalFields, Set.ncard_union_eq hdisj, Set.ncard_prod, Set.ncard_prod, hopnds, hopcs, Set.ncard_singleton,
    Set.ncard_pair (by decide)]
  norm_num

theorem mem_legalFields_iff (x : BitVec 24) (c : Byte) :
    (x, c) ∈ legalFields ↔ ¬ IllegalFields (joinFields (x, c)) := by
  simp only [legalFields, IllegalFields, Set.mem_union, Set.mem_prod, Set.mem_insert_iff, Set.mem_singleton_iff,
    Set.mem_univ, true_and, opcField_joinFields, opndField_joinFields, ← BitVec.toNat_inj, BitVec.ofNat_eq_ofNat,
    BitVec.toNat_ofNat]
  omega

theorem setOf_legal_eq : { w : Word | ∃ i, decode w = .legal i } = joinFields '' legalFields := by
  ext w
  rw [Set.mem_ofPred_eq, legal_iff_not_illegalFields]
  constructor
  · intro h
    exact ⟨(w.extractLsb' 8 24, opcField w), (mem_legalFields_iff _ _).2 (by rwa [joinFields_fields]),
      joinFields_fields w⟩
  · rintro ⟨⟨x, c⟩, hmem, rfl⟩
    exact (mem_legalFields_iff x c).1 hmem

/-- Settles O3: the partition by `legal_iff_not_illegalFields`, and the number by counting the field pairs. -/
theorem legalWordsCharacterised : Obligations.LegalWordsCharacterised := by
  refine ⟨fun w => ⟨legal_iff_not_illegalFields w, illegal_iff_not_legal w⟩, ?_⟩
  rw [setOf_legal_eq, Set.ncard_image_of_injective _ joinFields_injective, ncard_legalFields]

/-- Settles O4, by evaluation of each row. -/
theorem workedEncodings : Obligations.WorkedEncodings := by
  refine ⟨?_, ?_, ?_, ?_, ?_, ?_, ?_, ?_, ⟨_, rfl⟩, ⟨_, rfl⟩, ⟨_, rfl⟩⟩ <;> decide

end Sys2Proof.Machine
end

section
/-! ## The rows of the opcode map (30_encoding.md R89) -/

namespace Sys2Proof.Machine

theorem joinFields_and (f g : BitVec 24 × Byte) :
    joinFields f &&& joinFields g = joinFields (f.1 &&& g.1, f.2 &&& g.2) := BitVec.and_append

/-- The mask of a form-K or form-I row keeps OPC (30_encoding.md R89). -/
theorem and_opcMask_eq_iff (w : Word) (c : Byte) : w &&& 0x000000FF = joinFields (0, c) ↔ opcField w = c := by
  have hmask : w &&& 0x000000FF = joinFields (0, opcField w) := by
    calc w &&& 0x000000FF = joinFields (w.extractLsb' 8 24, opcField w) &&& joinFields (0, 0xFF) := by
          rw [joinFields_fields]; rfl
      _ = joinFields (w.extractLsb' 8 24 &&& 0, opcField w &&& 0xFF) := joinFields_and _ _
      _ = joinFields (0, opcField w) := congrArg₂ (fun x c => joinFields (x, c)) BitVec.and_zero BitVec.and_allOnes
  rw [hmask, joinFields_injective.eq_iff, Prod.mk.injEq]
  exact and_iff_right rfl

/-- The mask of a form-N row keeps the word. -/
theorem and_fullMask (w : Word) : w &&& 0xFFFFFFFF = w := BitVec.and_allOnes

theorem pattern_opcodeRow (i : Instr) : (opcodeRow i).pattern = joinFields (0, opcodeOf i) := by
  cases i <;> simp [opcodeRow, opcodeOf, joinFields]

theorem matches_opcodeRow_of_decode {w : Word} {i : Instr} (hd : decode w = .legal i) :
    w &&& (opcodeRow i).mask = (opcodeRow i).pattern := by
  obtain ⟨hopc, hopnd⟩ := (decode_eq_legal_iff w i).1 hd
  obtain ⟨-, hword⟩ := (wellFormed_and_encode_eq_iff w i).2 ⟨hopc, hopnd⟩
  cases i with
  | nop => exact (and_fullMask w).trans hword.symm
  | topk => exact (and_fullMask w).trans hword.symm
  | _ => exact pattern_opcodeRow _ ▸ (and_opcMask_eq_iff w _).2 hopc

theorem decode_of_matches_opcodeRow {w : Word} {i : Instr} (h : w &&& (opcodeRow i).mask = (opcodeRow i).pattern) :
    ∃ j, decode w = .legal j ∧ opcodeRow j = opcodeRow i := by
  cases i with
  | nop => exact ⟨.nop, ((and_fullMask w).symm.trans h) ▸ rfl, rfl⟩
  | topk => exact ⟨.topk, ((and_fullMask w).symm.trans h) ▸ rfl, rfl⟩
  | hash n => exact ⟨.hash (opndField w), decode_of_fields ((and_opcMask_eq_iff w 0x01).1 h) rfl, rfl⟩
  | find n => exact ⟨.find (opndField w), decode_of_fields ((and_opcMask_eq_iff w 0x02).1 h) rfl, rfl⟩
  | incr idx => exact ⟨.incr (opndField w), decode_of_fields ((and_opcMask_eq_iff w 0x03).1 h) rfl, rfl⟩
  | count n => exact ⟨.count (opndField w), decode_of_fields ((and_opcMask_eq_iff w 0x04).1 h) rfl, rfl⟩
  | rdbkt idx => exact ⟨.rdbkt (opndField w), decode_of_fields ((and_opcMask_eq_iff w 0x06).1 h) rfl, rfl⟩

theorem mem_opcodeTable_iff (r : OpcodeRow) : r ∈ opcodeTable ↔ ∃ i, opcodeRow i = r := by
  constructor
  · intro h
    obtain ⟨i, -, hi⟩ := List.mem_map (l := [Instr.nop, .hash 0, .find 0, .incr 0, .count 0, .topk, .rdbkt 0]).1 h
    exact ⟨i, hi⟩
  · rintro ⟨i, rfl⟩
    cases i <;> simp [opcodeTable, opcodeRow]

/-- Settles O2: a row a word matches is the row of the command it decodes to, so it matches no second one. -/
theorem opcodeMapDecides : Obligations.OpcodeMapDecides := by
  have hrow : ∀ (w : Word) (r : OpcodeRow), r ∈ opcodeTable → w &&& r.mask = r.pattern →
      ∃ i, decode w = .legal i ∧ opcodeRow i = r := by
    intro w r hmem hmatch
    obtain ⟨i, rfl⟩ := (mem_opcodeTable_iff r).1 hmem
    exact decode_of_matches_opcodeRow hmatch
  refine ⟨rfl, fun w i hd => ?_, hrow, fun w r r' hmem hmem' hmatch hmatch' => ?_⟩
  · obtain ⟨-, hopnd⟩ := (decode_eq_legal_iff w i).1 hd
    exact ⟨matches_opcodeRow_of_decode hd, (mem_opcodeTable_iff _).2 ⟨i, rfl⟩, hopnd.symm⟩
  · obtain ⟨i, hd, rfl⟩ := hrow w r hmem hmatch
    obtain ⟨j, hd', rfl⟩ := hrow w r' hmem' hmatch'
    rw [Decoded.legal.inj (hd.symm.trans hd')]

end Sys2Proof.Machine
end

section
/-! ## What is printed is assembled back (30_encoding.md R94, R102) -/

namespace Sys2Proof.Machine

theorem digitValue_digitChar {d : Nat} (hd : d < 10) : digitValue 10 (digitChar d) = some d := by
  interval_cases d <;> rfl

theorem digitsValue_append (base acc : Nat) (l m : List Char) :
    digitsValue base acc (l ++ m) = (digitsValue base acc l).bind fun v => digitsValue base v m := by
  induction l generalizing acc with
  | nil => rfl
  | cons c l ih =>
    simp only [List.cons_append, digitsValue]
    cases digitValue base c with
    | none => rfl
    | some d => exact ih _

theorem digitsValue_digitChar {d : Nat} (hd : d < 10) (acc : Nat) :
    digitsValue 10 acc [digitChar d] = some (acc * 10 + d) := by
  simp [digitsValue, digitValue_digitChar hd]

/-- The decimal digits of a number that has at most `fuel + 1` of them are read back as the number. -/
theorem digitsValue_decimalDigits {fuel n : Nat} (hn : n < 10 ^ (fuel + 1)) :
    digitsValue 10 0 (decimalDigits fuel n) = some n := by
  induction fuel generalizing n with
  | zero =>
    have hlt : n < 10 := hn
    simp [decimalDigits, Nat.mod_eq_of_lt hlt, digitsValue_digitChar hlt]
  | succ fuel ih =>
    unfold decimalDigits
    split
    next h => simp [digitsValue_digitChar h]
    next h =>
      have hdiv : n / 10 < 10 ^ (fuel + 1) := Nat.div_lt_of_lt_mul (by rwa [pow_succ'] at hn)
      rw [digitsValue_append, ih hdiv, Option.bind_some, digitsValue_digitChar (Nat.mod_lt n (by decide)),
        Nat.div_add_mod']

theorem mem_decimalDigits {fuel n : Nat} {c : Char} (h : c ∈ decimalDigits fuel n) : ∃ d < 10, c = digitChar d := by
  induction fuel generalizing n with
  | zero => exact ⟨n % 10, Nat.mod_lt n (by decide), List.mem_singleton.1 h⟩
  | succ fuel ih =>
    unfold decimalDigits at h
    split at h
    next hlt => exact ⟨n, hlt, List.mem_singleton.1 h⟩
    next =>
      rcases List.mem_append.1 h with h | h
      · exact ih h
      · exact ⟨n % 10, Nat.mod_lt n (by decide), List.mem_singleton.1 h⟩

theorem decimalDigits_ne_nil (fuel n : Nat) : decimalDigits fuel n ≠ [] := by
  cases fuel with
  | zero => simp [decimalDigits]
  | succ fuel => simp only [decimalDigits]; split <;> simp

/-- Without an `x` an operand is decimal (30_encoding.md R94). -/
theorem parseOperand_of_decimal {l : List Char} (hne : l ≠ []) (hx : 'x' ∉ l) :
    parseOperand l = digitsValue 10 0 l := by
  unfold parseOperand
  split
  next => exact absurd rfl hne
  next => simp at hx
  next => rfl

theorem parseOperand_decimalDigits {fuel n : Nat} (hn : n < 10 ^ (fuel + 1)) :
    parseOperand (decimalDigits fuel n) = some n := by
  have hx : 'x' ∉ decimalDigits fuel n := by
    intro h
    obtain ⟨d, hd, hc⟩ := mem_decimalDigits h
    interval_cases d <;> exact absurd hc (by decide)
  rw [parseOperand_of_decimal (decimalDigits_ne_nil fuel n) hx, digitsValue_decimalDigits hn]

theorem ne_space_of_mem_mnemonicOf (i : Instr) : ∀ c ∈ (mnemonicOf i).toList, (c != ' ') = true := by
  cases i <;> simp [mnemonicOf, opcodeRow]

theorem commandOf_writtenOperand (i : Instr) : commandOf (mnemonicOf i) (writtenOperand i) = some i := by
  cases i <;> rfl

theorem assembleCommand_writtenOperand {i : Instr} (hwf : i.wellFormed = true) :
    assembleCommand (mnemonicOf i) (writtenOperand i) = some (encode i) := by
  rw [assembleCommand, commandOf_writtenOperand]
  exact if_pos hwf

theorem operandOf_of_writtenOperand {i : Instr} {x : Nat} (h : writtenOperand i = some x) : operandOf i = x := by
  cases i with
  | nop => cases h
  | topk => cases h
  | _ => exact Option.some.inj h

/-- The text's mnemonic ends at its first space, and its operand is read back (30_encoding.md R94). -/
theorem assembleText_commandText {i : Instr} (hwf : i.wellFormed = true) :
    assembleText (commandText i) = some (encode i) := by
  rw [← assembleCommand_writtenOperand hwf]
  have hm := ne_space_of_mem_mnemonicOf i
  unfold commandText
  cases hop : writtenOperand i with
  | none =>
    simp [assembleText, List.takeWhile_eq_self_iff.2 hm, List.dropWhile_eq_nil_iff.2 hm]
  | some x =>
    have hx : x < 10 ^ (7 + 1) := by
      have hfits := (wellFormed_iff i).1 hwf
      rw [operandOf_of_writtenOperand hop] at hfits
      omega
    simp [assembleText, List.takeWhile_append_of_pos hm, List.dropWhile_append_of_pos hm, parseOperand_decimalDigits hx]

/-- Settles O5: a legal word is the encoding of the command it decodes to, and the command's text assembles to its
encoding. -/
theorem disassemblyAssemblesBack : Obligations.DisassemblyAssemblesBack := by
  refine ⟨fun w i hd => ?_, fun w why hd => by rw [disassemble, hd]⟩
  obtain ⟨hwf, hword⟩ := (decodeInvertsEncode w i).1 hd
  have htext : disassemble w = commandText i := by rw [disassemble, hd]
  rw [htext, assembleText_commandText hwf, hword]
  exact ⟨rfl, rfl⟩

end Sys2Proof.Machine
end

section
/-! ## The statements of a host program (30_encoding.md R95, R97) -/

namespace Sys2Proof.Machine

theorem hostMove_of_wr {s : State} {a : Access} {v : Word} (h : hostStmt s = some (.wr a v)) :
    hostMove s = hostAccess a (hostAdvance (hostWrite a.offset v s)) := by simp [hostMove, h]

theorem hostMove_of_rd {s : State} {a : Access} {x : Nat} (h : hostStmt s = some (.rd a x)) :
    hostMove s = hostAccess a (hostAdvance (hostAssign x (hostRead a.offset s) s)) := by simp [hostMove, h]

theorem hostMove_of_cmd {s : State} {i : Instr} (h : hostStmt s = some (.cmd i)) (hwf : i.wellFormed = true) :
    hostMove s = .next (hostAdvance (hostWrite 0x00C (encode i) s)) := by simp [hostMove, h, hostCmd, hwf]

theorem hostMove_of_bnz {s : State} {x : Nat} {mask : Word} {l : Nat} (h : hostStmt s = some (.bnz x mask l)) :
    hostMove s = .next (hostGoto (if readVar s.host.vars x &&& mask ≠ 0 then l else s.host.pc + 1) s) := by
  by_cases hz : readVar s.host.vars x &&& mask = 0#32 <;> simp [hostMove, h, hostTest, hostAdvance, hz]

theorem hostMove_of_bz {s : State} {x : Nat} {mask : Word} {l : Nat} (h : hostStmt s = some (.bz x mask l)) :
    hostMove s = .next (hostGoto (if readVar s.host.vars x &&& mask = 0 then l else s.host.pc + 1) s) := by
  by_cases hz : readVar s.host.vars x &&& mask = 0#32 <;> simp [hostMove, h, hostTest, hostAdvance, hz]

theorem hostMove_of_goto {s : State} {l : Nat} (h : hostStmt s = some (.goto l)) :
    hostMove s = .next (hostGoto l s) := by simp [hostMove, h]

theorem hostMove_of_halt {s : State} (h : hostStmt s = some .halt) : hostMove s = .next s := by simp [hostMove, h]

/-- What the choice of the host's move leaves: the host, the CORE, and so what the host reads. -/
theorem host_coreOf_of_hostMovesAt {s s' : State} (h : HostMovesAt s s') :
    s'.host = s.host ∧ coreOf s' = coreOf s ∧ ∀ off, hostRead off s' = hostRead off s := by
  rw [hostMovesAt_eq h]
  exact ⟨rfl, rfl, fun off => by rw [hostRead, hostRead]; cases regAt off <;> rfl⟩

theorem hostAccess_regAccess {r : Reg} (hword : regOffset r % 4 = 0) (hwindow : regOffset r < 0x1000) (t : State) :
    hostAccess (regAccess r) t = .next t := hostAccess_of_ok t rfl hwindow hword

/-- Settles O18: the step is the host's move, one statement of the program. -/
theorem hostStatements : Obligations.HostStatements := by
  intro s s' hcontract hmoves
  obtain ⟨hhost, hcore, hread⟩ := host_coreOf_of_hostMovesAt hmoves
  rw [step_of_hostMovesAt hcontract hmoves, ← hostStmt_of_hostMovesAt hmoves, ← hhost]
  refine ⟨fun r v hst hword hwindow => ?_, fun r x hst hword hwindow => ?_, fun i hst hwf => hostMove_of_cmd hst hwf,
    fun x mask l hst => hostMove_of_bnz hst, fun x mask l hst => hostMove_of_bz hst, fun l hst => hostMove_of_goto hst,
    hostMove_of_halt⟩
  · rw [hostMove_of_wr hst, hostAccess_regAccess hword hwindow]
    rfl
  · rw [hostMove_of_rd hst, hostAccess_regAccess hword hwindow, ← hread, ← hcore]
    exact ⟨_, rfl, rfl, readVar_assignVar_self _ _ _, fun y hy => readVar_assignVar_other _ _ hy, rfl⟩

/-- BUSY is bit 0 of STATUS (10_state.md R29). -/
theorem Status.word_and_one_ne_zero_iff (f : Status) : f.word &&& 0x1 ≠ 0 ↔ f.busy = true := by
  have hbit : f.word.getLsbD 0 = f.busy := (f.getLsbD_word 0).trans (if_pos rfl)
  rw [show f.word &&& 0x1 = BitVec.setWidth 32 (BitVec.ofBool (f.word.getLsbD 0)) from
    BitVec.and_one_eq_setWidth_ofBool_getLsbD, hbit]
  cases f.busy <;> decide

@[simp] theorem coreOf_hostGoto (l : Nat) (s : State) : coreOf (hostGoto l s) = coreOf s := rfl

@[simp] theorem coreOf_dropMove (s : State) : coreOf (dropMove s) = coreOf s := rfl

theorem hostMovesAt_of_sched {s : State} {rest : List Move} (h : s.sched = .host :: rest) :
    HostMovesAt s (dropMove s) := .inl ⟨rest, h, by rw [dropMove, h, List.tail_cons]⟩

/-- The state after the first statement of a POLL, as a scheduled move (30_encoding.md R97). -/
def afterStatusRead (x : Nat) (s : State) : State := hostAdvance (hostAssign x s.status.word (dropMove s))

@[simp] theorem coreOf_afterStatusRead (x : Nat) (s : State) : coreOf (afterStatusRead x s) = coreOf s := rfl

theorem step_of_statusRead {s : State} {x : Nat} {rest : List Move} (hc : InContract s) (hs : s.sched = .host :: rest)
    (hst : hostStmt s = some (.rd (regAccess .status) x)) : step s = .next (afterStatusRead x s) := by
  rw [step_of_hostMovesAt hc (hostMovesAt_of_sched hs), hostMove_of_rd (s := dropMove s) hst]
  exact hostAccess_regAccess (r := .status) rfl (by decide) _

/-- Settles O20: the first step reads STATUS into the variable, and the second branches on its bit 0. -/
theorem pollWaitsForBusyZero : Obligations.PollWaitsForBusyZero := by
  intro s x rest hcontract hsched hrd hbnz
  have hread : readVar (afterStatusRead x s).host.vars x = s.status.word := readVar_assignVar_self _ _ _
  have hrest : (afterStatusRead x s).sched = .host :: rest := congrArg List.tail hsched
  have hsecond : step (afterStatusRead x s) = .next
      (hostGoto (if s.status.busy = true then s.host.pc else s.host.pc + 2) (dropMove (afterStatusRead x s))) := by
    rw [step_of_hostMovesAt (s := afterStatusRead x s) hcontract (hostMovesAt_of_sched hrest),
      hostMove_of_bnz (s := dropMove (afterStatusRead x s)) hbnz]
    simp only [dropMove, hread, Status.word_and_one_ne_zero_iff]
    rfl
  exact ⟨_, _, step_of_statusRead hcontract hsched hrd, hsecond, by simp, congrArg List.tail hrest, hread,
    fun hb => if_pos hb, fun hb => if_neg (Bool.eq_false_iff.1 hb)⟩

end Sys2Proof.Machine
end

section
/-! ## The expansion of KEY (30_encoding.md R96, 20_memory.md R64) -/

namespace Sys2Proof.Machine

/-- Byte `j` of a key, 0 at and beyond its length (30_encoding.md R96). -/
def paddedByte (bytes : List Byte) (j : Nat) : Byte := bytes[j]?.getD 0

theorem hostWrite_keybuf_of_idle {s : State} (hb : s.status.busy = false) {w : Nat} (hw : w < 32) (v : Word) :
    hostWrite (0x100 + 4 * w) v s = { s with keybuf := s.keybuf.setIfInBounds w v } := by
  rw [hostWrite_keybuf hw, writeKeybuf, if_neg (Bool.eq_false_iff.1 hb)]

/-- Writing the first `n` words of a buffer to KEYBUF, one after another. -/
theorem foldl_hostWrite_keybuf {s : State} (hb : s.status.busy = false) (v : Vector Word 32) {n : Nat} (hn : n ≤ 32) :
    ∃ buf, (List.range n).foldl (fun t w => hostWrite (0x100 + 4 * w) (wordAt v w) t) s = { s with keybuf := buf } ∧
      (∀ w < n, wordAt buf w = wordAt v w) ∧ ∀ w, n ≤ w → wordAt buf w = wordAt s.keybuf w := by
  induction n with
  | zero => exact ⟨s.keybuf, rfl, nofun, fun _ _ => rfl⟩
  | succ n ih =>
    obtain ⟨buf, hfold, hwritten, hkept⟩ := ih (by omega)
    refine ⟨buf.setIfInBounds n (wordAt v n), ?_, fun w hw => ?_, fun w hw => ?_⟩
    · rw [List.range_succ, List.foldl_concat, hfold]
      exact hostWrite_keybuf_of_idle (s := { s with keybuf := buf }) hb (by omega) _
    · rcases Nat.lt_succ_iff_lt_or_eq.1 hw with hlt | rfl
      · rw [wordAt_setIfInBounds_other _ _ (by omega), hwritten w hlt]
      · exact wordAt_setIfInBounds_self _ _ (by omega)
    · rw [wordAt_setIfInBounds_other _ _ (by omega), hkept w (by omega)]

theorem bufByte_congr {buf buf' : Vector Word 32} {j : Nat} (h : wordAt buf (j / 4) = wordAt buf' (j / 4)) :
    bufByte buf j = bufByte buf' j := by rw [bufByte, bufByte, h]

/-- The writes of KEY are the first words of the packed key. -/
theorem keyStmts_eq {bytes : List Byte} (hlen : bytes.length ≤ 128) :
    keyStmts bytes = (List.range ((bytes.length + 3) / 4)).map fun w =>
      .wr (regAccess (.keybuf w)) (wordAt (packBytes (paddedByte bytes)) w) := by
  refine List.map_congr_left fun w hw => ?_
  have hw32 : w < 32 := by
    have := List.mem_range.1 hw
    omega
  rw [packBytes, wordAt_ofFn _ hw32]
  rfl

/-- Settles O19: the writes are the words of the packed key, so a byte below their end is the packed key's. -/
theorem keyExpansionWritesKey : Obligations.KeyExpansionWritesKey := by
  intro s bytes hlen hb
  obtain ⟨buf, hfold, hwritten, hkept⟩ :=
    foldl_hostWrite_keybuf hb (packBytes (paddedByte bytes)) (n := (bytes.length + 3) / 4) (by omega)
  refine ⟨by simp [keyStmts], buf, ?_, fun j hj => ?_, hkept⟩
  · rw [keyStmts_eq hlen, List.foldl_map]
    exact hfold
  · rw [bufByte_congr (hwritten (j / 4) (by omega)), bufByte_packBytes _ (by omega)]
    rfl

end Sys2Proof.Machine
end

section
/-! ## The hash as a loop over positions, and the HASH command (40_hash_mixer.md R107 to R115) -/

namespace Sys2Proof.Machine

theorem tailWord_eq (p : Params) (x : Byte) :
    tailWord p x =
      BitVec.ofNat 32 (if p.hashTailSigned ∧ 128 ≤ x.toNat then x.toNat + 0xFFFFFF00 else x.toNat) := by
  cases h : p.hashTailSigned <;> simp [tailWord, h, sext32_eq, zext32_eq]

/-- Round `g` of the loop: the group of the bytes from position `4 * g`. -/
def groupAt (h : HashShifts) (k : Nat → Byte) (a : Word) (g : Nat) : Word :=
  hashGroup h a (k (4 * g)) (k (4 * g + 1)) (k (4 * g + 2)) (k (4 * g + 3))

/-- The first `m` rounds of the loop. -/
def groupsOf (h : HashShifts) (k : Nat → Byte) (m : Nat) (a : Word) : Word := (List.range m).foldl (groupAt h k) a

/-- The case `r` of the tail at position `q`. -/
def tailAt (p : Params) (k : Nat → Byte) (q r : Nat) (a : Word) : Word :=
  if r = 3 then hashTail3 p a (k q) (k (q + 1)) (k (q + 2))
  else if r = 2 then hashTail2 p a (k q) (k (q + 1))
  else if r = 1 then hashTail1 p a (k q)
  else a

theorem hashByLoop_eq (p : Params) (k : Nat → Byte) (n : Nat) :
    hashByLoop p k n =
      avalanche p.shifts (tailAt p k (4 * (n / 4)) (n % 4) (groupsOf p.shifts k (n / 4) (BitVec.ofNat 32 n))) := by
  simp only [hashByLoop, ← le16_eq, ← tailWord_eq]
  rfl

/-- The first round apart, the others are the rounds on the bytes from position 4 on. -/
theorem groupsOf_succ (h : HashShifts) (k : Nat → Byte) (m : Nat) (a : Word) :
    groupsOf h k (m + 1) a = groupsOf h (fun j => k (j + 4)) m (hashGroup h a (k 0) (k 1) (k 2) (k 3)) := by
  rw [groupsOf, List.range_succ_eq_map, List.foldl_cons, List.foldl_map]
  rfl

/-- The recursion over the list is the loop over its positions. -/
theorem hashBody_eq (p : Params) (a : Word) (l : List Byte) :
    hashBody p a l = tailAt p (paddedByte l) (4 * (l.length / 4)) (l.length % 4)
      (groupsOf p.shifts (paddedByte l) (l.length / 4) a) := by
  induction a, l using hashBody.induct p with
  | case1 a b0 b1 b2 b3 rest ih =>
    have hlen : (b0 :: b1 :: b2 :: b3 :: rest).length = rest.length + 4 := rfl
    rw [hashBody, ih, hlen, Nat.add_div_right _ four_pos, Nat.add_mod_right, groupsOf_succ]
    rfl
  | case2 | case3 | case4 | case5 => simp [hashBody, tailAt, groupsOf, paddedByte]

/-- Settles O33, by induction on the key along the recursion of the model's hash. -/
theorem hashIsTheLoopOfTheRule : Obligations.HashIsTheLoopOfTheRule := by
  intro p k
  rw [hashByLoop_eq, keyHash, hashBody_eq]
  rfl

theorem exec_hash_of_fits {n : Nat} {s : State} (hn : n ≤ s.params.maxKeyLen) :
    exec (.hash n) s = .next (complete false
      { s with
        resHash := keyHash s.params (keyOf s n)
        resHome := indexWord (keyHome s.params (keyOf s n)) }) := by
  rcases execHash_cases n s with ⟨hlt, -⟩ | ⟨-, h⟩
  · omega
  · exact h

theorem Status.completed_false (f : Status) : f.completed false = { f with busy := false, done := true } := by
  simp [Status.completed]

/-- Settles O32: the success of HASH, its completion written out. -/
theorem hashResult : Obligations.HashResult := by
  intro n s hn
  rw [exec_hash_of_fits hn, complete, Status.completed_false]
  rfl

theorem keyOf_congr {s t : State} {n : Nat} (h : ∀ j < n, bufByte s.keybuf j = bufByte t.keybuf j) :
    keyOf s n = keyOf t n :=
  List.map_congr_left fun j hj => h j (List.mem_range.1 hj)

/-- Settles O34: both results are functions of the parameters and the key, which the two states share. -/
theorem hashDependsOnKeyOnly : Obligations.HashDependsOnKeyOnly := by
  intro n s t u v hp hk hu hv hn
  rw [exec_hash_of_fits hn] at hu
  rw [exec_hash_of_fits (hp ▸ hn), ← hp, ← keyOf_congr hk] at hv
  cases hu
  cases hv
  exact ⟨rfl, rfl⟩

theorem avalanche_zero (h : HashShifts) : avalanche h 0 = 0 := by simp [avalanche]

theorem keyHash_nil (p : Params) : keyHash p [] = 0 := avalanche_zero _

/-- The length 1 and the signed tail byte -1 cancel, and the tail step keeps 0 (40_hash_mixer.md R115). -/
theorem keyHash_ff_of_signed {p : Params} (hp : p.hashTailSigned = true) : keyHash p [0xFF#8] = 0 := by
  have hcancel : 1#32 + tailWord p 0xFF#8 = 0 := by
    rw [tailWord, if_pos hp]
    decide
  have htail : hashTail1 p 1#32 0xFF#8 = 0 := by simp [hashTail1, hcancel]
  exact (congrArg (avalanche p.shifts) htail).trans (avalanche_zero _)

/-- Settles O35: 0 is a fixed point of the avalanche; the unsigned value of 0xFF is computed. -/
theorem zeroHashes : Obligations.ZeroHashes :=
  ⟨fun p => ⟨keyHash_nil p, by rw [keyHome, keyHash_nil]; exact Nat.zero_mod _⟩, fun _ => keyHash_ff_of_signed,
    by decide⟩

end Sys2Proof.Machine
end

section
/-! ## The probe sequence as arithmetic (41_table_lookup.md R121, R122, R128 to R130) -/

namespace Sys2Proof.Machine

@[simp] theorem probeOffset_two_mul (q : Nat) : probeOffset (2 * q) = (q : Int) ^ 2 := by
  simp [probeOffset, sq]

@[simp] theorem probeOffset_two_mul_add_one (q : Nat) : probeOffset (2 * q + 1) = -(q : Int) ^ 2 := by
  have hhalf : (2 * q + 1) / 2 = q := by omega
  simp [probeOffset, hhalf, sq]

/-- After attempt 0, which repeats the offset of attempt 1, no offset comes twice (41_table_lookup.md R128, R129). -/
theorem probeOffset_injOn : Set.InjOn probeOffset {i | 1 ≤ i} := by
  intro i (hi : 1 ≤ i) j (hj : 1 ≤ j) h
  obtain ⟨q, rfl | rfl⟩ := i.even_or_odd' <;> obtain ⟨r, rfl | rfl⟩ := j.even_or_odd' <;>
    simp only [probeOffset_two_mul, probeOffset_two_mul_add_one] at h
  · have hqr : q = r := by simpa [sq_eq_sq₀] using h
    rw [hqr]
  · have hq : 1 ≤ (q : Int) := by omega
    nlinarith
  · have hr : 1 ≤ (r : Int) := by omega
    nlinarith
  · have hqr : q = r := by simpa [sq_eq_sq₀] using h
    rw [hqr]

/-- The farthest of the first 64 attempts is 31 squared from home (41_table_lookup.md R129). -/
theorem probeOffset_bounds {i : Nat} (hi : i < 64) : -961 ≤ probeOffset i ∧ probeOffset i ≤ 961 := by
  obtain ⟨q, hq⟩ := i.even_or_odd'
  have hq31 : (q : Int) ≤ 31 := by omega
  have hsq : (q : Int) ^ 2 ≤ 31 ^ 2 := by gcongr
  have hpos : 0 ≤ (q : Int) ^ 2 := sq_nonneg _
  rcases hq with rfl | rfl
  · rw [probeOffset_two_mul]
    constructor <;> linarith
  · rw [probeOffset_two_mul_add_one]
    constructor <;> linarith

theorem probe_cast {p : Params} (hc : 1 ≤ p.capacity) (home i : Nat) :
    (probe p home i : Int) = ((home : Int) + probeOffset i) % (p.capacity : Int) :=
  Int.toNat_of_nonneg (Int.emod_nonneg _ (by omega))

/-- The probed index is the one index of the table that is home plus offset up to a multiple of CAPACITY. -/
theorem probe_eq_iff {p : Params} {home i b : Nat} (hb : b < p.capacity) :
    probe p home i = b ↔ ∃ z : Int, (home : Int) + probeOffset i = b + z * p.capacity := by
  rw [← Int.natCast_inj, probe_cast (by omega)]
  constructor
  · intro h
    exact ⟨((home : Int) + probeOffset i) / p.capacity, by rw [← h, Int.emod_add_ediv_mul]⟩
  · rintro ⟨z, hz⟩
    rw [hz, Int.add_mul_emod_self_right, Int.emod_eq_of_lt (by omega) (by omega)]

/-- Settles O36: the index is the remainder, and each wrap is off by CAPACITY once. -/
theorem probedIndexInTable : Obligations.ProbedIndexInTable := by
  refine ⟨fun p home i hc => ⟨probe_lt p home i hc, ?_⟩, fun p hc => ?_, fun p hc => ?_⟩
  · obtain ⟨z, hz⟩ := (probe_eq_iff (probe_lt p home i hc)).1 rfl
    exact ⟨z, by simpa [probeOffset, sq] using hz⟩
  · have hoff : probeOffset 3 = -1 := rfl
    exact (probe_eq_iff (by omega)).2 ⟨-1, by omega⟩
  · have hoff : probeOffset 2 = 1 := rfl
    exact (probe_eq_iff (by omega)).2 ⟨1, by omega⟩

/-- In a table wider than the whole span of offsets no two attempts after attempt 0 meet (41_table_lookup.md R129). -/
theorem probe_injOn {p : Params} (hc : 1922 < p.capacity) (home : Nat) :
    Set.InjOn (probe p home) (Finset.Ico 1 64) := by
  intro i hi j hj h
  obtain ⟨hi1, hi64⟩ := Finset.mem_Ico.1 hi
  obtain ⟨hj1, hj64⟩ := Finset.mem_Ico.1 hj
  have hmod : (home : Int) + probeOffset j ≡ home + probeOffset i [ZMOD p.capacity] := by
    rw [Int.ModEq, ← probe_cast (by omega), ← probe_cast (by omega), h]
  have hbi := probeOffset_bounds hi64
  have hbj := probeOffset_bounds hj64
  have hdiff : (p.capacity : Int) ∣ probeOffset i - probeOffset j := by simpa using hmod.dvd
  have hzero := Int.eq_zero_of_abs_lt_dvd hdiff (by rw [abs_lt]; omega)
  exact probeOffset_injOn hi1 hj1 (by omega)

theorem probe_zero_and_one {p : Params} {home : Nat} (hh : home < p.capacity) :
    probe p home 0 = home ∧ probe p home 1 = home :=
  ⟨(probe_eq_iff hh).2 ⟨0, by simp [probeOffset]⟩, (probe_eq_iff hh).2 ⟨0, by simp [probeOffset]⟩⟩

/-- Attempt 0 adds no bucket to those of the attempts from 1 on. -/
theorem toFinset_map_probe {p : Params} {home : Nat} (hh : home < p.capacity) :
    ((List.range 64).map (probe p home)).toFinset = (Finset.Ico 1 64).image (probe p home) := by
  obtain ⟨h0, h1⟩ := probe_zero_and_one hh
  ext b
  simp only [List.mem_toFinset, List.mem_map, List.mem_range, Finset.mem_image, Finset.mem_Ico]
  constructor
  · rintro ⟨i, hi, rfl⟩
    cases i with
    | zero => exact ⟨1, by omega, h1.trans h0.symm⟩
    | succ i => exact ⟨i + 1, by omega, rfl⟩
  · rintro ⟨i, hi, rfl⟩
    exact ⟨i, hi.2, rfl⟩

/-- Settles O37: the offsets after attempt 0 are distinct and within the span; the small tables are computed. -/
theorem probeCoverage : Obligations.ProbeCoverage := by
  refine ⟨fun p home hh => probe_zero_and_one hh, fun p home hc hh => ?_, fun p home i hc hi => ?_,
    by decide, by decide, by decide, by decide, by decide⟩
  · rw [toFinset_map_probe hh, Finset.card_image_of_injOn (probe_injOn hc home), Nat.card_Ico]
  · obtain ⟨hlo, hhi⟩ := probeOffset_bounds hi
    exact ⟨probeOffset i, hlo, hhi, probe_cast hc home i⟩

end Sys2Proof.Machine
end

section
/-! ## FIND at the first stop of its probe, and findOrInsert of a stored key (41_table_lookup.md R123 to R135) -/

namespace Sys2Proof.Machine

/-- The first stop in terms of KEYBUF: attempt `i` is reached and finds an empty bucket or the key. -/
theorem firstStop_of_probeReaches {s : State} {n i : Nat} (hi : i < s.params.probeLimit) (hr : ProbeReaches s n i)
    (hs : ¬ occupiedAt s.table (attemptBucket s n i) ∨ HoldsKeybuf s n (attemptBucket s n i)) :
    firstStop s.params s.table (keyOf s n) (keyHome s.params (keyOf s n)) = some i := by
  refine (firstStop_eq_some_iff _ _ _ _ _).2 ⟨hi, (stopsAt_iff _ _ _ _ _).2 ?_, fun j hj => ?_⟩
  · exact hs.imp_right (storedKey_eq_keyOf_iff s n _).2
  · exact (stopsAt_false_iff s n j).2 (hr j hj)

/-- What findOrInsert answers with the first stop of its probe at attempt `i`, on an empty bucket (41_table_lookup.md R123). -/
def claimAt (s : State) (n i : Nat) : Found :=
  { hash := keyHash s.params (keyOf s n), home := keyHome s.params (keyOf s n), bucket := attemptBucket s n i
    attempt := i, claimed := true
    table := s.table.write (attemptBucket s n i) (claimed (s.table.read (attemptBucket s n i)) (keyOf s n)) }

/-- What findOrInsert answers with the first stop of its probe at attempt `i`, on the key's bucket (41_table_lookup.md R124). -/
def matchAt (s : State) (n i : Nat) : Found :=
  { hash := keyHash s.params (keyOf s n), home := keyHome s.params (keyOf s n), bucket := attemptBucket s n i
    attempt := i, claimed := false, table := s.table }

theorem findOrInsert_eq_claimAt {s : State} {n i : Nat} (h0 : 1 ≤ n) (hn : n ≤ s.params.maxKeyLen)
    (hi : i < s.params.probeLimit) (hr : ProbeReaches s n i) (he : ¬ occupiedAt s.table (attemptBucket s n i)) :
    findOrInsert s n = .ok (claimAt s n i) := by
  have hstop := firstStop_of_probeReaches hi hr (.inl he)
  rw [findOrInsert_of_ok (by omega) hn]
  rcases findOrInsertKey_cases s.params s.table (keyOf s n) with ⟨h, -⟩ | ⟨j, h, -, hf⟩ | ⟨j, h, ho, -, -⟩ <;>
    rw [hstop] at h <;> cases h
  · exact hf
  · exact absurd ho he

theorem findOrInsert_eq_matchAt {s : State} {n i : Nat} (h0 : 1 ≤ n) (hn : n ≤ s.params.maxKeyLen)
    (hi : i < s.params.probeLimit) (hr : ProbeReaches s n i) (hk : HoldsKeybuf s n (attemptBucket s n i)) :
    findOrInsert s n = .ok (matchAt s n i) := by
  have hstop := firstStop_of_probeReaches hi hr (.inr hk)
  rw [findOrInsert_of_ok (by omega) hn]
  rcases findOrInsertKey_cases s.params s.table (keyOf s n) with ⟨h, -⟩ | ⟨j, h, he, -⟩ | ⟨j, h, -, -, hf⟩ <;>
    rw [hstop] at h <;> cases h
  · have hlen : (s.table.read (attemptBucket s n i)).length = n := hk.1
    exact absurd (hlen.symm.trans he) (by omega)
  · exact hf

/-- FIND with its completion written out. -/
theorem exec_find_of_ok {s : State} {n : Nat} {f : Found} (hf : findOrInsert s n = .ok f) :
    exec (.find n) s = .next
      { s with
        table := f.table
        resHash := f.hash
        resHome := indexWord f.home
        resIdx := indexWord f.bucket
        resCount := (f.table.read f.bucket).count
        resInfo := resInfoWord n (!f.claimed) f.claimed (f.attempt + 1)
        status := { s.status with busy := false, done := true }
        pending := none } := by
  rcases execFind_cases n s with ⟨e, he, -⟩ | ⟨g, hg, hx⟩
  · rw [hf] at he; cases he
  · rw [hf] at hg; cases hg
    rw [exec, hx, complete, Status.completed_false]

theorem claimAt_read_bucket (s : State) {n : Nat} (h0 : 1 ≤ n) (i : Nat) :
    (claimAt s n i).table.read (attemptBucket s n i) =
      claimed (s.table.read (attemptBucket s n i)) (keyOf s n) :=
  Memory.read_write_self _ _ (claimed_ne_empty _ (keyOf_ne_nil s (by omega)))

/-- Settles O38: findOrInsert claims at its first stop, and the table it leaves reads as the claim. -/
theorem findClaimsEmptyBucket : Obligations.FindClaimsEmptyBucket := by
  intro s n i hp h0 hn hi hr he
  obtain ⟨-, -, -, hmax, -⟩ := paramsLegal_bounds hp
  have hread := claimAt_read_bucket s h0 i
  refine ⟨(claimAt s n i).table, ?_, ?_, ?_, fun j hj => ?_, fun j hj => ?_, fun c hc => ?_⟩
  · have hcount : ((claimAt s n i).table.read (attemptBucket s n i)).count = 0 := by rw [hread, claimed_count]
    rw [exec_find_of_ok (findOrInsert_eq_claimAt h0 hn hi hr he), ← hcount]
    rfl
  · rw [hread, claimed_length, keyOf_length]
  · rw [hread, claimed_count]
  · rw [hread, claimed_byteAt_lt _ _ (by simpa using hj) (by omega), keyOf_getElem]
  · rw [hread, claimed_byteAt_ge _ _ (by simpa using hj)]
  · exact Memory.read_write_other _ _ hc

/-- Settles O39: findOrInsert matches at its first stop. -/
theorem findReturnsMatchingBucket : Obligations.FindReturnsMatchingBucket := by
  intro s n i h0 hn hi hr hk
  rw [exec_find_of_ok (findOrInsert_eq_matchAt h0 hn hi hr hk)]
  rfl

/-- The probe for a stored key stops, and never on an empty bucket: the way to the key's bucket is occupied
(41_table_lookup.md R131). -/
theorem TableInv.findOrInsertKey_keyAt {p : Params} {m : Memory} (h : TableInv p m) {b : Nat} (hb : occupiedAt m b) :
    ∃ f, findOrInsertKey p m (keyAt m b) = .ok f ∧ f.bucket = b ∧ f.claimed = false ∧ f.table = m := by
  obtain ⟨i, hi, hprobe, hway⟩ := h.onOwnProbeSequence b hb
  have hstop : stopsAt p m (keyAt m b) (keyHome p (keyAt m b)) i = true :=
    (stopsAt_iff _ _ _ _ _).2 (.inr (by rw [hprobe]))
  rcases findOrInsertKey_cases p m (keyAt m b) with ⟨hnone, -⟩ | ⟨j, hj, he, -⟩ | ⟨j, -, ho, hkey, hf⟩
  · simp [(firstStop_eq_none_iff _ _ _ _).1 hnone i hi] at hstop
  · obtain ⟨-, -, hbefore⟩ := (firstStop_eq_some_iff _ _ _ _ _).1 hj
    rcases lt_trichotomy j i with hlt | rfl | hgt
    · exact absurd he (hway j hlt)
    · exact absurd (hprobe ▸ he) hb
    · simp [hbefore i hgt] at hstop
  · exact ⟨_, hf, h.noTwoEqualKeys _ _ ho hb hkey, rfl, rfl⟩

/-- A claim stores the key, and a match found it stored (41_table_lookup.md R135). -/
theorem keyAt_of_findOrInsertKey {p : Params} {m : Memory} {k : List Byte} {f : Found} (hk : k ≠ [])
    (h128 : k.length ≤ 128) (hf : findOrInsertKey p m k = .ok f) : keyAt f.table f.bucket = k := by
  rcases findOrInsertKey_cases p m k with ⟨-, h⟩ | ⟨i, -, -, h⟩ | ⟨i, -, -, hkey, h⟩ <;> rw [h] at hf <;> cases hf
  · rw [keyAt, Memory.read_write_self _ _ (claimed_ne_empty _ hk), claimed_storedKey _ h128]
  · exact hkey

/-- Settles O54: the probe for a stored key ends on its bucket, and a success returns an occupied bucket with its key. -/
theorem storedKeyIsFoundInItsBucket : Obligations.StoredKeyIsFoundInItsBucket :=
  ⟨fun _ _ _ h hb => h.findOrInsertKey_keyAt hb,
    fun _ _ _ _ hk h128 hf => ⟨keyAt_of_findOrInsertKey hk h128 hf, findOrInsertKey_occupied hk hf⟩⟩

end Sys2Proof.Machine
end

section
/-! ## The counter: an increment, and INCR and COUNT by what they find (42_counter.md R140 to R144) -/

namespace Sys2Proof.Machine

theorem countOverflows_eq (c : Word) : countOverflows c = decide (c = 0xFFFFFFFF) := rfl

/-- The increment as 42_counter.md R141 writes it. -/
theorem incCount_eq (c : Word) (sat : Bool) :
    incCount c sat = if c = 0xFFFFFFFF then (if sat then 0xFFFFFFFF else 0x00000000) else c + 1 := by
  simp [incCount, countOverflows_eq]

/-- Below the top the mode does not matter (42_counter.md R148). -/
theorem incCount_of_not_overflows {c : Word} (h : countOverflows c = false) (sat : Bool) : incCount c sat = c + 1 := by
  simp [incCount, h]

theorem incBucket_of_not_overflows {m : Memory} {b : Nat} (h : countOverflows (m.read b).count = false) (sat : Bool) :
    incBucket m b sat = m.write b { m.read b with count := (m.read b).count + 1 } := by
  rw [incBucket, incCount_of_not_overflows h]

theorem exec_incr_of_occupied {s : State} {idx : Nat} (hidx : idx < s.params.capacity) (hocc : occupiedAt s.table idx) :
    exec (.incr idx) s = .next (complete (countOverflows (s.table.read idx).count)
      { s with
        table := incBucket s.table idx (sampledSat s)
        resIdx := indexWord idx
        resCount := incCount (s.table.read idx).count (sampledSat s)
        resInfo := resInfoWord (s.table.read idx).length false false 0 }) := by
  rcases execIncr_cases idx s with ⟨hcap | hempty, -⟩ | ⟨-, -, h⟩
  · omega
  · exact absurd hempty hocc
  · exact h

theorem exec_incr_of_not_occupied {s : State} {idx : Nat} (h : ¬ (idx < s.params.capacity ∧ occupiedAt s.table idx)) :
    exec (.incr idx) s = .next (raise .badIndex s) := by
  rcases execIncr_cases idx s with ⟨-, hx⟩ | ⟨hidx, hocc, -⟩
  · exact hx
  · exact absurd ⟨hidx, hocc⟩ h

theorem exec_count_of_ok {s : State} {n : Nat} {f : Found} (hf : findOrInsert s n = .ok f) :
    exec (.count n) s = .next (complete (countOverflows (f.table.read f.bucket).count)
      { s with
        table := incBucket f.table f.bucket (sampledSat s)
        resHash := f.hash
        resHome := indexWord f.home
        resIdx := indexWord f.bucket
        resCount := incCount (f.table.read f.bucket).count (sampledSat s)
        resInfo := resInfoWord n (!f.claimed) f.claimed (f.attempt + 1) }) := by
  rw [exec, execCount, hf]

theorem exec_count_of_error {s : State} {n : Nat} {e : CmdError} (hf : findOrInsert s n = .error e) :
    exec (.count n) s = .next (raise e s) := by
  rw [exec, execCount, hf]

theorem sampledSat_of_pending {s : State} {p : Pending} (h : s.pending = some p) : sampledSat s = p.sat := by
  rw [sampledSat, h]

/-- Settles O40: findOrInsert claims at its first stop, and the increment of the claim's count 0 gives 1 in either mode. -/
theorem countClaimsWithCountOne : Obligations.CountClaimsWithCountOne := by
  intro s n i hp h0 hn hi hr he
  obtain ⟨-, -, -, hmax, -⟩ := paramsLegal_bounds hp
  have hclaim := claimAt_read_bucket s h0 i
  have hone (sat : Bool) : incCount 0 sat = 1 := incCount_of_not_overflows rfl sat
  have hread : (incBucket (claimAt s n i).table (attemptBucket s n i) (sampledSat s)).read (attemptBucket s n i) =
      { claimed (s.table.read (attemptBucket s n i)) (keyOf s n) with count := 1 } := by
    rw [read_incBucket_self _ _ _ (by rw [hclaim, claimed_length, keyOf_length]; omega), hclaim, claimed_count, hone]
  refine ⟨incBucket (claimAt s n i).table (attemptBucket s n i) (sampledSat s), ?_, ?_, ?_, fun j hj => ?_,
    fun j hj => ?_, fun c hc => ?_⟩
  · have hcount : ((claimAt s n i).table.read (claimAt s n i).bucket).count = 0 := congrArg Bucket.count hclaim
    rw [exec_count_of_ok (findOrInsert_eq_claimAt h0 hn hi hr he), hcount, hone, complete,
      show countOverflows 0 = false from rfl, Status.completed_false]
    rfl
  · exact (congrArg Bucket.length hread).trans (keyOf_length s n)
  · exact congrArg Bucket.count hread
  · rw [hread]
    exact (claimed_byteAt_lt _ _ (by simpa using hj) (by omega)).trans (keyOf_getElem s n j _)
  · rw [hread]
    exact claimed_byteAt_ge _ _ (by simpa using hj)
  · exact (read_incBucket_other _ _ _ hc).trans (Memory.read_write_other _ _ hc)

/-- Settles O41: findOrInsert matches at its first stop, and the increment changes that bucket's count alone. -/
theorem countIncrementsMatchingBucket : Obligations.CountIncrementsMatchingBucket := by
  intro s n i w sat hlatch h0 hn hi hr hk
  have hocc : occupiedAt s.table (attemptBucket s n i) := by
    rw [occupiedAt, hk.1]
    omega
  refine ⟨incBucket s.table (attemptBucket s n i) sat, _, rfl, ?_, ?_, fun b hb => read_incBucket_other _ _ _ hb⟩
  · rw [exec_count_of_ok (findOrInsert_eq_matchAt h0 hn hi hr hk), sampledSat_of_pending hlatch, incCount_eq]
    rfl
  · rw [read_incBucket_self _ _ _ hocc, incCount_eq]

/-- Settles O42: the increment changes the bucket's count alone. -/
theorem incrResult : Obligations.IncrResult := by
  intro s idx w sat hlatch hidx hocc
  refine ⟨incBucket s.table idx sat, _, rfl, ?_, ?_, fun b hb => read_incBucket_other _ _ _ hb⟩
  · rw [exec_incr_of_occupied hidx hocc, sampledSat_of_pending hlatch, incCount_eq, resInfoWord_length_only]
    rfl
  · rw [read_incBucket_self _ _ _ hocc, incCount_eq]

/-- An INCR that leaves CNT_OVF at 0 was below the top. -/
theorem below_top_of_incr {s t : State} {idx : Nat} (hx : exec (.incr idx) s = .next t) (ht : t.status.cntOvf = false)
    (hidx : idx < s.params.capacity) (hocc : occupiedAt s.table idx) :
    countOverflows (s.table.read idx).count = false := by
  rw [exec_incr_of_occupied hidx hocc] at hx
  cases hx
  exact (Bool.or_eq_false_iff.1 ht).2

/-- A COUNT that leaves CNT_OVF at 0 was below the top. -/
theorem below_top_of_count {s t : State} {n : Nat} (hx : exec (.count n) s = .next t) (ht : t.status.cntOvf = false)
    {f : Found} (hf : findOrInsert s n = .ok f) : countOverflows (f.table.read f.bucket).count = false := by
  rw [exec_count_of_ok hf] at hx
  cases hx
  exact (Bool.or_eq_false_iff.1 ht).2

/-- Below the top INCR does not depend on what the latch has sampled. -/
theorem exec_incr_of_below_top {s : State} {idx : Nat} (p q : Pending)
    (h : idx < s.params.capacity → occupiedAt s.table idx → countOverflows (s.table.read idx).count = false) :
    exec (.incr idx) { s with pending := some p } = exec (.incr idx) { s with pending := some q } := by
  by_cases hok : idx < s.params.capacity ∧ occupiedAt s.table idx
  · obtain ⟨hidx, hocc⟩ := hok
    have hbelow := h hidx hocc
    have hsuccess (r : Pending) := exec_incr_of_occupied (s := { s with pending := some r }) hidx hocc
    simp only [incBucket_of_not_overflows hbelow, incCount_of_not_overflows hbelow] at hsuccess
    exact (hsuccess p).trans (hsuccess q).symm
  · have hraise (r : Pending) := exec_incr_of_not_occupied (s := { s with pending := some r }) hok
    exact (hraise p).trans (hraise q).symm

/-- Below the top COUNT does not depend on what the latch has sampled. -/
theorem exec_count_of_below_top {s : State} {n : Nat} (p q : Pending)
    (h : ∀ f, findOrInsert s n = .ok f → countOverflows (f.table.read f.bucket).count = false) :
    exec (.count n) { s with pending := some p } = exec (.count n) { s with pending := some q } := by
  cases hf : findOrInsert s n with
  | error e =>
    have hraise (r : Pending) := exec_count_of_error (s := { s with pending := some r }) hf
    exact (hraise p).trans (hraise q).symm
  | ok f =>
    have hbelow := h f hf
    have hsuccess (r : Pending) := exec_count_of_ok (s := { s with pending := some r }) hf
    simp only [incBucket_of_not_overflows hbelow, incCount_of_not_overflows hbelow] at hsuccess
    exact (hsuccess p).trans (hsuccess q).symm

/-- Settles O52: only INCR and COUNT read the mode, and without CNT_OVF their increment was below the top. -/
theorem counterModesAgreeBelowTop : Obligations.CounterModesAgreeBelowTop := by
  intro i s t w _ hx ht
  cases i with
  | incr idx => exact (exec_incr_of_below_top _ _ (below_top_of_incr hx ht)).trans hx
  | count n => exact (exec_count_of_below_top _ _ fun _ => below_top_of_count hx ht).trans hx
  | _ => exact hx

end Sys2Proof.Machine
end

section
/-! ## COUNT one command after another (42_counter.md R145, R146) -/

namespace Sys2Proof.Machine

/-- COUNT from its acceptance, with findOrInsert's answer known. -/
theorem runCommand_count_of_ok {s : State} {n : Nat} {f : Found} (hf : findOrInsert s n = .ok f) :
    runCommand (.count n) s = .next (complete (countOverflows (f.table.read f.bucket).count)
      { accept (encode (.count n)) s with
        table := incBucket f.table f.bucket s.ctrl.cntSat
        resHash := f.hash
        resHome := indexWord f.home
        resIdx := indexWord f.bucket
        resCount := incCount (f.table.read f.bucket).count s.ctrl.cntSat
        resInfo := resInfoWord n (!f.claimed) f.claimed (f.attempt + 1) }) :=
  exec_count_of_ok (s := accept (encode (.count n)) s) hf

/-- What FIND leaves from its acceptance, with findOrInsert's answer known. -/
theorem runCommand_find_of_ok {s : State} {n : Nat} {f : Found} (hf : findOrInsert s n = .ok f) :
    ∃ u, runCommand (.find n) s = .next u ∧ u.status.err = false ∧ u.params = s.params ∧ u.ctrl = s.ctrl ∧
      u.table = f.table ∧ u.resIdx = indexWord f.bucket ∧ u.resHash = f.hash ∧ u.resHome = indexWord f.home :=
  ⟨_, exec_find_of_ok (s := accept (encode (.find n)) s) hf, rfl, rfl, rfl, rfl, rfl, rfl, rfl⟩

/-- INCR of an occupied bucket from its acceptance. -/
theorem runCommand_incr_of_occupied {s : State} {idx : Nat} (hidx : idx < s.params.capacity)
    (hocc : occupiedAt s.table idx) :
    runCommand (.incr idx) s = .next (complete (countOverflows (s.table.read idx).count)
      { accept (encode (.incr idx)) s with
        table := incBucket s.table idx s.ctrl.cntSat
        resIdx := indexWord idx
        resCount := incCount (s.table.read idx).count s.ctrl.cntSat
        resInfo := resInfoWord (s.table.read idx).length false false 0 }) :=
  exec_incr_of_occupied (s := accept (encode (.incr idx)) s) hidx hocc

/-- A COUNT that ends without an error has found or claimed a bucket. -/
theorem findOrInsert_ok_of_count_succeeds {n : Nat} {s t : State} (h : runCommand (.count n) s = .next t)
    (herr : t.status.err = false) : ∃ f, findOrInsert s n = .ok f := by
  cases hf : findOrInsert s n with
  | ok f => exact ⟨f, rfl⟩
  | error e =>
    have hraise : runCommand (.count n) s = .next (raise e (accept (encode (.count n)) s)) := exec_count_of_error hf
    rw [hraise] at h
    cases h
    simp at herr

/-- Settles O51: FIND leaves findOrInsert's table and bucket, which INCR then increments as COUNT does. -/
theorem countIsFindThenIncr : Obligations.CountIsFindThenIncr := by
  intro n s t hp ht herr
  obtain ⟨f, hf⟩ := findOrInsert_ok_of_count_succeeds ht herr
  obtain ⟨-, h0, hfk⟩ := findOrInsert_ok hf
  obtain ⟨hbucket, -, -⟩ := findOrInsertKey_bucket_lt (paramsLegal_bounds hp).1 hfk
  have hocc : occupiedAt f.table f.bucket := findOrInsertKey_occupied (keyOf_ne_nil s h0) hfk
  rw [runCommand_count_of_ok hf] at ht
  cases ht
  obtain ⟨u, hu, huerr, hparams, hctrl, htable, hresIdx, hhash, hhome⟩ := runCommand_find_of_ok hf
  have hidx : u.resIdx.toNat = f.bucket := by rw [hresIdx, indexWord_toNat hp hbucket]
  have hincr := runCommand_incr_of_occupied (s := u) (idx := u.resIdx.toNat) (by rwa [hparams, hidx])
    (by rwa [htable, hidx])
  refine ⟨u, _, hu, huerr, hincr, rfl, ?_, ?_, ?_, hhash, hhome⟩
  all_goals simp [hidx, htable, hctrl]

/-- The count of a bucket after `k` COUNTs from 0: `k` modulo 2^32 under wraparound, `k` up to 0xFFFFFFFF under
saturating. `incCount_countAfter` ties it to the increment. -/
def countAfter (sat : Bool) (k : Nat) : Word :=
  if sat then BitVec.ofNat 32 (min k 0xFFFFFFFF) else BitVec.ofNat 32 k

theorem countAfter_zero (sat : Bool) : countAfter sat 0 = 0 := by cases sat <;> rfl

theorem incCount_countAfter (sat : Bool) (k : Nat) : incCount (countAfter sat k) sat = countAfter sat (k + 1) := by
  rw [incCount_eq]
  cases sat with
  | false =>
    have hsucc : countAfter false (k + 1) = countAfter false k + 1 := BitVec.ofNat_add k 1
    rw [hsucc]
    split
    · next htop => rw [htop]; rfl
    · rfl
  | true =>
    by_cases hk : k < 0xFFFFFFFF
    · have hmin : min k 0xFFFFFFFF = k := by omega
      have hmin' : min (k + 1) 0xFFFFFFFF = k + 1 := by omega
      have hne : BitVec.ofNat 32 k ≠ 0xFFFFFFFF := by bv_omega
      simp only [countAfter, if_true, hmin, hmin', if_neg hne]
      exact (BitVec.ofNat_add k 1).symm
    · have hmin : min k 0xFFFFFFFF = 0xFFFFFFFF := by omega
      have hmin' : min (k + 1) 0xFFFFFFFF = 0xFFFFFFFF := by omega
      simp only [countAfter, if_true, hmin, hmin']
      rfl

/-- `n` bytes of KEYBUF are the key of bucket `b`, which `k` COUNTs in the mode `sat` have counted from 0, the last of
them without an error and at `b`. -/
structure Counted (n b : Nat) (sat : Bool) (k : Nat) (s : State) : Prop where
  legal : paramsLegal s.params = true
  table : TableInv s.params s.table
  occupied : occupiedAt s.table b
  key : keyAt s.table b = keyOf s n
  mode : s.ctrl.cntSat = sat
  count : (s.table.read b).count = countAfter sat k
  err : s.status.err = false
  idx : s.resIdx = indexWord b

/-- One more COUNT, whether findOrInsert has claimed the bucket or matched it. -/
theorem counted_of_findOrInsert {s : State} {n k : Nat} {f : Found} (hp : paramsLegal s.params = true)
    (h : TableInv s.params s.table) (hf : findOrInsert s n = .ok f)
    (hcount : (f.table.read f.bucket).count = countAfter s.ctrl.cntSat k) :
    ∃ t, runCommand (.count n) s = .next t ∧ Counted n f.bucket s.ctrl.cntSat (k + 1) t := by
  obtain ⟨hn, h0, hfk⟩ := findOrInsert_ok hf
  have hne := keyOf_ne_nil s h0
  have hlen : (keyOf s n).length ≤ s.params.maxKeyLen := by simpa using hn
  obtain ⟨-, -, -, h128, -⟩ := paramsLegal_bounds hp
  have hocc : occupiedAt f.table f.bucket := findOrInsertKey_occupied hne hfk
  have hread := read_incBucket_self f.table f.bucket s.ctrl.cntSat hocc
  obtain ⟨hlen', hkey⟩ := (KeepsKeys.refl f.table).incBucket hocc s.ctrl.cntSat f.bucket hocc
  refine ⟨_, runCommand_count_of_ok hf, hp, (h.findOrInsert hp hne hlen hfk).incBucket hocc _, ?_, ?_, rfl, ?_, rfl, rfl⟩
  · exact hlen'.trans_ne hocc
  · exact hkey.trans (keyAt_of_findOrInsertKey hne (hlen.trans h128) hfk)
  · exact (congrArg Bucket.count hread).trans (hcount ▸ incCount_countAfter _ _)

/-- COUNT of the key of an occupied bucket counts it once more (41_table_lookup.md R131). -/
theorem Counted.count_again {n b k : Nat} {sat : Bool} {s : State} (h : Counted n b sat k s) :
    ∃ t, runCommand (.count n) s = .next t ∧ Counted n b sat (k + 1) t := by
  obtain ⟨f, hfk, rfl, -, htable⟩ := h.table.findOrInsertKey_keyAt h.occupied
  have hlen : (s.table.read f.bucket).length = n := by simpa [keyAt] using congrArg List.length h.key
  have hf : findOrInsert s n = .ok f := by
    rw [findOrInsert_of_ok (hlen ▸ h.occupied) (hlen ▸ h.table.lengthBound _), ← h.key, hfk]
  have hmode := h.mode
  subst hmode
  exact counted_of_findOrInsert h.legal h.table hf (htable ▸ h.count)

theorem Counted.count_repeatedly {n b k : Nat} {sat : Bool} {s : State} (h : Counted n b sat k s) (j : Nat) :
    ∃ t, repeatCommand (.count n) j s = .next t ∧ Counted n b sat (k + j) t := by
  induction j generalizing s k with
  | zero => exact ⟨s, rfl, h⟩
  | succ j ih =>
    obtain ⟨u, hu, hcounted⟩ := h.count_again
    obtain ⟨t, ht, ht'⟩ := ih hcounted
    refine ⟨t, ?_, by rwa [Nat.add_comm j, ← Nat.add_assoc]⟩
    rw [repeatCommand, hu]
    exact ht

/-- A claim starts the count at 0 (41_table_lookup.md R123). -/
theorem count_of_claimed {p : Params} {m : Memory} {k : List Byte} {f : Found} (hk : k ≠ [])
    (hf : findOrInsertKey p m k = .ok f) (hclaimed : f.claimed = true) : (f.table.read f.bucket).count = 0 := by
  rcases findOrInsertKey_cases p m k with ⟨-, h⟩ | ⟨i, -, -, h⟩ | ⟨i, -, -, -, h⟩ <;> rw [h] at hf <;> cases hf
  · rw [Memory.read_write_self _ _ (claimed_ne_empty _ hk), claimed_count]
  · cases hclaimed

/-- RES_INFO.CLAIMED after a COUNT (10_state.md R43). -/
theorem claimed_of_count {n : Nat} {s t : State} {f : Found} (ht : runCommand (.count n) s = .next t)
    (hf : findOrInsert s n = .ok f) (hinfo : t.resInfo.getLsbD 8 = true) : f.claimed = true := by
  rw [runCommand_count_of_ok hf] at ht
  cases ht
  obtain ⟨-, hbit, -⟩ := resInfoWord_flags n (!f.claimed) f.claimed (f.attempt + 1)
  exact hbit.symm.trans hinfo

/-- Settles O53: the first COUNT claims and counts from 0, and by induction each later one matches and counts once more. -/
theorem repeatedCountCounts : Obligations.RepeatedCountCounts := by
  intro n s t hinv ht herr hclaimed k
  obtain ⟨f, hf⟩ := findOrInsert_ok_of_count_succeeds ht herr
  obtain ⟨-, h0, hfk⟩ := findOrInsert_ok hf
  obtain ⟨hbucket, -, -⟩ := findOrInsertKey_bucket_lt (paramsLegal_bounds hinv.legal).1 hfk
  have hfresh : (f.table.read f.bucket).count = countAfter s.ctrl.cntSat 0 := by
    rw [countAfter_zero]
    exact count_of_claimed (keyOf_ne_nil s h0) hfk (claimed_of_count ht hf hclaimed)
  obtain ⟨t', ht', hfirst⟩ := counted_of_findOrInsert hinv.legal hinv.table hf hfresh
  rw [ht] at ht'
  cases ht'
  obtain ⟨u, hu, hcounted⟩ := hfirst.count_repeatedly k
  refine ⟨u, ?_, hcounted.err, hcounted.idx.trans hfirst.idx.symm, ?_⟩
  · rw [repeatCommand, ht]
    exact hu
  · rw [hcounted.idx, indexWord_toNat hinv.legal hbucket, hcounted.count, Nat.add_comm]
    rfl

end Sys2Proof.Machine
end

section
/-! ## The scan as insertions of the occupied buckets (43_topk.md R156, R162) -/

namespace Sys2Proof.Machine

/-- The scan's slots after the entries `es`, in this order, from K EMPTY slots (43_topk.md R156, R157). -/
def selectSlots (k : Nat) (es : List Slot) : List (Option Slot) :=
  es.foldl (fun l e => insertSlot e l) (List.replicate k none)

/-- Only the occupied buckets among the visited ones change the slots. -/
theorem foldl_scanStep_replicate (m : Memory) (bs : List Nat) (k : Nat) :
    bs.foldl (scanStep m) (List.replicate k none) =
      selectSlots k ((bs.filter fun b => (m.read b).occupied).map (slotOf m)) := by
  rw [selectSlots, List.foldl_map, List.foldl_filter]
  congr 1
  funext l b
  by_cases h : (m.read b).length = 0 <;> simp [scanStep, slotOf, Bucket.occupied, h]

theorem Memory.pairwise_indices {m : Memory} (hm : Memory.wf m = true) : (m.map Prod.fst).Pairwise (· < ·) := by
  induction m with
  | nil => exact .nil
  | cons c m ih =>
    obtain ⟨a, v⟩ := c
    obtain ⟨-, hlt, hwf⟩ := (Memory.wf_cons a v m).1 hm
    exact List.pairwise_cons.2 ⟨List.forall_mem_map.2 hlt, ih hwf⟩

theorem Memory.mem_indices_of_occupied {m : Memory} {b : Nat} (h : (m.read b).occupied = true) :
    b ∈ m.map Prod.fst :=
  List.mem_map_of_mem (Memory.mem_of_read_ne (ne_empty_of_length (by simpa [Bucket.occupied] using h)))

/-- The occupied buckets of a well-formed table are listed, in index order. -/
theorem filter_occupied_indices (p : Params) {m : Memory} (hm : Memory.wf m = true) :
    (((m.map Prod.fst).filter fun b => decide (b < p.capacity)).filter fun b => (m.read b).occupied) =
      occupiedBuckets p m := by
  refine List.Pairwise.eq_of_mem_iff (((Memory.pairwise_indices hm).filter _).filter _)
    (List.pairwise_lt_range.filter _) fun b => ?_
  have hlisted := @Memory.mem_indices_of_occupied m b
  simp only [occupiedBuckets, List.mem_filter, List.mem_range, decide_eq_true_eq]
  tauto

theorem scan_eq_selectSlots (p : Params) {m : Memory} (hm : Memory.wf m = true) :
    scan p m = selectSlots p.k ((occupiedBuckets p m).map (slotOf m)) := by
  rw [scan, foldl_scanStep_replicate, filter_occupied_indices p hm]

/-- Settles O45: both scans insert the occupied buckets, in index order. -/
theorem scanVisitsEveryBucket : Obligations.ScanVisitsEveryBucket := by
  intro p m hm
  rw [scan_eq_selectSlots p hm, scanAllBuckets, foldl_scanStep_replicate, occupiedBuckets]

theorem take_scanStep (m : Memory) (l : List (Option Slot)) (b k : Nat) :
    (scanStep m l b).take k = scanStep m (l.take k) b := by
  simp only [scanStep]
  split
  · rfl
  · exact take_insertSlot _ _ _

/-- Settles O48: no step of the scan moves a slot up, so that the first `k` slots depend on themselves alone. -/
theorem smallerSelectionIsInitialSlots : Obligations.SmallerSelectionIsInitialSlots := by
  intro p m k hk
  have hinit : List.replicate k (none : Option Slot) = (List.replicate p.k none).take k := by
    rw [List.take_replicate, Nat.min_eq_left hk]
  rw [scan, scan, hinit]
  exact List.foldl_hom (List.take k) fun l b => (take_scanStep m l b k).symm

end Sys2Proof.Machine
end

section
/-! ## The selection is the head of the ranking (43_topk.md R158, R159) -/

namespace Sys2Proof.Machine

/-- The first `k` entries of `r` as result slots, EMPTY slots after them (43_topk.md R156). -/
def firstSlots (k : Nat) (r : List Slot) : List (Option Slot) := (r.map some).takeD k none

@[simp] theorem firstSlots_nil (k : Nat) : firstSlots k [] = List.replicate k none := List.takeD_nil ..

@[simp] theorem firstSlots_zero (r : List Slot) : firstSlots 0 r = [] := rfl

@[simp] theorem firstSlots_cons (k : Nat) (e : Slot) (r : List Slot) :
    firstSlots (k + 1) (e :: r) = some e :: firstSlots k r :=
  rfl

theorem firstSlots_eq_append (k : Nat) (r : List Slot) :
    firstSlots k r = (r.take k).map some ++ List.replicate (k - (r.take k).length) none := by
  induction r generalizing k with
  | nil => simp
  | cons e r ih =>
    cases k with
    | zero => simp
    | succ k => simp [ih]

/-- The last slot is the one discarded. -/
theorem dropLast_firstSlots (k : Nat) (r : List Slot) : (firstSlots (k + 1) r).dropLast = firstSlots k r := by
  induction r generalizing k with
  | nil => simp
  | cons e r ih =>
    cases k with
    | zero => simp
    | succ k =>
      have hne : firstSlots (k + 1) r ≠ [] := List.cons_ne_nil _ _
      rw [firstSlots_cons, List.dropLast_cons_of_ne_nil hne, ih, firstSlots_cons]

theorem filledSlots_append (l l' : List (Option Slot)) : filledSlots (l ++ l') = filledSlots l ++ filledSlots l' :=
  List.filterMap_append

@[simp] theorem filledSlots_replicate_none (n : Nat) : filledSlots (List.replicate n none) = [] :=
  List.filterMap_replicate_of_none rfl

@[simp] theorem filledSlots_map_some (r : List Slot) : filledSlots (r.map some) = r := by
  simp only [filledSlots, List.filterMap_map, Function.id_comp, List.filterMap_some]

theorem filledSlots_firstSlots (k : Nat) (r : List Slot) : filledSlots (firstSlots k r) = r.take k := by
  rw [firstSlots_eq_append, filledSlots_append, filledSlots_map_some, filledSlots_replicate_none, List.append_nil]

/-- The place of an entry among ranked ones: before the first of a strictly smaller count (43_topk.md R157). -/
def insertRanked (b : Slot) (r : List Slot) : List Slot := r.orderedInsert (fun b e => e.count < b.count) b

theorem mem_insertRanked {b e : Slot} {r : List Slot} : e ∈ insertRanked b r ↔ e = b ∨ e ∈ r :=
  List.mem_orderedInsert _

theorem insertRanked_cons (b e : Slot) (r : List Slot) :
    insertRanked b (e :: r) = if e.count < b.count then b :: e :: r else e :: insertRanked b r :=
  rfl

/-- With K slots an insertion is the ranked insertion, of which the last entry does not fit. -/
theorem insertSlot_firstSlots (b : Slot) (k : Nat) (r : List Slot) :
    insertSlot b (firstSlots k r) = firstSlots k (insertRanked b r) := by
  induction r generalizing k with
  | nil =>
    cases k with
    | zero => rfl
    | succ k => simp [insertSlot, insertRanked, List.replicate_succ]
  | cons e r ih =>
    cases k with
    | zero => rfl
    | succ k =>
      rw [firstSlots_cons, insertSlot, insertRanked_cons]
      split
      · rw [← firstSlots_cons, dropLast_firstSlots, firstSlots_cons]
      · rw [ih, firstSlots_cons]

/-- The ranking of entries that come in index order (43_topk.md R158). -/
def ranking (es : List Slot) : List Slot := es.foldl (fun r e => insertRanked e r) []

theorem selectSlots_eq_firstSlots (k : Nat) (es : List Slot) : selectSlots k es = firstSlots k (ranking es) := by
  rw [selectSlots, ← firstSlots_nil]
  exact List.foldl_hom (firstSlots k) fun r e => insertSlot_firstSlots e k r

theorem ranking_concat (es : List Slot) (b : Slot) : ranking (es ++ [b]) = insertRanked b (ranking es) :=
  List.foldl_concat ..

theorem ranking_perm (es : List Slot) : (ranking es).Perm es := by
  induction es using List.reverseRecOn with
  | nil => rfl
  | append_singleton es b ih =>
    rw [ranking_concat]
    exact (List.perm_orderedInsert _ b _).trans ((ih.cons b).trans (List.perm_append_singleton b es).symm)

theorem ranksBefore_of_count_lt {b e f : Slot} (hlt : e.count < b.count) (h : ranksBefore e f) : ranksBefore b f := by
  refine .inl ?_
  rcases h with h | ⟨h, -⟩
  · exact BitVec.lt_trans h hlt
  · rwa [← h]

/-- A later bucket with a count not greater ranks after (43_topk.md R159). -/
theorem ranksBefore_of_not_count_lt {b e : Slot} (hge : ¬ e.count < b.count) (hb : e.bucket < b.bucket) :
    ranksBefore e b := by
  by_cases heq : e.count = b.count
  · exact .inr ⟨heq, hb⟩
  · exact .inl (BitVec.lt_of_le_ne (BitVec.not_lt.1 hge) (Ne.symm heq))

/-- The insertion of a later bucket keeps the ranking. -/
theorem pairwise_insertRanked {b : Slot} {r : List Slot} (hr : r.Pairwise ranksBefore)
    (hb : ∀ e ∈ r, e.bucket < b.bucket) : (insertRanked b r).Pairwise ranksBefore := by
  induction r with
  | nil => exact List.pairwise_singleton _ _
  | cons e r ih =>
    obtain ⟨he, hr'⟩ := List.pairwise_cons.1 hr
    obtain ⟨heb, hrb⟩ := List.forall_mem_cons.1 hb
    rw [insertRanked_cons]
    split
    · rename_i hlt
      exact hr.cons (List.forall_mem_cons.2 ⟨.inl hlt, fun f hf => ranksBefore_of_count_lt hlt (he f hf)⟩)
    · rename_i hge
      refine (ih hr' hrb).cons fun f hf => ?_
      rcases mem_insertRanked.1 hf with rfl | hf
      · exact ranksBefore_of_not_count_lt hge heb
      · exact he f hf

theorem ranking_pairwise {es : List Slot} (h : es.Pairwise fun e f => e.bucket < f.bucket) :
    (ranking es).Pairwise ranksBefore := by
  induction es using List.reverseRecOn with
  | nil => exact .nil
  | append_singleton es b ih =>
    obtain ⟨hes, -, hb⟩ := List.pairwise_append.1 h
    rw [ranking_concat]
    exact pairwise_insertRanked (ih hes) fun e he => hb e ((ranking_perm es).mem_iff.1 he) b (List.mem_singleton_self b)

/-- The entries of the occupied buckets come in index order. -/
theorem pairwise_map_slotOf_occupiedBuckets (p : Params) (m : Memory) :
    ((occupiedBuckets p m).map (slotOf m)).Pairwise fun e f => e.bucket < f.bucket :=
  List.pairwise_map.2 (List.pairwise_lt_range.filter _)

/-- What is not among the first `k` of a ranking ranks after all of them. -/
theorem ranksBefore_of_notMem_take {r : List Slot} (h : r.Pairwise ranksBefore) {k : Nat} {e f : Slot}
    (he : e ∈ r.take k) (hf : f ∈ r) (hnot : f ∉ r.take k) : ranksBefore e f := by
  rw [← List.take_append_drop k r] at h hf
  exact (List.pairwise_append.1 h).2.2 e he f ((List.mem_append.1 hf).resolve_left hnot)

/-- Settles O46: the filled slots are the first K entries of the ranking of the occupied buckets. -/
theorem topkCharacterisation : Obligations.TopkCharacterisation := by
  intro p m hm
  have hscan := (scan_eq_selectSlots p hm).trans (selectSlots_eq_firstSlots _ _)
  have hperm := ranking_perm ((occupiedBuckets p m).map (slotOf m))
  have hranked := ranking_pairwise (pairwise_map_slotOf_occupiedBuckets p m)
  generalize ranking ((occupiedBuckets p m).map (slotOf m)) = r at hscan hperm hranked
  rw [hscan, filledSlots_firstSlots]
  refine ⟨firstSlots_eq_append p.k r, ?_, hranked.take, fun e he => ?_, fun b hb hnot e he => ?_⟩
  · rw [List.length_take, hperm.length_eq, List.length_map]
  · obtain ⟨b, hb, rfl⟩ := List.mem_map.1 (hperm.mem_iff.1 (List.mem_of_mem_take he))
    exact ⟨b, hb, rfl⟩
  · exact ranksBefore_of_notMem_take hranked he (hperm.mem_iff.2 (List.mem_map_of_mem hb)) hnot

end Sys2Proof.Machine
end

section
/-! ## The completion of TOPK (43_topk.md R155, R161, R163) -/

namespace Sys2Proof.Machine

theorem exec_topk_eq (s : State) :
    exec .topk s = .next (complete false
      { s with
        topkNum := indexWord (filledSlots (scan s.params s.table)).length
        topkIdx := publish s.params.k (filledSlots (scan s.params s.table)) topkIdxWord s.topkIdx
        topkCnt := publish s.params.k (filledSlots (scan s.params s.table)) Slot.count s.topkCnt }) :=
  execTopk_eq s

/-- Of the K slots the unfilled ones are 0. -/
theorem wordAt_publish_cleared {k : Nat} {r : List Slot} {j : Nat} (hj : j < k) (hr : r.length ≤ j) (f : Slot → Word)
    (old : Vector Word 16) : wordAt (publish k r f old) j = 0 :=
  wordAt_publish_unfilled k r f hr fun hk => absurd hj (not_lt.2 hk)

/-- The registers from K on keep their value (10_state.md R48). -/
theorem wordAt_publish_reserved {k : Nat} {r : List Slot} (hr : r.length ≤ k) (f : Slot → Word) (old : Vector Word 16)
    {j : Nat} (hj : k ≤ j) : wordAt (publish k r f old) j = wordAt old j := by
  by_cases h16 : j < 16
  · rw [wordAt_publish _ _ _ _ h16, List.getElem?_eq_none (hr.trans hj)]
    exact if_neg (not_lt.2 hj)
  · rw [wordAt_of_ge _ (not_lt.1 h16), wordAt_of_ge _ (not_lt.1 h16)]

/-- Settles O44: the completion of TOPK, and what its register files hold slot by slot. -/
theorem topkPublishesScan : Obligations.TopkPublishesScan := by
  intro s hp
  have hbd := paramsLegal_bounds hp
  have hlen := filledSlots_scan_length_le s.params s.table
  refine ⟨publish s.params.k (filledSlots (scan s.params s.table)) topkIdxWord s.topkIdx,
    publish s.params.k (filledSlots (scan s.params s.table)) Slot.count s.topkCnt, ?_, fun j e _ he => ?_,
    fun j hj hnone => ?_, fun j hj => ?_⟩
  · rw [exec_topk_eq, complete, Status.completed_false]
    rfl
  · obtain ⟨hjlen, rfl⟩ := List.getElem?_eq_some_iff.1 he
    exact ⟨wordAt_publish_filled _ _ topkIdxWord _ hjlen (by omega), wordAt_publish_filled _ _ _ _ hjlen (by omega)⟩
  · have hjlen := List.getElem?_eq_none_iff.1 hnone
    exact ⟨wordAt_publish_cleared hj hjlen _ _, wordAt_publish_cleared hj hjlen _ _⟩
  · exact ⟨wordAt_publish_reserved hlen _ _ hj, wordAt_publish_reserved hlen _ _ hj⟩

theorem indexWord_toNat_of_le_sixteen {n : Nat} (h : n ≤ 16) : (indexWord n).toNat = n :=
  Nat.mod_eq_of_lt (by omega)

/-- With no occupied bucket no slot is filled (43_topk.md R163). -/
theorem filledSlots_scan_of_no_occupied (p : Params) {m : Memory} (h : ∀ b, ¬ occupiedAt m b) :
    filledSlots (scan p m) = [] := by
  have hnone : ∀ b, (m.read b).occupied = false := fun b => by simpa [occupiedAt, Bucket.occupied] using h b
  rw [scan, foldl_scanStep_replicate]
  simp [hnone, selectSlots]

/-- Settles O47: TOPK publishes at most K filled slots, which are sorted; with no occupied bucket none. -/
theorem topkBoundedAndSorted : Obligations.TopkBoundedAndSorted := by
  intro s t hp ht
  rw [exec_topk_eq] at ht
  cases ht
  have hbd := paramsLegal_bounds hp
  have hlen := filledSlots_scan_length_le s.params s.table
  have hsorted := filledSlots_scan_sorted s.params s.table
  have hempty := @filledSlots_scan_of_no_occupied s.params s.table
  simp only [complete_topkNum, complete_topkIdx, complete_topkCnt]
  generalize filledSlots (scan s.params s.table) = r at *
  have hr : r.length ≤ 16 := by omega
  rw [indexWord_toNat_of_le_sixteen hr]
  refine ⟨hlen, fun i j hij hj => ?_, fun hno => ?_⟩
  · rw [wordAt_publish_filled _ _ _ _ hj hr, wordAt_publish_filled _ _ _ _ (hij.trans_lt hj) hr]
    rcases hij.eq_or_lt with rfl | hlt
    · exact BitVec.le_refl _
    · exact List.pairwise_iff_getElem.1 hsorted i j _ hj hlt
  · rw [hempty hno]
    refine ⟨rfl, fun j hj => ?_⟩
    have hlen0 : ([] : List Slot).length ≤ j := Nat.zero_le j
    exact ⟨wordAt_publish_cleared hj hlen0 _ _, wordAt_publish_cleared hj hlen0 _ _⟩

end Sys2Proof.Machine
end

section
/-! ## The completions of NOP and RDBKT (44_interface.md R170, R171) -/

namespace Sys2Proof.Machine

theorem exec_nop_eq (s : State) :
    exec .nop s = .next { s with status := { s.status with busy := false, done := true }, pending := none } := by
  rw [← Status.completed_false]
  exact execNop_eq s

theorem exec_rdbkt_of_lt {s : State} {idx : Nat} (hidx : idx < s.params.capacity) :
    exec (.rdbkt idx) s = .next (complete false
      { s with
        bktkey := packBytes fun j => if j < s.params.maxKeyLen then (s.table.read idx).byteAt j else 0
        resIdx := indexWord idx
        resCount := (s.table.read idx).count
        resInfo := resInfoWord (s.table.read idx).length false false 0 }) := by
  rcases execRdbkt_cases idx s with ⟨hcap, -⟩ | ⟨-, h⟩
  · omega
  · exact h

/-- Settles O43: the success of RDBKT, and its packed buffer read back byte by byte. -/
theorem rdbktResult : Obligations.RdbktResult := by
  intro s idx hidx
  refine ⟨packBytes fun j => if j < s.params.maxKeyLen then (s.table.read idx).byteAt j else 0, ?_,
    fun j hj => bufByte_packBytes _ hj⟩
  rw [exec_rdbkt_of_lt hidx, complete, Status.completed_false, resInfoWord_length_only]
  rfl

/-- Acceptance of NOP followed by its completion (10_state.md R38, R55). -/
theorem runCommand_nop_eq (s : State) :
    runCommand .nop s = .next
      { s with
        cmd := 0x00000000
        status := { s.status with busy := false, done := true, err := false, errCode := 0 }
        pending := none } :=
  exec_nop_eq (accept (encode .nop) s)

/-- Settles O31: NOP changes STATUS and the latch alone, and its DONE raises irq where IE is set. -/
theorem nopOnlyCompletes : Obligations.NopOnlyCompletes := by
  refine ⟨exec_nop_eq, runCommand_nop_eq, fun s t ht hie => ?_⟩
  rw [runCommand_nop_eq] at ht
  cases ht
  simp [irq, hie]

end Sys2Proof.Machine
end

section
/-! ## What a command ends in when an error applies (60_exceptions.md R180 to R188) -/

namespace Sys2Proof.Machine

/-- Settles O26: of the two ends of `exec_cases`, only `raise` sets ERR. -/
theorem errorChangesOnlyStatus : Obligations.ErrorChangesOnlyStatus := by
  intro i s t herr hx ht
  rcases exec_cases hx with ⟨o, u, rfl, -, -, -, hstatus, -⟩ | ⟨e, rfl⟩
  · rw [complete_status, Status.completed_err, hstatus, herr] at ht
    cases ht
  · exact ⟨e, rfl⟩

theorem findOrInsert_of_keyTooLong {s : State} {n : Nat} (h : s.params.maxKeyLen < n) :
    findOrInsert s n = .error .keyTooLong :=
  if_pos (decide_eq_true h)

theorem findOrInsert_zero (s : State) : findOrInsert s 0 = .error .emptyKey := by
  simp [findOrInsert, keyTooLong]

/-- No attempt of the probe stops exactly when each finds an occupied bucket without the key (41_table_lookup.md R125). -/
theorem firstStop_eq_none_iff_probeReaches (s : State) (n : Nat) :
    firstStop s.params s.table (keyOf s n) (keyHome s.params (keyOf s n)) = none ↔
      ProbeReaches s n s.params.probeLimit := by
  rw [firstStop_eq_none_iff]
  exact forall₂_congr fun j _ => stopsAt_false_iff s n j

theorem findOrInsert_of_exhausted {s : State} {n : Nat} (h0 : n ≠ 0) (hn : n ≤ s.params.maxKeyLen)
    (hr : ProbeReaches s n s.params.probeLimit) : findOrInsert s n = .error .insertionExhausted := by
  have hnone := (firstStop_eq_none_iff_probeReaches s n).2 hr
  rw [findOrInsert_of_ok h0 hn]
  rcases findOrInsertKey_cases s.params s.table (keyOf s n) with ⟨-, h⟩ | ⟨i, hi, -⟩ | ⟨i, hi, -⟩
  · exact h
  · simp [hnone] at hi
  · simp [hnone] at hi

theorem findOrInsert_of_not_exhausted {s : State} {n : Nat} (h0 : n ≠ 0) (hn : n ≤ s.params.maxKeyLen)
    (hr : ¬ ProbeReaches s n s.params.probeLimit) : ∃ f, findOrInsert s n = .ok f := by
  rw [findOrInsert_of_ok h0 hn]
  rcases findOrInsertKey_cases s.params s.table (keyOf s n) with ⟨hnone, -⟩ | ⟨i, -, -, h⟩ | ⟨i, -, -, -, h⟩
  · exact absurd ((firstStop_eq_none_iff_probeReaches s n).1 hnone) hr
  · exact ⟨_, h⟩
  · exact ⟨_, h⟩

/-- An error of findOrInsert is the error of FIND and COUNT. -/
theorem exec_of_findOrInsert_error {s : State} {n : Nat} {i : Instr} {e : CmdError} (hi : i = .find n ∨ i = .count n)
    (hf : findOrInsert s n = .error e) : exec i s = .next (raise e s) := by
  rcases hi with rfl | rfl
  · rw [exec, execFind, hf]
  · exact exec_count_of_error hf

/-- A success of findOrInsert is a success of FIND and COUNT, which leaves ERR. -/
theorem err_of_findOrInsert_ok {s t : State} {n : Nat} {i : Instr} {f : Found} (hi : i = .find n ∨ i = .count n)
    (hf : findOrInsert s n = .ok f) (ht : exec i s = .next t) : t.status.err = s.status.err := by
  rcases hi with rfl | rfl
  · rw [exec_find_of_ok hf] at ht
    cases ht
    rfl
  · rw [exec_count_of_ok hf] at ht
    cases ht
    rfl

/-- Settles O29: the exhausted probe is findOrInsert's error. -/
theorem exhaustedProbeRaisesInsertionExhausted : Obligations.ExhaustedProbeRaisesInsertionExhausted := by
  intro n s i hi h0 hn hr
  exact exec_of_findOrInsert_error hi (findOrInsert_of_exhausted (by omega) hn hr)

theorem exec_hash_of_keyTooLong {s : State} {n : Nat} (h : s.params.maxKeyLen < n) :
    exec (.hash n) s = .next (raise .keyTooLong s) := by
  rcases execHash_cases n s with ⟨-, hx⟩ | ⟨hn, -⟩
  · exact hx
  · omega

theorem exec_rdbkt_of_ge {s : State} {idx : Nat} (h : s.params.capacity ≤ idx) :
    exec (.rdbkt idx) s = .next (raise .badIndex s) := by
  rcases execRdbkt_cases idx s with ⟨-, hx⟩ | ⟨hlt, -⟩
  · exact hx
  · omega

/-- Settles O27: the length checks of HASH and of findOrInsert; the empty key has hash and home 0. -/
theorem keyLengthErrors : Obligations.KeyLengthErrors := by
  refine ⟨fun n s i hi hn => ?_, fun s i hi => exec_of_findOrInsert_error hi (findOrInsert_zero s), fun s => ?_⟩
  · rcases hi with rfl | hi
    · exact exec_hash_of_keyTooLong hn
    · exact exec_of_findOrInsert_error hi (findOrInsert_of_keyTooLong hn)
  · obtain ⟨hhash, hhome⟩ := zeroHashes.1 s.params
    have hkey : keyOf s 0 = [] := rfl
    rw [exec_hash_of_fits (Nat.zero_le _), hkey, hhash, hhome, complete, Status.completed_false]
    rfl

/-- Settles O28: INCR succeeds on an occupied bucket of the table alone, and RDBKT on an index of the table. -/
theorem badIndexRaised : Obligations.BadIndexRaised := by
  rintro idx s i (⟨rfl | rfl, hcap⟩ | ⟨rfl, hempty⟩)
  · exact exec_incr_of_not_occupied fun ⟨hlt, _⟩ => by omega
  · exact exec_rdbkt_of_ge hcap
  · exact exec_incr_of_not_occupied fun ⟨_, hocc⟩ => hempty hocc

theorem performWord_of_illegal {w : Word} {why : Illegal} (hd : decode w = .illegal why) (s : State) :
    performWord w s = .next (raise .illegalCommand s) := by
  simp [performWord, hd]

theorem decode_of_illegalFields {w : Word} (h : IllegalFields w) : ∃ why, decode w = .illegal why :=
  (illegal_iff_not_legal w).2 fun hlegal => (legal_iff_not_illegalFields w).1 hlegal h

/-- The sequencer's step with a word in the latch; the choice of its move leaves STATUS and the latch. -/
theorem step_eq_performWord {s s' : State} {p : Pending} (hcontract : InContract s) (hmoves : CoreMovesAt s s')
    (hi : s.status.init = false) (hp : s.pending = some p) : step s = performWord p.word s' := by
  have hs' := coreMovesAt_eq hmoves
  rw [step_of_coreMovesAt hcontract hmoves (.inr (by simp [hp]))]
  exact coreMove_of_pending (by rw [hs']; exact hi) (by rw [hs']; exact hp)

/-- Settles O7: the sequencer performs the word in the latch, which decodes to no command. -/
theorem illegalWordRaisesIllegalCommand : Obligations.IllegalWordRaisesIllegalCommand := by
  intro s s' w sat hcontract hmoves hi hp hw
  obtain ⟨why, hd⟩ := decode_of_illegalFields hw
  rw [step_eq_performWord hcontract hmoves hi hp, performWord_of_illegal hd]
  rfl

end Sys2Proof.Machine
end

section
/-! ## The order of the errors (60_exceptions.md R188) -/

namespace Sys2Proof.Machine

theorem err_of_next_raise {o : Host.Outcome State Fault Refusal} {s t : State} {e : CmdError}
    (ho : o = .next (raise e s)) (ht : o = .next t) : t.status.err = true ∧ t.status.errCode = errorCode e := by
  rw [ho] at ht
  cases ht
  exact ⟨rfl, rfl⟩

theorem err_of_next_complete {o : Host.Outcome State Fault Refusal} {overflow : Bool} {u t : State}
    (ho : o = .next (complete overflow u)) (hu : u.status.err = false) (ht : o = .next t) :
    t.status.err = false := by
  rw [ho] at ht
  cases ht
  exact hu

/-- FIND and COUNT report the first of KeyTooLong, EmptyKey and InsertionExhausted that applies. -/
theorem lookup_error_order {s t : State} {n : Nat} {i : Instr} (hi : i = .find n ∨ i = .count n)
    (herr : s.status.err = false) (ht : exec i s = .next t) :
    if s.params.maxKeyLen < n then t.status.err = true ∧ t.status.errCode = 0x01
    else if n = 0 then t.status.err = true ∧ t.status.errCode = 0x05
    else (ProbeReaches s n s.params.probeLimit → t.status.err = true ∧ t.status.errCode = 0x02) ∧
      (¬ ProbeReaches s n s.params.probeLimit → t.status.err = false) := by
  split_ifs with hlong h0
  · exact err_of_next_raise (exec_of_findOrInsert_error hi (findOrInsert_of_keyTooLong hlong)) ht
  · subst h0
    exact err_of_next_raise (exec_of_findOrInsert_error hi (findOrInsert_zero s)) ht
  · have hn : n ≤ s.params.maxKeyLen := not_lt.1 hlong
    refine ⟨fun hr => ?_, fun hr => ?_⟩
    · exact err_of_next_raise (exec_of_findOrInsert_error hi (findOrInsert_of_exhausted h0 hn hr)) ht
    · obtain ⟨f, hf⟩ := findOrInsert_of_not_exhausted h0 hn hr
      exact (err_of_findOrInsert_ok hi hf ht).trans herr

theorem incr_error_order {s t : State} {idx : Nat} (herr : s.status.err = false)
    (ht : exec (.incr idx) s = .next t) :
    if s.params.capacity ≤ idx then t.status.err = true ∧ t.status.errCode = 0x04
    else if (s.table.read idx).length = 0 then t.status.err = true ∧ t.status.errCode = 0x04
    else t.status.err = false := by
  split_ifs with hcap hempty
  · exact err_of_next_raise (exec_incr_of_not_occupied fun ⟨hlt, _⟩ => by omega) ht
  · exact err_of_next_raise (exec_incr_of_not_occupied fun ⟨_, hocc⟩ => hocc hempty) ht
  · exact err_of_next_complete (exec_incr_of_occupied (not_le.1 hcap) hempty) herr ht

/-- Settles O30: an illegal word by its decoding, a command by the checks of its form in their order. -/
theorem errorsInPriorityOrder : Obligations.ErrorsInPriorityOrder := by
  intro w s t herr ht
  cases hd : decode w with
  | illegal why => exact err_of_next_raise (performWord_of_illegal hd s) ht
  | legal i =>
    rw [performWord_of_legal hd] at ht
    cases i with
    | nop => exact err_of_next_complete (execNop_eq s) herr ht
    | topk => exact err_of_next_complete (exec_topk_eq s) herr ht
    | hash n =>
      dsimp only
      split_ifs with hlong
      · exact err_of_next_raise (exec_hash_of_keyTooLong hlong) ht
      · exact err_of_next_complete (exec_hash_of_fits (not_lt.1 hlong)) herr ht
    | find n => exact lookup_error_order (.inl rfl) herr ht
    | count n => exact lookup_error_order (.inr rfl) herr ht
    | incr idx => exact incr_error_order herr ht
    | rdbkt idx =>
      dsimp only
      split_ifs with hcap
      · exact err_of_next_raise (exec_rdbkt_of_ge hcap) ht
      · exact err_of_next_complete (exec_rdbkt_of_lt (not_le.1 hcap)) herr ht

end Sys2Proof.Machine
end

section
/-! ## What is outside the contract (92_eei_decisions.md D45, 60_exceptions.md R204) -/

namespace Sys2Proof.Machine

theorem step_of_not_paramsLegal {s : State} (h : paramsLegal s.params = false) :
    step s = .refused .parameterOutOfRange := by
  simp [step, h]

/-- The legal shift constants are at most 31 (40_hash_mixer.md R108). -/
theorem paramsLegal_shift_bounds {p : Params} (h : paramsLegal p = true) :
    p.shifts.gT ≤ 31 ∧ p.shifts.gM ≤ 31 ∧ p.shifts.gR ≤ 31 ∧ p.shifts.t3A ≤ 31 ∧ p.shifts.t3B ≤ 31 ∧
      p.shifts.t3C ≤ 31 ∧ p.shifts.t2A ≤ 31 ∧ p.shifts.t2B ≤ 31 ∧ p.shifts.t1A ≤ 31 ∧ p.shifts.t1B ≤ 31 ∧
      p.shifts.v1 ≤ 31 ∧ p.shifts.v2 ≤ 31 ∧ p.shifts.v3 ≤ 31 ∧ p.shifts.v4 ≤ 31 ∧ p.shifts.v5 ≤ 31 ∧
      p.shifts.v6 ≤ 31 := by
  have hshifts : shiftsLegal p.shifts = true := (Bool.and_eq_true_iff.1 h).2
  simpa [shiftsLegal] using hshifts

/-- Settles O10: legal parameters and shift constants are within their bounds; the check of the
second host is the next one. -/
theorem outsideContractIsRefused : Obligations.OutsideContractIsRefused := by
  refine ⟨fun s hout => step_of_not_paramsLegal (Bool.eq_false_iff.2 fun hlegal => ?_), fun s hsecond => ?_⟩
  · have hbounds := paramsLegal_bounds hlegal
    have hshifts := paramsLegal_shift_bounds hlegal
    omega
  · cases hlegal : paramsLegal s.params with
    | false => exact ⟨_, step_of_not_paramsLegal hlegal⟩
    | true => exact ⟨.secondHost, by simp [step, hlegal, hsecond]⟩

end Sys2Proof.Machine
end

section
/-! ## When irq rises (60_exceptions.md R195, R196) -/

namespace Sys2Proof.Machine

theorem irq_iff (s : State) : irq s = true ↔ s.ctrl.ie = true ∧ s.status.done = true := Bool.and_eq_true_iff

/-- A command ends with the latch empty, DONE = 1 and CTRL as it was. -/
theorem exec_completes {i : Instr} {s t : State} (h : exec i s = .next t) :
    t.pending = none ∧ t.status.done = true ∧ t.ctrl = s.ctrl := by
  rcases exec_cases h with ⟨o, u, rfl, -, -, hctrl, -⟩ | ⟨e, rfl⟩
  · exact ⟨rfl, rfl, hctrl⟩
  · exact ⟨rfl, rfl, rfl⟩

/-- Of the host's writes only one of CTRL with IE raises irq, with DONE = 1: the others do not set IE, and none sets
DONE. -/
theorem hostWrite_raises_irq {off : Nat} {v : Word} {s : State} (h0 : irq s = false)
    (h1 : irq (hostWrite off v s) = true) : off = 0x004 ∧ v.getLsbD 0 = true ∧ s.status.done = true := by
  have hlow : irq s ≠ true := Bool.eq_false_iff.1 h0
  rcases hostWrite_cases off v s with
    h | ⟨-, -, h⟩ | ⟨hoff, -, h⟩ | ⟨-, h⟩ | ⟨-, h⟩ | ⟨-, h⟩ | ⟨w, -, h⟩ <;> rw [h] at h1
  · exact absurd h1 hlow
  · cases h1
  · exact ⟨hoff, (irq_iff _).1 h1⟩
  · obtain ⟨hie, hdone⟩ := (irq_iff _).1 h1
    rw [writeStatus_status, Status.writeOneToClear_done, Bool.and_eq_true_iff] at hdone
    exact absurd ((irq_iff s).2 ⟨hie, hdone.1⟩) (by simp [h0])
  · exact absurd h1 hlow
  · simp [irq] at h1
  · exact absurd h1 hlow

theorem hostMove_raises_irq {s t : State} (hm : hostMove s = .next t) (h0 : irq s = false) (h1 : irq t = true) :
    s.status.done = true ∧ ∃ a v, hostStmt s = some (.wr a v) ∧ a.offset = 0x004 ∧ v.getLsbD 0 = true := by
  have hlow : irq s ≠ true := Bool.eq_false_iff.1 h0
  rcases hostMove_cases hm with rfl | ⟨a, v, hst, -, -, -, rfl⟩ | ⟨a, x, -, rfl⟩ | ⟨i, -, -, rfl⟩ | ⟨l, rfl⟩
  · exact absurd h1 hlow
  · obtain ⟨hoff, hv, hdone⟩ := hostWrite_raises_irq h0 h1
    exact ⟨hdone, a, v, hst, hoff, hv⟩
  · exact absurd h1 hlow
  · obtain ⟨hoff, -⟩ := hostWrite_raises_irq h0 h1
    cases hoff
  · exact absurd h1 hlow

/-- Of the sequencer's moves only a completion raises irq; the end of the sweep leaves DONE and CTRL. -/
theorem coreMove_raises_irq {s t : State} (hm : coreMove s = .next t) (h0 : irq s = false) (h1 : irq t = true) :
    s.status.init = false ∧ s.pending.isSome = true ∧ t.pending = none ∧ t.status.done = true ∧ t.ctrl = s.ctrl := by
  have hlow : irq s ≠ true := Bool.eq_false_iff.1 h0
  rcases coreMove_cases hm with ⟨-, rfl⟩ | ⟨-, -, rfl⟩ | ⟨p, i, hi, hp, -, hx⟩ | ⟨p, why, hi, hp, -, rfl⟩
  · exact absurd h1 hlow
  · exact absurd h1 hlow
  · exact ⟨hi, by simp [hp], exec_completes hx⟩
  · exact ⟨hi, by simp [hp], rfl, rfl, rfl⟩

/-- Settles O59, by whose move the step is: a move of the host, of the sequencer, or a reset, after which irq is 0. -/
theorem irqRisesOnlyAtCompletionOrEnable : Obligations.IrqRisesOnlyAtCompletionOrEnable := by
  intro s t hstep h0 h1
  obtain ⟨-, s', hs', hmove⟩ := step_cases hstep
  have h0' : irq s' = false := by rw [hs']; exact h0
  rcases hmove with hhost | hcore | ⟨-, rfl⟩
  · have hrise := hostMove_raises_irq hhost h0' h1
    rw [hs'] at hrise
    exact .inr hrise
  · have hrise := coreMove_raises_irq hcore h0' h1
    rw [hs'] at hrise
    exact .inl hrise
  · cases h1

end Sys2Proof.Machine
end

section
/-! ## A run whose host has ended (70_reset_and_hazards.md R231, 60_exceptions.md R206) -/

namespace Sys2Proof.Machine

theorem coreMove_of_init {s : State} (hi : s.status.init = true) : coreMove s = .next (endSweep s) := if_pos hi

theorem coreMove_of_idle {s : State} (hi : s.status.init = false) (hp : s.pending = none) : coreMove s = .next s := by
  simp [coreMove, hi, hp]

/-- The sequencer's move is never refused (60_exceptions.md R207). -/
theorem coreMove_answers (s : State) : ∃ t, coreMove s = .next t := by
  cases hi : s.status.init with
  | true => exact ⟨_, coreMove_of_init hi⟩
  | false =>
    cases hp : s.pending with
    | none => exact ⟨s, coreMove_of_idle hi hp⟩
    | some p =>
      rw [coreMove_of_pending hi hp]
      cases hd : decode p.word with
      | legal i =>
        obtain ⟨t, ht, -⟩ := exec_ends i s
        exact ⟨t, (performWord_of_legal hd s).trans ht⟩
      | illegal why => exact ⟨_, performWord_of_illegal hd s⟩

/-- The sequencer's move leaves the parameters, the contract, the host and the schedule. -/
theorem coreMove_frame {s t : State} (hm : coreMove s = .next t) :
    t.params = s.params ∧ t.secondHost = s.secondHost ∧ t.host = s.host ∧ t.sched = s.sched := by
  rcases coreMove_cases hm with ⟨-, rfl⟩ | ⟨-, -, rfl⟩ | ⟨p, i, -, -, -, hx⟩ | ⟨p, why, -, -, -, rfl⟩
  · exact ⟨rfl, rfl, rfl, rfl⟩
  · exact ⟨rfl, rfl, rfl, rfl⟩
  · obtain ⟨hparams, hsecond, -, -, -, hhost, hsched, -⟩ := exec_inputs hx
    exact ⟨hparams, hsecond, hhost, hsched⟩
  · exact ⟨rfl, rfl, rfl, rfl⟩

theorem exec_clears_busy {i : Instr} {s t : State} (h : exec i s = .next t) : t.status.busy = false := by
  rcases exec_cases h with ⟨o, u, rfl, -⟩ | ⟨e, rfl⟩ <;> rfl

/-- After the sequencer's move nothing is pending and no sweep is in progress (10_state.md R30). -/
theorem coreMove_clears_busy {s t : State} (h : StatusInv s) (hm : coreMove s = .next t) : t.status.busy = false := by
  rcases coreMove_cases hm with ⟨-, rfl⟩ | ⟨hi, hp, rfl⟩ | ⟨p, i, -, -, -, hx⟩ | ⟨p, why, -, -, -, rfl⟩
  · rfl
  · simp [h.busyIff, hi, hp]
  · exact exec_clears_busy hx
  · rfl

/-- Whether the host has ended depends on the host alone. -/
theorem hostEnded_congr {s t : State} (h : t.host = s.host) : hostEnded t = hostEnded s := by
  have hst : hostStmt t = hostStmt s := by rw [hostStmt, hostStmt, h]
  rw [hostEnded, hostEnded, hst]

theorem runEnded_iff (s : State) : runEnded s = true ↔ hostEnded s = true ∧ s.status.busy = false := by
  simp [runEnded]

/-- BUSY = 0 is an empty latch and no sweep (10_state.md R30). -/
theorem StatusInv.busy_eq_false_iff {s : State} (h : StatusInv s) :
    s.status.busy = false ↔ s.pending = none ∧ s.status.init = false := by
  simp [h.busyIff]

/-- A run that is over stays as it is: the move is the host's, and it has ended. -/
theorem step_of_runEnded {s : State} (hc : InContract s) (h : StatusInv s) (hs : s.sched = [])
    (hover : runEnded s = true) : step s = .next s := by
  obtain ⟨hended, hb⟩ := (runEnded_iff s).1 hover
  obtain ⟨hp, hi⟩ := h.busy_eq_false_iff.1 hb
  rw [step_of_hostMovesAt hc (.inr (.inl ⟨hs, hi, hp, rfl⟩)), hostMove_of_ended hended]

/-- With the host ended and BUSY = 1 the step is the sequencer's. -/
theorem step_of_ended_busy {s : State} (hc : InContract s) (h : StatusInv s) (hs : s.sched = [])
    (hended : hostEnded s = true) (hb : s.status.busy = true) : step s = coreMove s := by
  refine step_of_coreMovesAt hc (.inr (.inl ⟨hs, hended, rfl⟩)) ((coreReady_iff s).1 ?_)
  rw [coreReady, Bool.or_comm, ← h.busyIff, hb]

/-- Settles O9: the one step is the sequencer's move, after which BUSY is 0; then the run is over. -/
theorem haltedRunCompletesThenIdles : Obligations.HaltedRunCompletesThenIdles := by
  refine ⟨fun s hc hinv hs hended hb => ?_, fun s hc hinv hs hover => step_of_runEnded hc hinv.status hs hover⟩
  obtain ⟨t, ht⟩ := coreMove_answers s
  obtain ⟨hparams, hsecond, hhost, hsched⟩ := coreMove_frame ht
  have hct : InContract t := by rwa [InContract, hparams, hsecond]
  have hover : runEnded t = true :=
    (runEnded_iff t).2 ⟨(hostEnded_congr hhost).trans hended, coreMove_clears_busy hinv.status ht⟩
  exact ⟨t, (step_of_ended_busy hc hinv.status hs hended hb).trans ht, hover,
    step_of_runEnded hct (machineInv_coreMove hinv ht).status (hsched.trans hs) hover⟩

end Sys2Proof.Machine
end

section
/-! ## The writes of KEYBUF and of CTRL (70_reset_and_hazards.md R222, R223) -/

namespace Sys2Proof.Machine

theorem hostWrite_keybuf_of_busy {s : State} (hb : s.status.busy = true) {w : Nat} (hw : w < 32) (v : Word) :
    hostWrite (0x100 + 4 * w) v s = dropWrite s := by
  rw [hostWrite_keybuf hw, writeKeybuf, if_pos hb]

/-- Byte `r` of word `w` is byte `4w + r` of the buffer (20_memory.md R64). -/
theorem bufByte_word (buf : Vector Word 32) (w : Nat) {r : Nat} (hr : r < 4) :
    bufByte buf (4 * w + r) = (wordAt buf w).extractLsb' (8 * r) 8 := by
  rw [bufByte, show (4 * w + r) / 4 = w by omega, show (4 * w + r) % 4 = r by omega]

/-- Settles O12: the write is `dropWrite`, or stores word `w`, whose bytes are its own and no other word's. -/
theorem keybufWriteStoresLittleEndian : Obligations.KeybufWriteStoresLittleEndian := by
  intro s w v hw
  refine ⟨fun hb => hostWrite_keybuf_of_busy hb hw v, fun hb =>
    ⟨_, hostWrite_keybuf_of_idle hb hw v, ?_, fun r hr => ?_, fun j hj => ?_⟩⟩
  · rw [hostRead_keybuf hw]
    exact wordAt_setIfInBounds_self _ _ hw
  · rw [bufByte_word _ _ hr, wordAt_setIfInBounds_self _ _ hw]
  · exact bufByte_congr (wordAt_setIfInBounds_other _ _ hj.symm)

theorem hostRead_ctrl_of_written {v : Word} (hv : v.getLsbD 31 = false) (s : State) :
    hostRead 0x004 (hostWrite 0x004 v s) = v &&& 0x00000003 := by
  rw [hostWrite_ctrl_of_not_srst hv, hostRead_ctrl]
  exact Ctrl.word_ofWord v

/-- Settles O13: the write replaces CTRL alone, and the mode of an accepted command is in the latch. -/
theorem ctrlWriteActsAtOnce : Obligations.CtrlWriteActsAtOnce := by
  intro s v hv
  have hread := hostRead_ctrl_of_written hv s
  rw [hostWrite_ctrl_of_not_srst hv] at hread ⊢
  refine ⟨rfl, hread, rfl, rfl, fun hp => ?_⟩
  obtain ⟨p, hp⟩ := Option.isSome_iff_exists.1 hp
  rw [sampledSat_of_pending hp]
  exact sampledSat_of_pending hp

end Sys2Proof.Machine
end

section
/-! ## The reset and its sweep (70_reset_and_hazards.md R210 to R212) -/

namespace Sys2Proof.Machine

theorem hostWrite_ctrl_of_srst {v : Word} (hv : v.getLsbD 31 = true) (s : State) :
    hostWrite 0x004 v s = enterReset s := by
  rw [hostWrite_ctrl, writeCtrl, if_pos hv]

theorem Status.word_sweeping : Status.sweeping.word = 0x00000041 := by decide

theorem Status.word_sweepEnded_sweeping : Status.sweeping.sweepEnded.word = 0 := by decide

theorem Ctrl.word_reset : Ctrl.reset.word = 0 := by decide

/-- Settles O22: both are `enterReset`, which leaves only the table, the parameters, the host and the schedule. -/
theorem resetSourcesAreIdentical : Obligations.ResetSourcesAreIdentical := by
  intro s v rest hc hv
  have hreset := step_of_reset (s := { s with sched := .reset :: rest }) hc rfl
  rw [hostWrite_ctrl_of_srst hv, hostWrite_ctrl_of_srst hv]
  refine ⟨hreset, Status.word_sweeping, rfl, ?_⟩
  rintro t rfl
  exact ⟨rfl, Ctrl.word_reset, rfl, rfl, rfl, rfl, rfl, rfl, rfl,
    fun j => ⟨wordAt_replicate 16 j, wordAt_replicate 16 j⟩, fun j => ⟨bufByte_replicate j, bufByte_replicate j⟩, rfl, rfl⟩

/-- Settles O23: the step is `endSweep`, and the choice of it leaves STATUS and CTRL. -/
theorem sweepEndClearsTable : Obligations.SweepEndClearsTable := by
  intro s s' hc hmoves hi
  have hs' := coreMovesAt_eq hmoves
  have hstatus : s'.status = s.status := by rw [hs']
  have hctrl : s'.ctrl = s.ctrl := by rw [hs']
  refine ⟨endSweep s', ?_, fun b => ⟨rfl, rfl, byteAt_empty⟩,
    fun j => ⟨bufByte_replicate j, bufByte_replicate j⟩, ?_, ?_, rfl⟩
  · rw [step_of_coreMovesAt hc hmoves (.inl hi)]
    exact coreMove_of_init (hstatus ▸ hi)
  · rw [endSweep_status, hstatus]
    rfl
  · rw [irq, irq, endSweep_ctrl, endSweep_status, Status.sweepEnded_done, hctrl, hstatus]

/-- Settles O24: with BUSY = 1 a CMD or KEYBUF write is `dropWrite`, and a CTRL write acts as at any other time. -/
theorem writesDuringSweep : Obligations.WritesDuringSweep := by
  intro s v w hw
  have hb : (enterReset s).status.busy = true := rfl
  refine ⟨Status.word_sweeping, hostWrite_cmd_of_busy hb v, hostWrite_keybuf_of_busy hb hw v,
    Status.word_sweepEnded_sweeping, ?_, fun hv => ?_, fun hv => hostWrite_ctrl_of_srst hv (enterReset s)⟩
  · rw [hostRead_status, status_cmd_write_in_sweep]
    decide
  · rw [hostRead_ctrl, endSweep_ctrl, ← hostRead_ctrl]
    exact hostRead_ctrl_of_written hv (enterReset s)

end Sys2Proof.Machine
end
